-- ==== Sys2Proof/Word.lean ====
section
/-! DEFINITION. The bit-vector widths of the protocol (spec/10_state.md R23, R24; spec/00_scope.md R13). -/

namespace Sys2Proof

/-- `u8`: one byte of a line, and a register address (R13, R23). -/
abbrev Byte := BitVec 8

/-- `u32`: a register value or a mask (R13, R24). -/
abbrev Word := BitVec 32

/-- The all-bits mask 0xFFFFFFFF (R17). -/
abbrev allBits : Word := 0xFFFFFFFF#32

/-- `NUL`, the byte 0x00 (R13). -/
abbrev nul : Byte := 0x00#8

end Sys2Proof
end

