-- ==== Sys2Proof/Config.lean ====
section
/-! DEFINITION. The implementation parameters of spec/00_scope.md R10 as plain data, the reference
configuration T of spec/95_test_vectors.md, and the free values of the model: constants without a body,
of which nothing can be proved. -/

namespace Sys2Proof

/-- `ROLE`: which role the instance is built for (R10, R274). -/
inductive Role where
  | master
  | slave
deriving DecidableEq, Repr

/-- The external tokenizer, the parameters `Decode` and `Compare` (R170, R171, D21).
`reference` is the reference instance of both rules.
`other k` is any instance that keeps the contract: what the contract leaves open is a free value, chosen by `k`. -/
inductive Tokenizer where
  | reference
  | other (k : Nat)
deriving DecidableEq, Repr

/-- `ID_ADDR_FIELD` and `ID_BOARD_FIELD`: a total function of the identity value (R10, R248, D27).
`bits lo width` is the slice of `width` bits from bit `lo` up, the form the test vectors use.
`other k` is any function at all: a free value, chosen by `k`. -/
inductive IdField where
  | bits (lo width : Nat)
  | other (k : Nat)
deriving DecidableEq, Repr

/-- The mode of a comparison (R171). -/
inductive CompareMode where
  | exact
  | header
deriving DecidableEq, Repr

/-- The parameters that are fixed when an instance is built (R10, R49). `LINE_PARAMS`, `MAX_ATTEMPTS` and
`SEQUENCE_CEILING` come with INIT and stand in `Machine.Cfg`. -/
structure Params where
  role             : Role
  depth            : Nat
  slotCapacity     : Nat
  pollInterval     : Nat
  turnaroundDelay  : Nat
  lastValidAddress : Nat
  nodeIdReg        : Byte
  idAddrField      : IdField
  idBoardField     : IdField
  scanTimeout      : Nat
  writePrefix      : List Byte
  readPrefix       : List Byte
  separator        : Byte
  endMarker        : Byte
  okToken          : List Byte
  errorToken       : List Byte
  txCapacity       : Nat
  tokenizer        : Tokenizer
deriving DecidableEq, Repr

/-- The test configuration T of spec/95_test_vectors.md, for a given role. -/
def Params.reference (role : Role) : Params where
  role := role
  depth := 4
  slotCapacity := 16
  pollInterval := 20
  turnaroundDelay := 10
  lastValidAddress := 3
  nodeIdReg := 0x00#8
  idAddrField := .bits 0 7
  idBoardField := .bits 8 8
  scanTimeout := 100
  writePrefix := [0x41#8, 0x54#8, 0x24#8, 0x57#8, 0x3D#8]
  readPrefix := [0x41#8, 0x54#8, 0x24#8, 0x52#8, 0x3D#8]
  separator := 0x2C#8
  endMarker := 0x0D#8
  okToken := [0x4F#8, 0x4B#8]
  errorToken := [0x45#8, 0x52#8, 0x52#8, 0x4F#8, 0x52#8]
  txCapacity := 32
  tokenizer := .reference

/-- FREE VALUE (93_implementation_defined.md I20): the result of a transport capability, true for `ok`. -/
opaque Config.freeTransport : Nat → Bool

/-- FREE VALUE (I22): the bytes the environment delivers during one Delay. -/
opaque Config.freeDelivery : Nat → List Byte

/-- FREE VALUE (I21): the result of the write-register callback, true for `ok`. -/
opaque Config.freeCbWrite : Nat → Bool

/-- FREE VALUE (I21): the result of the read-register callback, `none` for `fail`. -/
opaque Config.freeCbRead : Nat → Option Word

/-- FREE VALUE (10_state.md R40): `rx_value` after an attempt that accepted no value line. -/
opaque Config.freeRxValue : Nat → Word

/-- FREE VALUE (I16): what tokenizer `k` makes of a field of hexadecimal digits that is not in the minimal-hex form. -/
opaque Config.freeDecode : Nat → List Byte → Option Word

/-- FREE VALUE (I17): whether tokenizer `k`, asked in a mode, matches two texts that differ in the case of letters only. -/
opaque Config.freeCaseMatch : Nat → CompareMode → List Byte → List Byte → Bool

/-- FREE VALUE (notes/assumptions/11.md): the text ENCODE_MINHEX returns outside the operand domain of R160. -/
opaque Config.freeMinhex : Word → Nat → List Byte

/-- FREE VALUE (I27): the identity-register field function number `k`. -/
opaque Config.freeIdField : Nat → Word → Nat

end Sys2Proof
end

