-- ==== Sys2Proof/Syntax.lean ====
section
/-! DEFINITION. The operation set of spec/30_encoding.md R100: one constructor per row of
spec/opcode_table.json. Byte strings are lists of bytes, first character first (R75). -/

namespace Sys2Proof

/-- The reply expectation of an access (R38). -/
inductive Expectation where
  | none
  | ok
  | value
deriving DecidableEq, Repr

/-- What the host may pass as an expectation: one of the three kinds, or a code that is none of them
("out-of-range reply kind", R206). -/
inductive ExpectArg where
  | kind (e : Expectation)
  | outOfRange (code : Nat)
deriving DecidableEq, Repr

/-- The access operation (R38). -/
inductive AccessOp where
  | write
  | read
  | generic
deriving DecidableEq, Repr

/-- The access parameter latch (R38). `value` and `mask` are used by `write` only, `text` by `generic` only; what the
operations of this model put into a field that an access does not use is notes/assumptions/30.md. -/
structure AccessParams where
  op          : AccessOp
  node        : Nat
  reg         : Byte
  expectation : Expectation
  timeout     : Nat
  value       : Word
  mask        : Word
  text        : List Byte
deriving DecidableEq, Repr

/-- The terminator a field is read up to (R170). -/
inductive Terminator where
  | separator
  | endOfLine
deriving DecidableEq, Repr

/-- A registered callback: absent, or a reference to a host function (R45). -/
abbrev Callback := Option Nat

/-- The operations of R100, in the order of spec/opcode_table.json.

The seven wire constructors stand for one line on the serial line, without its end marker: `body`, `rest` and `text`
are its bytes (those after the prefix or token where the constructor has one).
In the host operations `statusOut`, `valueOut` and `listOut` say whether the host provided that output place (R206, R246). -/
inductive Instr where
  | write (body : List Byte)
  | read (body : List Byte)
  | generic (text : List Byte)
  | ok
  | error (rest : List Byte)
  | value (text : List Byte)
  | noise (text : List Byte)
  | pushByte (b : Byte)
  | hasPending
  | flush (i : Nat)
  | flushAll
  | encodeMinhex (v : Word) (w : Nat)
  | buildGeneric (text : List Byte)
  | buildWrite (reg : Byte) (value mask : Word)
  | buildRead (reg : Byte)
  | decode (text : List Byte) (pos : Nat) (term : Terminator)
  | compare (line : List Byte) (mode : CompareMode) (literal : List Byte)
  | attempt (p : AccessParams)
  | access (p : AccessParams) (oneAttempt : Bool)
  | writeRegister (node : Nat) (reg : Byte) (value mask : Word) (expect : ExpectArg) (timeout : Nat) (statusOut : Bool)
  | readRegister (node : Nat) (reg : Byte) (expect : ExpectArg) (timeout : Nat) (statusOut valueOut : Bool)
  | sendCommand (node : Nat) (text : List Byte) (expect : ExpectArg) (timeout : Nat) (statusOut : Bool)
  | scan (listOut : Bool) (capacity : Nat)
  | initMaster (lineParams : List Byte) (maxAttempts sequenceCeiling : Nat)
  | initSlave (process write read : Callback)
  | deinitMaster
  | deinitSlave
  | slaveWrite (text : List Byte) (pos : Nat)
  | slaveRead (text : List Byte) (pos : Nat)
deriving DecidableEq, Repr

end Sys2Proof
end

