-- ==== Sys2Proof/Machine/Operands.lean ====
section
/-! DEFINITION. The operand forms of the protocol as pure functions: hexadecimal fields (R160, R161), the external
tokenizer's two functions (R170, R171), the outgoing frames (R164 to R166), the identity-value fields (R242), the kinds of lines
(R119) and the parameter domains (R10). -/

namespace Sys2Proof.Machine

/-- Byte `k` of a 32-bit value, byte 3 the most significant (R13). -/
def byteOf (v : Word) (k : Nat) : Byte := v.extractLsb' (8 * k) 8

/-- HEXDIGIT of R161: `0` to `9`, then the upper-case `A` to `F`. -/
def hexDigit (n : BitVec 4) : Byte :=
  if n.toNat ≤ 9 then BitVec.ofNat 8 (0x30 + n.toNat) else BitVec.ofNat 8 (0x41 + n.toNat - 10)

/-- One byte as a two-hex-digit token, high nibble first (R74). -/
def hexToken (b : Byte) : List Byte := [hexDigit (b.extractLsb' 4 4), hexDigit (b.extractLsb' 0 4)]

/-- The loop of R160 over bytes `k - 1` down to 0; `started` says whether a non-zero byte was already met. -/
def minhexFrom (v : Word) : Nat → Bool → List Byte
  | 0, _ => []
  | k + 1, started =>
    let now := started || byteOf v k != 0
    (if now then hexToken (byteOf v k) else []) ++ minhexFrom v k now

/-- ENCODE_MINHEX(v, W) of R160, on the operands the rule admits. -/
def minhex (v : Word) (w : Nat) : List Byte :=
  let out := minhexFrom v w false
  if out.isEmpty then [0x30#8, 0x30#8] else out

/-- The operands R160 admits: a width of 1 to 4 bytes and a value that fits it. -/
def minhexDomain (v : Word) (w : Nat) : Bool := decide (1 ≤ w) && decide (w ≤ 4) && decide (v.toNat < 2 ^ (8 * w))

/-- ENCODE_MINHEX on any operands. Outside the domain R160 states no text: it is a free value
(DESIGN CHOICE, notes/assumptions/11.md). -/
def minhexText (v : Word) (w : Nat) : List Byte := if minhexDomain v w then minhex v w else Config.freeMinhex v w

/-- The value of a hexadecimal digit of either case, `none` for any other byte. -/
def digitValue (b : Byte) : Option Nat :=
  let n := b.toNat
  if 0x30 ≤ n ∧ n ≤ 0x39 then some (n - 0x30)
  else if 0x41 ≤ n ∧ n ≤ 0x46 then some (n - 0x41 + 10)
  else if 0x61 ≤ n ∧ n ≤ 0x66 then some (n - 0x61 + 10)
  else none

/-- The digits of a field read as a big-endian hexadecimal number after the digits read so far;
`none` when a byte is no digit. -/
def hexNumber : Nat → List Byte → Option Nat
  | acc, [] => some acc
  | acc, b :: rest =>
    match digitValue b with
    | some d => hexNumber (16 * acc + d) rest
    | none => none

/-- A field of hexadecimal digits with at least one of them, the fields contract (c) and (d) of R170 admit. -/
def isHexField (f : List Byte) : Bool := !f.isEmpty && (hexNumber 0 f).isSome

/-- The number a field of digits stands for, narrowed to 32 bits. -/
def fieldNumber (f : List Byte) : Word := BitVec.ofNat 32 ((hexNumber 0 f).getD 0)

/-- What a tokenizer makes of the bytes of one field (R170): the reference instance accepts 1 to 8 digits of either
case; any other instance is bound to contract (a), (c) and (d), and the rest is free. -/
def decodeText (t : Tokenizer) (f : List Byte) : Option Word :=
  if isHexField f then
    match t with
    | .reference => if f.length ≤ 8 then some (fieldNumber f) else none
    | .other k => if minhex (fieldNumber f) 4 = f then some (fieldNumber f) else Config.freeDecode k f
  else none

/-- DecodeField of R170: the value and the offset after the field, `none` for `parse_error`. An offset past the end of
the text has no separator after it and an empty field, so it is a `parse_error` as well. -/
def decodeField (p : Params) (text : List Byte) (pos : Nat) : Terminator → Option (Word × Nat)
  | .separator =>
    let rest := text.drop pos
    let field := rest.takeWhile (· != p.separator)
    if rest.contains p.separator then (decodeText p.tokenizer field).map (fun v => (v, pos + field.length + 1)) else none
  | .endOfLine => (decodeText p.tokenizer (text.drop pos)).map (fun v => (v, text.length))

/-- `Decode(line)`, the master's use of the tokenizer (R170). -/
def decodeLineValue (p : Params) (line : List Byte) : Option Word :=
  (decodeField p line 0 .endOfLine).map Prod.fst

/-- An ASCII letter in lower case; every other byte as it is. -/
def foldCase (b : Byte) : Byte := if 0x41 ≤ b.toNat ∧ b.toNat ≤ 0x5A then b + 0x20#8 else b

/-- Whether tokenizer `t`, asked in the mode `mode`, takes two byte strings for the same text: byte for byte in the reference
instance (R171). For any other instance the spec leaves case folding open (D21, I17): texts that differ in letter case only
are a free value, which may differ from one mode to the other (notes/assumptions/12.md). -/
def sameText (t : Tokenizer) (mode : CompareMode) (x y : List Byte) : Bool :=
  if x = y then true
  else match t with
    | .reference => false
    | .other k => if x.map foldCase = y.map foldCase then Config.freeCaseMatch k mode x y else false

/-- Compare(line, mode, literal) of R171. -/
def compareText (t : Tokenizer) (line : List Byte) : CompareMode → List Byte → Bool
  | .exact, literal => sameText t .exact line literal
  | .header, literal => decide (literal.length ≤ line.length) && sameText t .header (line.take literal.length) literal

/-- A text that can be framed as a generic command: no end marker and no NUL in it (R104, R164). -/
def framable (p : Params) (text : List Byte) : Bool := text.all (fun b => b != p.endMarker && b != nul)

/-- BUILD_GENERIC of R164. -/
def genericFrame (p : Params) (text : List Byte) : List Byte := text ++ [p.endMarker]

/-- BUILD_WRITE of R165. -/
def writeFrame (p : Params) (reg : Byte) (value mask : Word) : List Byte :=
  p.writePrefix ++ minhex (reg.setWidth 32) 1 ++ [p.separator] ++ minhex value 4
    ++ (if mask = allBits then [] else p.separator :: minhex mask 4) ++ [p.endMarker]

/-- BUILD_READ of R166. -/
def readFrame (p : Params) (reg : Byte) : List Byte :=
  p.readPrefix ++ minhex (reg.setWidth 32) 1 ++ [p.endMarker]

/-- The frame of the latched operation (R184). -/
def frameOf (p : Params) (a : AccessParams) : List Byte :=
  match a.op with
  | .write => writeFrame p a.reg a.value a.mask
  | .read => readFrame p a.reg
  | .generic => genericFrame p a.text

/-- The latched operation has a frame that can be built: it fits the transmit buffer (R78) and a generic text is
framable (R164). -/
def frameFits (p : Params) (a : AccessParams) : Bool :=
  decide ((frameOf p a).length ≤ p.txCapacity) && (a.op != .generic || framable p a.text)

/-- An access that can be made: its frame can be built, and its node is a node address (R21, R71, I13). -/
def accessFits (p : Params) (a : AccessParams) : Bool := frameFits p a && decide (a.node ≤ p.lastValidAddress)

/-- `ID_ADDR_FIELD(v)` or `ID_BOARD_FIELD(v)` (R10, R242). -/
def idField : IdField → Word → Nat
  | .bits lo width, v => v.toNat / 2 ^ lo % 2 ^ width
  | .other k, v => Config.freeIdField k v

/-- The parameters of one probe of a scan (R240). A read uses neither `value`, `mask` nor `text`; the model puts zero and the
empty text there (DESIGN CHOICE, notes/assumptions/30.md). -/
def probeParams (p : Params) (addr : Nat) : AccessParams where
  op := .read
  node := addr
  reg := p.nodeIdReg
  expectation := .value
  timeout := p.scanTimeout
  value := 0
  mask := 0
  text := []

end Sys2Proof.Machine

namespace Sys2Proof

open Sys2Proof.Machine

/-! ### Kinds of lines, and the parameters an instance can have -/

/-- No byte of the text is the end marker, so that it is the inside of one line (R101). -/
def insideOfLine (p : Params) (text : List Byte) : Bool := text.all (· != p.endMarker)

/-- The text is one the master takes for a reply of a named kind when no expectation is in mind: OK, VALUE or ERROR (R119). -/
def isReplyText (p : Params) (text : List Byte) : Bool :=
  decide (text = p.okToken) || (decodeText p.tokenizer text).isSome || p.errorToken.isPrefixOf text

/-- The text opens with one of the two built-in command prefixes (R119). -/
def isBuiltinText (p : Params) (text : List Byte) : Bool :=
  p.writePrefix.isPrefixOf text || p.readPrefix.isPrefixOf text

/-- The text is one a GENERIC frame can carry (R104, R78). -/
def isGenericText (p : Params) (text : List Byte) : Bool :=
  !isBuiltinText p text && framable p text && decide (text.length + 1 ≤ p.txCapacity)

/-- The literals can be told apart: no prefix or token holds an end marker, neither command prefix opens the other, the
success and error tokens are no numbers and the error token does not open the success token (R116, R119, R294). -/
def Params.literalsDistinct (p : Params) : Bool :=
  insideOfLine p p.writePrefix && insideOfLine p p.readPrefix && insideOfLine p p.okToken && insideOfLine p p.errorToken
    && !p.writePrefix.isPrefixOf p.readPrefix && !p.readPrefix.isPrefixOf p.writePrefix
    && !(hexNumber 0 p.okToken).isSome && !(hexNumber 0 p.errorToken).isSome
    && !p.errorToken.isPrefixOf p.okToken

/-- The domain of R10, the same for both roles (D5, D34). Every other row has a domain that each value of its type meets. -/
def Params.inDomain (p : Params) : Bool :=
  decide (2 ≤ p.depth) && decide (2 ≤ p.slotCapacity) && decide (1 ≤ p.pollInterval) && decide (1 ≤ p.turnaroundDelay)
    && decide (26 ≤ p.txCapacity)

end Sys2Proof
end

