-- ==== Sys2Proof/WellFormed.lean ====
section
/-! DEFINITION. The operand domains of the operations (the "Operands" of each rule): `Instr.wf p i` holds when the
operands of `i` are possible operands in an instance with the parameters `p`. -/

namespace Sys2Proof

open Sys2Proof.Machine

/-- The operands are in the domain the rule of the operation gives them. -/
def Instr.wf (p : Params) : Instr → Bool
  | .write body => insideOfLine p body
  | .read body => insideOfLine p body
  | .generic text => isGenericText p text
  | .ok => true
  | .error rest => insideOfLine p rest
  | .value text => insideOfLine p text && (decodeText p.tokenizer text).isSome
  | .noise text => insideOfLine p text && (!isReplyText p text || !(isBuiltinText p text || isGenericText p text))
  | .pushByte _ => true
  | .hasPending => true
  | .flush i => decide (i < p.depth)
  | .flushAll => true
  | .encodeMinhex v w => minhexDomain v w
  | .buildGeneric text => framable p text && decide (text.length + 1 ≤ p.txCapacity)
  | .buildWrite r v m => decide ((writeFrame p r v m).length ≤ p.txCapacity)
  | .buildRead r => decide ((readFrame p r).length ≤ p.txCapacity)
  | .decode text pos _ => decide (pos ≤ text.length)
  | .compare _ _ _ => true
  | .attempt a => accessFits p a
  | .access a _ => accessFits p a
  | .writeRegister _ _ _ _ _ _ _ => true
  | .readRegister _ _ _ _ _ _ => true
  | .sendCommand _ _ _ _ _ => true
  | .scan _ _ => true
  | .initMaster _ _ _ => true
  | .initSlave _ _ _ => true
  | .deinitMaster => true
  | .deinitSlave => true
  | .slaveWrite text pos => insideOfLine p text && decide (pos ≤ text.length)
  | .slaveRead text pos => insideOfLine p text && decide (pos ≤ text.length)

end Sys2Proof
end

