-- ==== Sys2Proof/Decode.lean ====
section
/-! DEFINITION. Recognising a line (R101, R119) and the encoder of the wire operations (R102 to R112). The other
operations have no encoding: the host and the dispatcher invoke them with named operands (R100). -/

namespace Sys2Proof

open Sys2Proof.Machine

/-- The two ways R119 tells the kind of a line: as the slave side does, or as the master side does. -/
inductive Side where
  | command
  | reply
deriving DecidableEq, Repr

/-- A receiver decides the kind of a line by its own role (R119). -/
def sideOf : Role → Side
  | .master => .reply
  | .slave => .command

/-- Why a byte string is no line (R101). -/
inductive DecodeError where
  /-- no byte at all -/
  | empty
  /-- the last byte is not the end marker -/
  | noEndMarker
  /-- an end marker stands before the last byte: more than one line -/
  | endMarkerInside
deriving DecidableEq, Repr

/-- The bytes of one line without its end marker (R101, R115). -/
def lineBody (p : Params) (bytes : List Byte) : Except DecodeError (List Byte) :=
  match bytes.getLast? with
  | none => .error .empty
  | some b =>
    if b != p.endMarker then .error .noEndMarker
    else if insideOfLine p bytes.dropLast then .ok bytes.dropLast
    else .error .endMarkerInside

/-- The kind of a command line, the slave side of R119. -/
def commandKind (p : Params) (body : List Byte) : Instr :=
  if p.writePrefix.isPrefixOf body then .write (body.drop p.writePrefix.length)
  else if p.readPrefix.isPrefixOf body then .read (body.drop p.readPrefix.length)
  else if isGenericText p body then .generic body
  else .noise body

/-- The kind of a reply line with no expectation in mind, the master side of R119. -/
def replyKind (p : Params) (body : List Byte) : Instr :=
  if body = p.okToken then .ok
  else if (decodeText p.tokenizer body).isSome then .value body
  else if p.errorToken.isPrefixOf body then .error (body.drop p.errorToken.length)
  else .noise body

/-- The decoder: the operation a line stands for, or the name of what keeps it from being a line. -/
def decodeLine (p : Params) (side : Side) (bytes : List Byte) : Except DecodeError Instr :=
  match lineBody p bytes with
  | .error e => .error e
  | .ok body => .ok (match side with
    | .command => commandKind p body
    | .reply => replyKind p body)

/-- The bytes of a wire operation's line without the end marker, `none` for an operation that is no line. -/
def lineText (p : Params) : Instr → Option (List Byte)
  | .write body => some (p.writePrefix ++ body)
  | .read body => some (p.readPrefix ++ body)
  | .generic text => some text
  | .ok => some p.okToken
  | .error rest => some (p.errorToken ++ rest)
  | .value text => some text
  | .noise text => some text
  | .pushByte _ | .hasPending | .flush _ | .flushAll | .encodeMinhex _ _ | .buildGeneric _ | .buildWrite _ _ _
  | .buildRead _ | .decode _ _ _ | .compare _ _ _ | .attempt _ | .access _ _ | .writeRegister _ _ _ _ _ _ _
  | .readRegister _ _ _ _ _ _ | .sendCommand _ _ _ _ _ | .scan _ _ | .initMaster _ _ _ | .initSlave _ _ _
  | .deinitMaster | .deinitSlave | .slaveWrite _ _ | .slaveRead _ _ => none

/-- The encoder: the line of a wire operation, `none` for an operation without an encoding. -/
def encode (p : Params) (i : Instr) : Option (List Byte) := (lineText p i).map (· ++ [p.endMarker])

/-- The side that recognises the line of a wire operation. A noise line that reads as a reply is a noise line of the
slave side only. -/
def wireSide (p : Params) : Instr → Side
  | .write _ | .read _ | .generic _ => .command
  | .noise text => if isReplyText p text then .command else .reply
  | .ok | .error _ | .value _ => .reply
  | .pushByte _ | .hasPending | .flush _ | .flushAll | .encodeMinhex _ _ | .buildGeneric _ | .buildWrite _ _ _
  | .buildRead _ | .decode _ _ _ | .compare _ _ _ | .attempt _ | .access _ _ | .writeRegister _ _ _ _ _ _ _
  | .readRegister _ _ _ _ _ _ | .sendCommand _ _ _ _ _ | .scan _ _ | .initMaster _ _ _ | .initSlave _ _ _
  | .deinitMaster | .deinitSlave | .slaveWrite _ _ | .slaveRead _ _ => .reply

/-- The `n` low bytes of a number, most significant first: the line order of spec/opcode_table.json's patterns. -/
def bytesOfWord : Nat → Nat → List Byte
  | 0, _ => []
  | n + 1, w => BitVec.ofNat 8 (w / 2 ^ (8 * n)) :: bytesOfWord n w

/-- The line a table row's bits stand for. The bytes above the row's bits are zero, and a stored line ends at its first
NUL (R15): the line is the bytes before it, closed by the end marker where the row's bits do not hold one. -/
def tableLine (p : Params) (nbits w : Nat) : List Byte :=
  let stored := (bytesOfWord (nbits / 8) w).takeWhile (· != nul)
  if stored.getLast? = some p.endMarker then stored else stored ++ [p.endMarker]

/-- The side a table row's line is read by: the slave side when it opens with a built-in prefix. -/
def tableSide (p : Params) (nbits w : Nat) : Side :=
  if isBuiltinText p (tableLine p nbits w) then .command else .reply

/-- What the decoder reads from a table row's bits, with the literals of the test configuration. -/
def decodeTableWord (nbits w : Nat) : Option Instr :=
  match decodeLine (Params.reference .master) (tableSide (Params.reference .master) nbits w)
      (tableLine (Params.reference .master) nbits w) with
  | .ok i => some i
  | .error _ => none

end Sys2Proof
end

