-- ==== Sys2Proof/Machine/State.lean ====
section
/-! DEFINITION. The architectural state of one block instance (spec/10_state.md R20 to R49), what its environment and host
hand it and get from it (R50, R51), and its state after reset (R55). -/

namespace Sys2Proof.Machine

/-- The slot byte store (R26) as address and byte pairs in the canonical form of `Memory.wf` (Ops.lean). Byte `j` of slot
`i` has the address `i * SLOT_CAPACITY + j`. -/
abbrev Memory := List Host.Cell

/-- One slot of the ring buffer without its bytes (R25 to R29). -/
structure Slot where
  len      : Nat
  complete : Bool
  cursor   : Nat
deriving DecidableEq, Repr

/-- The reply ring buffer (R25 to R32). -/
structure Ring where
  slots       : List Slot
  mem         : Memory
  writeCursor : Nat
  readCursor  : Nat
deriving DecidableEq, Repr

/-- The access status, four booleans in the order of R39. -/
structure Status where
  replyTimeout    : Bool
  sequenceTimeout : Bool
  parserError     : Bool
  remoteError     : Bool
deriving DecidableEq, Repr

/-- `fsm`, the state register of the master access state machine (R33). -/
inductive Fsm where
  | idle
  | sending
  | awaitingReply
  | classifying
  | success
  | retry
  | exhausted
deriving DecidableEq, Repr

/-- The operation on whose behalf the access machine runs, so that a wait can go on in a later step. `none` between
operations. `access` keeps its `one_attempt` argument (R201), `scan` its capacity (R240). -/
inductive Caller where
  | none
  | attempt
  | access (oneAttempt : Bool)
  | writeRegister
  | readRegister
  | sendCommand
  | scan (capacity : Nat)
deriving DecidableEq, Repr

/-- The master access sequencer (R33 to R43). -/
structure Sequencer where
  fsm        : Fsm
  attempt    : Nat
  replyTimer : Nat
  seqTimer   : Nat
  linesSeen  : Nat
  latch      : AccessParams
  caller     : Caller
  status     : Status
  rxValue    : Word
  rxEnabled  : Bool
  txFrame    : List Byte
  scanAddr   : Nat
  found      : Nat
deriving DecidableEq, Repr

/-- The configuration registers INIT writes (R49). -/
structure Cfg where
  lineParams      : List Byte
  maxAttempts     : Nat
  sequenceCeiling : Nat
deriving DecidableEq, Repr

/-- The slave turnaround controller and handlers (R45 to R48). -/
structure Turnaround where
  cbProcess          : Callback
  cbWrite            : Callback
  cbRead             : Callback
  turnaround         : Bool
  replyPayload       : List Byte
  handlersRegistered : Bool
deriving DecidableEq, Repr

/-- A node descriptor (R22). -/
structure Descriptor where
  address : Nat
  boardId : Nat
deriving DecidableEq, Repr

/-- The host's output places (R202, R203, R240). A place that an operation does not write keeps what it held. -/
structure Places where
  status : Status
  value  : Word
  found  : Nat
  list   : List Descriptor
deriving DecidableEq, Repr

/-- One capability of the transport (R280); `configure` stands for handing over `line_params` at INIT (R250). -/
inductive TxCall where
  | configure (lineParams : List Byte)
  | setDestination (node : Nat)
  | sendFrame (frame : List Byte)
  | enableReceive
  | disableReceive
deriving DecidableEq, Repr

/-- What the block does toward its environment, and the two notions that last only inside a step (`fsm` changes and the
turnaround flag). -/
inductive Event where
  /-- a transport capability was invoked, with its result (true for `ok`) -/
  | tx (call : TxCall) (ok : Bool)
  /-- `Tx.on_byte_received(PUSH_BYTE)` (R250) -/
  | connectProducer
  /-- `Delay(n)` (R278) -/
  | delay (n : Nat)
  /-- `fsm` was written (R180) -/
  | fsm (f : Fsm)
  /-- the turnaround flag was written (R221) -/
  | turnaround (on : Bool)
  /-- a handler was registered in the external command table under this literal (R251) -/
  | registerHandler (literal : List Byte)
  /-- the two handlers were unregistered (R253) -/
  | unregisterHandlers
  /-- the write-register callback was invoked (R222) -/
  | cbWrite (callback : Nat) (reg : Byte) (value mask : Word) (ok : Bool)
  /-- the read-register callback was invoked (R222) -/
  | cbRead (callback : Nat) (reg : Byte) (result : Option Word)
  /-- `SendReply(payload)` was signalled to the dispatcher (R228) -/
  | sendReply (payload : List Byte)
  /-- the dispatcher put this line on the bus (R227, D25) -/
  | dispatcherLine (bytes : List Byte)
  /-- the dispatcher put a line that begins with the error token on the bus, its rest unspecified (R227, D25) -/
  | dispatcherErrorLine
deriving DecidableEq, Repr

/-- The result of a call (R260). -/
inductive CallResult where
  | callSuccess
  | callerError
  | transportError
deriving DecidableEq, Repr

/-- What a handler returns to the dispatcher (R220). -/
inductive HandlerResult where
  | success
  | commandExecutionError
deriving DecidableEq, Repr

/-- What the last operation returned to its invoker. -/
inductive Ret where
  /-- no operation has returned yet -/
  | nothing
  /-- an operation is under way: its access waits inside a Delay -/
  | pending
  /-- an operation without a result returned -/
  | done
  /-- HAS_PENDING (R146) and COMPARE (R171) -/
  | flag (b : Bool)
  /-- ENCODE_MINHEX (R160) -/
  | bytes (bs : List Byte)
  /-- DECODE (R170): the value and the next offset, `none` for `parse_error` -/
  | field (result : Option (Word × Nat))
  /-- ATTEMPT: the status it ended with (R182 to R197) -/
  | attempt (status : Status)
  /-- ACCESS (R201) -/
  | access (result : CallResult) (status : Status) (rxValue : Word)
  /-- a host operation; its outputs stand in the host's places -/
  | call (result : CallResult)
  /-- a slave handler -/
  | handler (result : HandlerResult)
deriving DecidableEq, Repr

/-- What the outside does next: the host or the dispatcher invokes an operation, or a line travels on the bus, whose kind
the receiver decides by its own role (R119). -/
inductive Input where
  | call (i : Instr)
  | line (bytes : List Byte)
deriving DecidableEq, Repr

/-- The environment (R50, R51): what it will do, as far as that is settled, and what the transport remembers.
A list that has run out leaves the matter open: transport and callback results are then free values, and a Delay has not
ended yet. -/
structure Env where
  /-- the operations and lines still to come, first one first -/
  inputs         : List Input
  /-- the bytes delivered in each of the coming Delays of the master (R278) -/
  deliveries     : List (List Byte)
  /-- the results of the coming transport calls, true for `ok` (I20) -/
  txResults      : List Bool
  /-- the results of the coming invocations of the write-register callback (I21) -/
  cbWriteResults : List Bool
  /-- the results of the coming invocations of the read-register callback (I21) -/
  cbReadResults  : List (Option Word)
  /-- how many free values have been used -/
  freeCount      : Nat
  /-- the destination address latched in the transport (R51 (b)) -/
  txDest         : Nat
deriving DecidableEq, Repr

/-- The state of one instance. The elements of the other role are inert (R20, R274). -/
structure State where
  params      : Params
  cfg         : Cfg
  initialized : Bool
  ring        : Ring
  seq         : Sequencer
  slave       : Turnaround
  host        : Places
  env         : Env
  events      : List Event
  ret         : Ret
deriving DecidableEq, Repr

/-- The situations the spec gives no meaning (R265). A run ends in them. -/
inductive Fault where
  /-- PUSH_BYTE: a line does not fit its slot (R143). Raised by every operation in whose Delay the byte arrives. Safe. -/
  | slotOverflow
  /-- An operation outside the lifecycle window, or INIT inside it (R255). Safe. -/
  | lifecycleViolation
deriving DecidableEq, Repr

/-- Why an operation has no step here. -/
inductive Refusal where
  /-- no meaning written yet (no arm of `exec` uses it). Safe. -/
  | notModelled (mnemonic : String)
  /-- the operation belongs to the other role, so this instance does not have it (R274). Raised by every operation of one
  role. Safe. -/
  | otherRole
  /-- an operation of the foreground task while another one is under way, which the spec places outside the source (R308,
  R181, A1). Raised by the operations that run an access and by DEINIT_MASTER. Safe. -/
  | operationInProgress
  /-- FLUSH of an index outside `0 .. DEPTH-1`, which R148 calls no possible operand. Safe. -/
  | noSuchSlot
  /-- the bytes of an input are no line (R101). Raised by the fetch. Safe. -/
  | undecodable (reason : DecodeError)
deriving DecidableEq, Repr

/-- The answer of a step or of an operation. -/
abbrev Answer := Host.Outcome State Fault Refusal

/-- An empty slot (R55). -/
def Slot.empty : Slot := ⟨0, false, 0⟩

/-- The all-zero status, which means success (R39). -/
def Status.zero : Status := ⟨false, false, false, false⟩

/-- The value the model names for a latch that holds no access (R38: "transient, constructed per call"). -/
def AccessParams.cleared : AccessParams := ⟨.write, 0, 0, .none, 0, 0, 0, []⟩

/-- The ring buffer after INIT (R55), its bytes unwritten. -/
def Ring.init (depth : Nat) : Ring := ⟨List.replicate depth Slot.empty, [], 0, 0⟩

/-- The sequencer after INIT (R55); the elements R55 calls unspecified hold zero (notes/assumptions/1.md). -/
def Sequencer.init : Sequencer where
  fsm := .idle
  attempt := 0
  replyTimer := 0
  seqTimer := 0
  linesSeen := 0
  latch := AccessParams.cleared
  caller := .none
  status := Status.zero
  rxValue := 0
  rxEnabled := false
  txFrame := []
  scanAddr := 0
  found := 0

/-- The slave controller before INIT and in a master instance (R55). -/
def Turnaround.init : Turnaround := ⟨none, none, none, false, [], false⟩

/-- An environment of which nothing is settled. The address the transport holds before the first call is 0
(DESIGN CHOICE, notes/assumptions/29.md). -/
def Env.unsettled : Env := ⟨[], [], [], [], [], 0, 0⟩

/-- An instance built with the parameters `p` before its first INIT: `initialized` is 0 and nothing else is defined
(R290); the elements without a value hold the ones of notes/assumptions/1.md. -/
def State.built (p : Params) : State where
  params := p
  cfg := ⟨[], 0, 0⟩
  initialized := false
  ring := Ring.init p.depth
  seq := Sequencer.init
  slave := Turnaround.init
  host := ⟨Status.zero, 0, 0, []⟩
  env := Env.unsettled
  events := []
  ret := .nothing

/-- A master instance after INIT_MASTER (R55). -/
def State.afterInitMaster (p : Params) (c : Cfg) : State := { State.built p with cfg := c, initialized := true }

/-- A slave instance after INIT_SLAVE (R55). -/
def State.afterInitSlave (p : Params) (process write read : Callback) : State :=
  { State.built p with
    initialized := true
    slave := ⟨process, write, read, false, [], true⟩ }

/-- The machine after reset: a master instance of the test configuration T after
`INIT_MASTER max_attempts=3 sequence_ceiling=1000` (R55, R290; notes/assumptions/2.md). -/
def State.reset : State := State.afterInitMaster (Params.reference .master) ⟨[], 3, 1000⟩

end Sys2Proof.Machine
end

