-- ==== Sys2Proof/Machine/Ops.lean ====
section
/-! DEFINITION. The named operations over the slot bytes, the ring buffer, the transport and the result, the guards every
operation passes, and the ways an operation fails (spec/60_exceptions.md R260 to R273). -/

namespace Sys2Proof.Machine

/-! ### The slot byte store -/

/-- One byte of the store. A byte nothing has written reads as zero (notes/assumptions/5.md). -/
def Memory.read : Memory → Nat → Byte
  | [], _ => 0
  | (x, y) :: m, a => if x = a then y else Memory.read m a

/-- Writes one byte and keeps the canonical form: a zero is not listed. -/
def Memory.write : Memory → Nat → Byte → Memory
  | [], a, b => if b = 0 then [] else [(a, b)]
  | (x, y) :: m, a, b =>
    if a < x then (if b = 0 then (x, y) :: m else (a, b) :: (x, y) :: m)
    else if a = x then (if b = 0 then m else (a, b) :: m)
    else (x, y) :: Memory.write m a b

/-- The entries from address `lo` up stand in strictly rising order and none of them is zero. -/
def Memory.wfFrom : Nat → Memory → Bool
  | _, [] => true
  | lo, (a, b) :: m => decide (lo ≤ a) && b != 0 && Memory.wfFrom (a + 1) m

/-- The canonical form: addresses strictly rising, no entry equal to what an unlisted address reads as. -/
def Memory.wf (m : Memory) : Bool := Memory.wfFrom 0 m

/-- The bytes from address `a` up to the first NUL, at most `n` of them. -/
def Memory.text (m : Memory) : Nat → Nat → List Byte
  | _, 0 => []
  | a, n + 1 => if Memory.read m a = nul then [] else Memory.read m a :: Memory.text m (a + 1) n

/-! ### The ring buffer (40_ring_buffer.md) -/

/-- The address of byte `j` of slot `i`. -/
def slotByte (p : Params) (i j : Nat) : Nat := i * p.slotCapacity + j

/-- `SLOT[i]`. -/
def Ring.slot (r : Ring) (i : Nat) : Slot := r.slots.getD i Slot.empty

/-- FLUSH(i) of R148: length, flag and cursor cleared, the bytes and both ring cursors left. -/
def Ring.flush (r : Ring) (i : Nat) : Ring := { r with slots := r.slots.set i Slot.empty }

/-- FLUSH_ALL of R149. -/
def Ring.flushAll (r : Ring) : Ring := { r with slots := r.slots.map (fun _ => Slot.empty) }

/-- The flush before a send (R183). -/
def Ring.resync (r : Ring) : Ring := { r.flushAll with readCursor := r.writeCursor }

/-- HAS_PENDING of R146. -/
def Ring.hasPending (r : Ring) : Bool := r.writeCursor != r.readCursor

/-- The discard of R193: the slot at the read cursor is flushed and the cursor steps on. -/
def Ring.discard (p : Params) (r : Ring) : Ring :=
  { r.flush r.readCursor with readCursor := (r.readCursor + 1) % p.depth }

/-- `Line(i)` of R15. -/
def Ring.line (p : Params) (r : Ring) (i : Nat) : List Byte := Memory.text r.mem (slotByte p i 0) p.slotCapacity

/-- The slot PUSH_BYTE works on: a complete one is first reset as FLUSH would (R144). -/
def Ring.target (r : Ring) : Slot :=
  if (r.slot r.writeCursor).complete then Slot.empty else r.slot r.writeCursor

/-- PUSH_BYTE of R145; `none` where the byte has no place in the slot (R143). -/
def Ring.push (p : Params) (r : Ring) (b : Byte) : Option Ring :=
  let t := r.target
  let at_ := slotByte p r.writeCursor t.len
  if b = p.endMarker then
    if p.slotCapacity ≤ t.len then none
    else some
      { slots := r.slots.set r.writeCursor { t with complete := true }
        mem := Memory.write r.mem at_ nul
        writeCursor := (r.writeCursor + 1) % p.depth
        readCursor := r.readCursor }
  else if p.slotCapacity ≤ t.len + 1 then none
  else some
    { slots := r.slots.set r.writeCursor { t with len := t.len + 1 }
      mem := Memory.write r.mem at_ b
      writeCursor := r.writeCursor
      readCursor := r.readCursor }

/-- PUSH_BYTE of each byte in order (R84). -/
def Ring.pushAll (p : Params) (r : Ring) : List Byte → Option Ring
  | [] => some r
  | b :: bs =>
    match r.push p b with
    | some r' => r'.pushAll p bs
    | none => none

/-! ### Events, the state register, results -/

/-- Records an event; the newest stands first. -/
def State.emit (s : State) (e : Event) : State := { s with events := e :: s.events }

/-- `fsm <- f` (R180). -/
def State.goto (s : State) (f : Fsm) : State :=
  { s with seq := { s.seq with fsm := f }, events := .fsm f :: s.events }

/-- The operation returns `r` to its invoker. -/
def State.returns (s : State) (r : Ret) : State := { s with ret := r }

/-- The operation under way is over and returns `r`. -/
def State.finish (s : State) (r : Ret) : State :=
  { s with seq := { s.seq with caller := .none }, ret := r }

/-! ### The transport (R280) and the bytes it delivers -/

/-- The result of the next transport call: settled in advance, or free (I20). -/
def Env.takeTx (e : Env) : Bool × Env :=
  match e.txResults with
  | b :: rest => (b, { e with txResults := rest })
  | [] => (Config.freeTransport e.freeCount, { e with freeCount := e.freeCount + 1 })

/-- What the transport remembers of a call that succeeded: the destination address (R51 (b)). -/
def Env.latchDest (e : Env) (c : TxCall) (ok : Bool) : Env :=
  match c with
  | .setDestination a => if ok then { e with txDest := a } else e
  | .configure _ | .sendFrame _ | .enableReceive | .disableReceive => e

/-- `Tx.f(...)` of R14: the result, and the state after the call. -/
def State.transport (s : State) (c : TxCall) : Bool × State :=
  let r := s.env.takeTx
  (r.1, { s with env := r.2.latchDest c r.1, events := .tx c r.1 :: s.events })

/-- The transport hands over bytes, one PUSH_BYTE each; while the receiver is disabled it drops them (R82). -/
def State.deliver (s : State) (bytes : List Byte) : Answer :=
  if s.seq.rxEnabled then
    match s.ring.pushAll s.params bytes with
    | some r => .next { s with ring := r }
    | none => .fault .slotOverflow
  else .next s

/-! ### Failing (R260 to R264): the block has no trap; a failure is a value that is returned -/

/-- `raise CallerError` (R262): nothing changes but the returned value. -/
def State.callerError (s : State) : State := s.returns (.call .callerError)

/-- `raise TransportError` inside an attempt (R205): the receiver is disabled unless that very call failed, its result
ignored; the machine goes to Idle and the outputs are not written. -/
def State.abortAccess (s : State) (disable : Bool) : State :=
  let t := if disable then (s.transport .disableReceive).2 else s
  ({ t with seq := { t.seq with rxEnabled := false } }.goto .idle).finish (.call .transportError)

/-! ### Guards -/

/-- An operation of the master role: refused in a slave instance (R274), a fault outside the window (R255). -/
def State.asMaster (s : State) (k : Answer) : Answer :=
  if s.params.role = .master then
    if s.initialized then k else .fault .lifecycleViolation
  else .refused .otherRole

/-- An operation of the slave role. -/
def State.asSlave (s : State) (k : Answer) : Answer :=
  if s.params.role = .slave then
    if s.initialized then k else .fault .lifecycleViolation
  else .refused .otherRole

/-- An operation of both roles. -/
def State.asEither (s : State) (k : Answer) : Answer :=
  if s.initialized then k else .fault .lifecycleViolation

/-- An operation of the foreground task that starts or needs an idle machine (R181, R308). -/
def State.whenIdle (s : State) (k : Answer) : Answer :=
  if s.seq.fsm = .idle then k else .refused .operationInProgress

end Sys2Proof.Machine
end

