-- ==== Sys2Proof/Machine/Flags.lean ====
section
/-! DEFINITION. The status flags of an access: how a line is classified (R190, R191, R193) and which bit a failing exit
sets (R191, R195, R196, R261). -/

namespace Sys2Proof.Machine

/-- All-zero means success (R39). -/
def Status.isZero (st : Status) : Bool := decide (st = Status.zero)

/-- The packed form: bit 0 `reply_timeout` to bit 3 `remote_error` (R39, R261, D15). -/
def Status.packed (st : Status) : BitVec 4 :=
  BitVec.ofBool st.remoteError ++ BitVec.ofBool st.parserError ++ BitVec.ofBool st.sequenceTimeout
    ++ BitVec.ofBool st.replyTimeout

def Status.replyTimedOut : Status := { Status.zero with replyTimeout := true }
def Status.sequenceTimedOut : Status := { Status.zero with sequenceTimeout := true }
def Status.parserRejected : Status := { Status.zero with parserError := true }
def Status.remoteReported : Status := { Status.zero with remoteError := true }

/-- What the classifier makes of a complete line. -/
inductive Verdict where
  | acceptOk
  | acceptValue (v : Word)
  | errorReport
  | noise
deriving DecidableEq, Repr

/-- The error test, made only when the expected-kind test failed (R191), else noise (R193). -/
def classifyError (p : Params) (line : List Byte) : Verdict :=
  if compareText p.tokenizer line .header p.errorToken then .errorReport else .noise

/-- The classification of a complete line: expected kind, then error, then noise (R190, R191, R193, R270). -/
def classify (p : Params) (e : Expectation) (line : List Byte) : Verdict :=
  match e with
  | .ok => if compareText p.tokenizer line .exact p.okToken then .acceptOk else classifyError p line
  | .value =>
    match decodeLineValue p line with
    | some v => .acceptValue v
    | none => classifyError p line
  | .none => classifyError p line

/-- The timeout checks of R194: the sequence test first (R195), then the reply test (R196); `none` when neither fires. -/
def timeoutStatus (c : Cfg) (q : Sequencer) : Option Status :=
  if c.sequenceCeiling < q.seqTimer then some Status.sequenceTimedOut
  else if q.latch.timeout < q.replyTimer then
    some (if q.linesSeen = 0 then Status.replyTimedOut else Status.parserRejected)
  else none

end Sys2Proof.Machine
end

