-- ==== Sys2Proof/Machine/Access.lean ====
section
/-! DEFINITION. The master access state machine (spec/42_master_access.md R180 to R206) and the host operations on it.

The consumer's work between two Delays is one function: `State.sending` from the start of an attempt, `State.poll` from
one Delay to the next (R80). Each ends with the machine Idle or AwaitingReply, that is inside a Delay.
An operation runs on as long as the environment has settled what the next Delay delivers (`State.runDelays`); then its
state rests in AwaitingReply and the next step of the machine, a byte or a line goes on with it. -/

namespace Sys2Proof.Machine

/-- `Sending`, first and second: the per-attempt state is cleared (R182) and the ring flushed (R183). What `rx_value`
holds until a value line is accepted is unspecified (R40), so it becomes a free value. -/
def State.clearAttempt (s : State) : State :=
  { s with
    ring := s.ring.resync
    seq := { s.seq with status := Status.zero, replyTimer := 0, seqTimer := 0, linesSeen := 0
                        rxValue := Config.freeRxValue s.env.freeCount }
    env := { s.env with freeCount := s.env.freeCount + 1 } }

/-- `Sending`, third: the frame is built, the destination set and the frame sent (R184). The first component is
whether both capabilities succeeded. -/
def State.sendFrame (s : State) : Bool × State :=
  let t := { s with seq := { s.seq with txFrame := frameOf s.params s.seq.latch } }
  let d := t.transport (.setDestination t.seq.latch.node)
  if d.1 then d.2.transport (.sendFrame t.seq.txFrame) else d

/-- `Sending`, fourth: without an expectation the attempt succeeds at once (R185), otherwise the receiver is enabled and
the wait begins (R186). -/
def State.afterSend (s : State) : State :=
  if s.seq.latch.expectation = .none then
    let r := s.transport .disableReceive
    if r.1 then { r.2 with seq := { r.2.seq with rxEnabled := false } }.goto .success else r.2.abortAccess false
  else
    let r := s.transport .enableReceive
    if r.1 then { r.2 with seq := { r.2.seq with rxEnabled := true } }.goto .awaitingReply else r.2.abortAccess true

/-- The whole of `Sending` (R182 to R186, R205). -/
def State.sending (s : State) : State :=
  let r := (s.goto .sending).clearAttempt.sendFrame
  if r.1 then r.2.afterSend else r.2.abortAccess true

/-- An access starts (R181, R201): the parameters are latched and the first attempt begins. -/
def State.startAccess (s : State) (c : Caller) (a : AccessParams) : State :=
  { s with seq := { s.seq with latch := a, caller := c, attempt := 1 }, ret := .pending }.sending

/-- The next candidate of a scan, or its end (R240, R244). -/
def State.scanNext (s : State) (capacity : Nat) : State :=
  if capacity ≤ s.seq.found ∨ s.params.lastValidAddress < s.seq.scanAddr then
    { s with host := { s.host with found := s.seq.found } }.finish (.call .callSuccess)
  else s.startAccess (.scan capacity) (probeParams s.params s.seq.scanAddr)

/-- The self-consistency check and the append of R242 and R243, then the step to the next address (R245). -/
def State.scanRecord (s : State) : State :=
  let v := s.seq.rxValue
  let addr := idField s.params.idAddrField v
  if s.seq.status.isZero ∧ addr = s.seq.scanAddr then
    { s with
      host := { s.host with list := s.host.list ++ [⟨addr, idField s.params.idBoardField v⟩] }
      seq := { s.seq with found := s.seq.found + 1, scanAddr := s.seq.scanAddr + 1 } }
  else { s with seq := { s.seq with scanAddr := s.seq.scanAddr + 1 } }

/-- The outputs of a host operation on a register or of a command (R202 to R204): the status place is written; the value
place only by a read that ended with status all-zero and expected a value (R203). -/
def State.writeOutputs (s : State) (isRead : Bool) : State :=
  let v := if isRead ∧ s.seq.status.isZero ∧ s.seq.latch.expectation = .value then s.seq.rxValue else s.host.value
  { s with host := { s.host with status := s.seq.status, value := v } }.finish (.call .callSuccess)

/-- The access is over: `fsm <- Idle` and the operation returns to whoever invoked it (R198, R200); a scan goes on to
its next candidate (R240). -/
def State.conclude (s : State) : State :=
  let t := s.goto .idle
  match s.seq.caller with
  | .none => t
  | .attempt => t.finish (.attempt s.seq.status)
  | .access _ => t.finish (.access .callSuccess s.seq.status s.seq.rxValue)
  | .writeRegister => t.writeOutputs false
  | .readRegister => t.writeOutputs true
  | .sendCommand => t.writeOutputs false
  | .scan capacity => t.scanRecord.scanNext capacity

/-- After `Sending`: an attempt that already succeeded (R185) concludes, any other waits or was aborted. -/
def State.settle (s : State) : State :=
  if s.seq.fsm = .success then s.conclude else s

/-- No further attempt follows a failed one: a single attempt, a probe of a scan (R241), or the last one (R200). -/
def State.lastAttempt (s : State) : Bool :=
  match s.seq.caller with
  | .attempt => true
  | .scan _ => true
  | .access oneAttempt => oneAttempt || decide (s.cfg.maxAttempts ≤ s.seq.attempt)
  | .none | .writeRegister | .readRegister | .sendCommand => decide (s.cfg.maxAttempts ≤ s.seq.attempt)

/-- The attempt has ended with the status it holds: Success, Exhausted or Retry (R198 to R200). -/
def State.attemptOver (s : State) : State :=
  if s.seq.status.isZero then (s.goto .success).conclude
  else if s.lastAttempt then (s.goto .exhausted).conclude
  else
    let t := s.goto .retry
    { t with seq := { t.seq with attempt := t.seq.attempt + 1 } }.sending.settle

/-- An exit of the attempt with status `st`: the exit procedure of R197, then the retry loop. -/
def State.exitAttempt (s : State) (st : Status) : State :=
  let r := { s with seq := { s.seq with status := st } }.transport .disableReceive
  if r.1 then { r.2 with seq := { r.2.seq with rxEnabled := false } }.attemptOver else r.2.abortAccess false

/-- The timeout checks that end a poll iteration (R194 to R196). -/
def State.checkTimeouts (s : State) : State :=
  match timeoutStatus s.cfg s.seq with
  | some st => s.exitAttempt st
  | none => s

/-- The slot at the read cursor is discarded and the wait goes on (R193). -/
def State.discardLine (s : State) : State :=
  { s with ring := s.ring.discard s.params }.goto .awaitingReply

/-- `Classifying` (R189 to R193): the slot at the read cursor is examined. -/
def State.classifySlot (s : State) : State :=
  let t := s.goto .classifying
  if (s.ring.slot s.ring.readCursor).complete then
    let u := { t with seq := { t.seq with linesSeen := t.seq.linesSeen + 1, replyTimer := 0 } }
    match classify s.params s.seq.latch.expectation (s.ring.line s.params s.ring.readCursor) with
    | .acceptOk => u.exitAttempt Status.zero
    | .acceptValue v => { u with seq := { u.seq with rxValue := v } }.exitAttempt Status.zero
    | .errorReport => u.exitAttempt Status.remoteReported
    | .noise => u.discardLine.checkTimeouts
  else t.discardLine.checkTimeouts

/-- Both timers advance by the poll interval (R187). -/
def State.advanceTimers (s : State) : State :=
  { s with seq := { s.seq with replyTimer := s.seq.replyTimer + s.params.pollInterval
                               seqTimer := s.seq.seqTimer + s.params.pollInterval } }

/-- The look at the ring buffer after the Delay (R188, R189). -/
def State.look (s : State) : State :=
  if s.ring.hasPending then s.classifySlot else s.checkTimeouts

/-- One poll iteration whose Delay delivers `bytes` (R187 to R196). -/
def State.poll (s : State) (bytes : List Byte) : Answer :=
  match (s.emit (.delay s.params.pollInterval)).deliver bytes with
  | .next t => .next t.advanceTimers.look
  | .fault f => .fault f
  | .refused r => .refused r

/-- The operation under way goes on through the Delays whose deliveries are settled. -/
def State.runDelays (s : State) : List (List Byte) → Answer
  | [] => .next { s with env := { s.env with deliveries := [] } }
  | d :: ds =>
    if s.seq.fsm = .awaitingReply then
      match s.poll d with
      | .next t => t.runDelays ds
      | .fault f => .fault f
      | .refused r => .refused r
    else .next { s with env := { s.env with deliveries := d :: ds } }

/-- The access machine runs from the state `t` in which an operation has started. -/
def State.carryOn (t : State) : Answer := t.runDelays t.env.deliveries

/-- The checks of R206 common to the host operations: the expectation, when the call may go on. -/
def callerChecks (p : Params) (node : Nat) (placesExist : Bool) (expect : ExpectArg) : Option Expectation :=
  match expect with
  | .outOfRange _ => none
  | .kind e => if placesExist ∧ node ≤ p.lastValidAddress then some e else none

/-- An access runs from the state `start` in which its first attempt was sent; one that cannot be made, for its frame (R78,
R204) or its node (R206, I13), is a caller error. -/
def State.runAccess (s : State) (a : AccessParams) (start : State) : Answer :=
  if accessFits s.params a then start.settle.carryOn else .next s.callerError

/-- A host operation that passed the checks of R206 runs its access. -/
def State.hostAccess (s : State) (c : Caller) (a : AccessParams) : Answer := s.runAccess a (s.startAccess c a)

/-- ATTEMPT(p) (R181 to R197, R201). -/
def execAttempt (a : AccessParams) (s : State) : Answer :=
  s.asMaster (s.whenIdle (s.runAccess a
    { s with seq := { s.seq with latch := a, caller := .attempt }, ret := .pending }.sending))

/-- ACCESS(p, one_attempt) (R198 to R201). -/
def execAccess (a : AccessParams) (oneAttempt : Bool) (s : State) : Answer :=
  s.asMaster (s.whenIdle (s.runAccess a (s.startAccess (.access oneAttempt) a)))

/-- WRITE_REGISTER (R202, R206). A write does not use the latch's `text`; the model puts the empty one there (DESIGN CHOICE,
notes/assumptions/30.md). -/
def execWriteRegister (node : Nat) (reg : Byte) (value mask : Word) (expect : ExpectArg) (timeout : Nat)
    (statusOut : Bool) (s : State) : Answer :=
  s.asMaster (s.whenIdle (match callerChecks s.params node statusOut expect with
    | none => .next s.callerError
    | some e => s.hostAccess .writeRegister ⟨.write, node, reg, e, timeout, value, mask, []⟩))

/-- READ_REGISTER (R203, R206). A read uses neither `value`, `mask` nor `text` of the latch; the model puts zero and the
empty text there (DESIGN CHOICE, notes/assumptions/30.md). -/
def execReadRegister (node : Nat) (reg : Byte) (expect : ExpectArg) (timeout : Nat) (statusOut valueOut : Bool)
    (s : State) : Answer :=
  s.asMaster (s.whenIdle (match callerChecks s.params node (statusOut && valueOut) expect with
    | none => .next s.callerError
    | some e => s.hostAccess .readRegister ⟨.read, node, reg, e, timeout, 0, 0, []⟩))

/-- SEND_COMMAND (R204, R206). A command uses neither the register, `value` nor `mask` of the latch; the model puts zero
there (DESIGN CHOICE, notes/assumptions/30.md). -/
def execSendCommand (node : Nat) (text : List Byte) (expect : ExpectArg) (timeout : Nat) (statusOut : Bool)
    (s : State) : Answer :=
  s.asMaster (s.whenIdle (match callerChecks s.params node statusOut expect with
    | none => .next s.callerError
    | some e => s.hostAccess .sendCommand ⟨.generic, node, 0, e, timeout, 0, 0, text⟩))

end Sys2Proof.Machine
end

