-- ==== Sys2Proof/Machine/Codec.lean ====
section
/-! DEFINITION. The frame codec operations and the external tokenizer's two functions (spec/41_frame_codec.md). -/

namespace Sys2Proof.Machine

/-- ENCODE_MINHEX (R160), an operation of both roles. -/
def execEncodeMinhex (v : Word) (w : Nat) (s : State) : Answer :=
  s.asEither (.next (s.returns (.bytes (minhexText v w))))

/-- `tx_frame <- frame`, the effect of the three builders. A frame that cannot be built is a caller error (R78, I12), which
changes nothing else (R262). -/
def State.buildFrame (s : State) (possible : Bool) (frame : List Byte) : State :=
  if possible then { s with seq := { s.seq with txFrame := frame } }.returns .done else s.callerError

/-- BUILD_GENERIC (R164). -/
def execBuildGeneric (text : List Byte) (s : State) : Answer :=
  s.asMaster (.next (s.buildFrame ((Instr.buildGeneric text).wf s.params) (genericFrame s.params text)))

/-- BUILD_WRITE (R165). -/
def execBuildWrite (reg : Byte) (value mask : Word) (s : State) : Answer :=
  s.asMaster (.next (s.buildFrame ((Instr.buildWrite reg value mask).wf s.params) (writeFrame s.params reg value mask)))

/-- BUILD_READ (R166). -/
def execBuildRead (reg : Byte) (s : State) : Answer :=
  s.asMaster (.next (s.buildFrame ((Instr.buildRead reg).wf s.params) (readFrame s.params reg)))

/-- DECODE, the tokenizer's DecodeField (R170). It is no operation of the block, so the lifecycle window does not bind it. -/
def execDecode (text : List Byte) (pos : Nat) (term : Terminator) (s : State) : Answer :=
  .next (s.returns (.field (decodeField s.params text pos term)))

/-- COMPARE, the tokenizer's Compare (R171). It is no operation of the block either. -/
def execCompare (line : List Byte) (mode : CompareMode) (literal : List Byte) (s : State) : Answer :=
  .next (s.returns (.flag (compareText s.params.tokenizer line mode literal)))

end Sys2Proof.Machine
end

