-- ==== Sys2Proof/Machine/Lifecycle.lean ====
section
/-! DEFINITION. The lifecycle operations (spec/45_lifecycle.md). -/

namespace Sys2Proof.Machine

/-- What a successful INIT_MASTER writes (R250, R55), in the order of its pseudocode. -/
def State.initAsMaster (s : State) (c : Cfg) : State :=
  let t := { s with
    cfg := c
    ring := { slots := List.replicate s.params.depth Slot.empty, mem := s.ring.mem, writeCursor := 0, readCursor := 0 }
    seq := { s.seq with caller := .none, rxEnabled := false, txFrame := [] } }
  { (t.goto .idle).emit .connectProducer with initialized := true, ret := .call .callSuccess }

/-- INIT_MASTER (R250). The transport is configured with the line parameters; its failure leaves everything as it was (I24). -/
def execInitMaster (lineParams : List Byte) (maxAttempts sequenceCeiling : Nat) (s : State) : Answer :=
  if s.params.role = .master then
    if s.initialized then .fault .lifecycleViolation
    else if maxAttempts < 1 ∨ ¬ s.params.inDomain then .next s.callerError
    else
      let r := s.transport (.configure lineParams)
      if r.1 then .next (r.2.initAsMaster ⟨lineParams, maxAttempts, sequenceCeiling⟩)
      else .next (r.2.returns (.call .transportError))
  else .refused .otherRole

/-- What a successful INIT_SLAVE writes (R251). -/
def State.initAsSlave (s : State) (process write read : Callback) : State :=
  let t := { s with slave := ⟨process, write, read, false, [], true⟩, initialized := true, ret := .call .callSuccess }
  (t.emit (.registerHandler s.params.writePrefix)).emit (.registerHandler s.params.readPrefix)

/-- INIT_SLAVE (R251). Parameters outside their domain are refused, as in the master form (R10). -/
def execInitSlave (process write read : Callback) (s : State) : Answer :=
  if s.params.role = .slave then
    if s.initialized then .fault .lifecycleViolation
    else if ¬ s.params.inDomain then .next s.callerError
    else .next (s.initAsSlave process write read)
  else .refused .otherRole

/-- DEINIT_MASTER (R252). A disable that fails ends the operation with TransportError (R263): the receiver's mirror is
cleared and the machine Idle (R272), and the window stays open, as the operation was not completed
(notes/assumptions/14.md). -/
def execDeinitMaster (s : State) : Answer :=
  s.asMaster (s.whenIdle
    (let r := s.transport .disableReceive
     let t := { r.2 with seq := { r.2.seq with rxEnabled := false } }
     .next (if r.1 then { t with initialized := false }.returns .done else t.returns (.call .transportError))))

/-- DEINIT_SLAVE (R253). -/
def execDeinitSlave (s : State) : Answer :=
  s.asSlave (.next ({ s.emit .unregisterHandlers with
    slave := { s.slave with handlersRegistered := false }, initialized := false }.returns .done))

end Sys2Proof.Machine
end

