-- ==== Sys2Proof/Machine/RingBuffer.lean ====
section
/-! DEFINITION. The reply ring buffer operations (spec/40_ring_buffer.md). -/

namespace Sys2Proof.Machine

/-- PUSH_BYTE (R140 to R145). The block does not gate it (R82). -/
def execPushByte (b : Byte) (s : State) : Answer :=
  s.asMaster (match s.ring.push s.params b with
    | some r => .next { s with ring := r }
    | none => .fault .slotOverflow)

/-- HAS_PENDING (R146). -/
def execHasPending (s : State) : Answer :=
  s.asMaster (.next (s.returns (.flag s.ring.hasPending)))

/-- FLUSH (R148). An index outside `0 .. DEPTH-1` "is not a possible operand". -/
def execFlush (i : Nat) (s : State) : Answer :=
  s.asMaster (if i < s.params.depth then .next ({ s with ring := s.ring.flush i }.returns .done)
    else .refused .noSuchSlot)

/-- FLUSH_ALL (R149). -/
def execFlushAll (s : State) : Answer :=
  s.asMaster (.next ({ s with ring := s.ring.flushAll }.returns .done))

end Sys2Proof.Machine
end

