-- ==== Sys2Proof/Machine/Scan.lean ====
section
/-! DEFINITION. The node scan sequencer (spec/44_node_scan.md). Its loop is `State.scanNext` and `State.scanRecord` of
Access.lean, because a probe ends inside the access machine. -/

namespace Sys2Proof.Machine

/-- The start of a scan (R240): nothing found, the host's list still empty, the first candidate address 0. -/
def State.startScan (s : State) (capacity : Nat) : State :=
  { s with seq := { s.seq with scanAddr := 0, found := 0 }, host := { s.host with list := [] } }.scanNext capacity

/-- SCAN (R240 to R246). A probe frame that cannot be built is a caller error, as for any access (R78). -/
def execScan (listOut : Bool) (capacity : Nat) (s : State) : Answer :=
  s.asMaster (s.whenIdle
    (if listOut ∧ (capacity = 0 ∨ frameFits s.params (probeParams s.params 0)) then (s.startScan capacity).carryOn
     else .next s.callerError))

end Sys2Proof.Machine
end

