-- ==== Sys2Proof/Machine/Slave.lean ====
section
/-! DEFINITION. The slave turnaround controller and the two built-in handlers (spec/43_slave_dispatch.md). -/

namespace Sys2Proof.Machine

/-- The turnaround delay both handlers begin with (R221). -/
def State.turnAround (s : State) : State :=
  { s with
    slave := { s.slave with turnaround := false }
    events := .turnaround false :: .delay s.params.turnaroundDelay :: .turnaround true :: s.events }

/-- The handler returns to the dispatcher (R220). -/
def State.handlerReturns (s : State) (r : HandlerResult) : State := s.returns (.handler r)

/-- The result of the next invocation of the write-register callback: settled in advance, or free (I21). -/
def Env.takeCbWrite (e : Env) : Bool × Env :=
  match e.cbWriteResults with
  | b :: rest => (b, { e with cbWriteResults := rest })
  | [] => (Config.freeCbWrite e.freeCount, { e with freeCount := e.freeCount + 1 })

/-- The result of the next invocation of the read-register callback: settled in advance, or free (I21). -/
def Env.takeCbRead (e : Env) : Option Word × Env :=
  match e.cbReadResults with
  | r :: rest => (r, { e with cbReadResults := rest })
  | [] => (Config.freeCbRead e.freeCount, { e with freeCount := e.freeCount + 1 })

/-- CbWrite(reg, value, mask) of R222. -/
def State.cbWrite (s : State) (callback : Nat) (reg : Byte) (value mask : Word) : Bool × State :=
  let r := s.env.takeCbWrite
  (r.1, { s with env := r.2 }.emit (.cbWrite callback reg value mask r.1))

/-- CbRead(reg) of R222. -/
def State.cbRead (s : State) (callback : Nat) (reg : Byte) : Option Word × State :=
  let r := s.env.takeCbRead
  (r.1, { s with env := r.2 }.emit (.cbRead callback reg r.1))

/-- A register address field: a parsed number that fits 8 bits (R232). -/
def regField (f : Option (Word × Nat)) : Option (Byte × Nat) :=
  match f with
  | some (a, next) => if a.toNat ≤ 0xFF then some (a.setWidth 8, next) else none
  | none => none

/-- The two-shape grammar of SLAVE_WRITE (R224): address, value and mask. -/
def parseWrite (p : Params) (text : List Byte) (pos : Nat) : Option (Byte × Word × Word) :=
  match regField (decodeField p text pos .separator) with
  | none => none
  | some (reg, n) =>
    match decodeField p text n .separator with
    | some (value, m) => (decodeField p text m .endOfLine).map (fun f => (reg, value, f.1))
    | none => (decodeField p text n .endOfLine).map (fun f => (reg, f.1, allBits))

/-- The single address field of SLAVE_READ (R228). -/
def parseRead (p : Params) (text : List Byte) (pos : Nat) : Option Byte :=
  (regField (decodeField p text pos .endOfLine)).map Prod.fst

/-- The body of SLAVE_WRITE (R223 to R226). -/
def State.handleWrite (s : State) (text : List Byte) (pos : Nat) : State :=
  let t := s.turnAround
  match t.slave.cbWrite, parseWrite t.params text pos with
  | some callback, some (reg, value, mask) =>
    let r := t.cbWrite callback reg value mask
    r.2.handlerReturns (if r.1 then .success else .commandExecutionError)
  | _, _ => t.handlerReturns .commandExecutionError

/-- The body of SLAVE_READ (R223, R228 to R231). -/
def State.handleRead (s : State) (text : List Byte) (pos : Nat) : State :=
  let t := s.turnAround
  match t.slave.cbRead, parseRead t.params text pos with
  | some callback, some reg =>
    let r := t.cbRead callback reg
    match r.1 with
    | some v =>
      { r.2.emit (.sendReply (minhex v 4)) with slave := { r.2.slave with replyPayload := minhex v 4 } }.handlerReturns .success
    | none => r.2.handlerReturns .commandExecutionError
  | _, _ => t.handlerReturns .commandExecutionError

/-- SLAVE_WRITE (R224). -/
def execSlaveWrite (text : List Byte) (pos : Nat) (s : State) : Answer :=
  s.asSlave (.next (s.handleWrite text pos))

/-- SLAVE_READ (R228). -/
def execSlaveRead (text : List Byte) (pos : Nat) (s : State) : Answer :=
  s.asSlave (.next (s.handleRead text pos))

end Sys2Proof.Machine
end

