-- ==== Sys2Proof/Machine/Wire.lean ====
section
/-! DEFINITION. The wire operations (spec/30_encoding.md R101 to R113): a line travels on the bus and reaches this instance.

At a master the transport hands the line over byte by byte inside the Delay the access waits in, and the poll iteration
after it classifies; while the receiver is disabled the line is dropped (R82). At a slave the external dispatcher isolates
the line and invokes the handler of the built-in prefix it opens with (R119, R220); any other line never reaches the block
(R113). The receiver goes by the bytes of the line, whichever constructor carries them. -/

namespace Sys2Proof.Machine

/-- A line whose inside is `text` reaches a master instance (R82, R187 to R193). -/
def State.lineArrives (s : State) (text : List Byte) : Answer :=
  if ¬ (s.initialized ∧ s.seq.rxEnabled) then .next s
  else if s.seq.fsm = .awaitingReply then s.poll (text ++ [s.params.endMarker])
  else s.deliver (text ++ [s.params.endMarker])

/-- What the dispatcher puts on the bus after a handler returned (R227, R230, D25). `payload` is what it was handed. -/
def State.dispatcherReplies (s : State) (payload : List Byte) : State :=
  match s.ret with
  | .handler .success => s.emit (.dispatcherLine (payload ++ [s.params.endMarker]))
  | _ => s.emit .dispatcherErrorLine

/-- The dispatcher of a slave with one isolated line: a WRITE frame, else a READ frame, else not the block's business
(R119, R113). -/
def State.dispatch (s : State) (line : List Byte) : State :=
  if s.params.writePrefix.isPrefixOf line then
    (s.handleWrite line s.params.writePrefix.length).dispatcherReplies s.params.okToken
  else if s.params.readPrefix.isPrefixOf line then
    let t := s.handleRead line s.params.readPrefix.length
    t.dispatcherReplies t.slave.replyPayload
  else s

/-- The lines a byte string is made of, cut at the end marker (R115). -/
def splitLines (marker : Byte) : List Byte → List (List Byte)
  | [] => [[]]
  | b :: rest =>
    if b = marker then [] :: splitLines marker rest
    else match splitLines marker rest with
      | [] => [[b]]
      | line :: lines => (b :: line) :: lines

/-- The text of a line reaches an instance: a master's receiver, or the dispatcher of a slave whose handlers are registered.
A text with an end marker in it is more than one line. -/
def State.onLine (s : State) (text : List Byte) : Answer :=
  match s.params.role with
  | .master => s.lineArrives text
  | .slave =>
    .next (if s.initialized ∧ s.slave.handlersRegistered then (splitLines s.params.endMarker text).foldl State.dispatch s
      else s)

/-- A WRITE line (R102, R224). -/
def execWrite (body : List Byte) (s : State) : Answer := s.onLine (s.params.writePrefix ++ body)

/-- A READ line (R103, R228). -/
def execRead (body : List Byte) (s : State) : Answer := s.onLine (s.params.readPrefix ++ body)

/-- A GENERIC line (R104): some other command, not the block's business (R119). -/
def execGeneric (text : List Byte) (s : State) : Answer := s.onLine text

/-- The OK line (R107, R190). -/
def execOk (s : State) : Answer := s.onLine s.params.okToken

/-- An ERROR line (R108, R191). -/
def execError (rest : List Byte) (s : State) : Answer := s.onLine (s.params.errorToken ++ rest)

/-- A VALUE line (R109, R190). -/
def execValue (text : List Byte) (s : State) : Answer := s.onLine text

/-- Any other line (R112, R193). -/
def execNoise (text : List Byte) (s : State) : Answer := s.onLine text

end Sys2Proof.Machine
end

