-- ==== Sys2Proof/Machine/Dispatch.lean ====
section
/-! DEFINITION. The dispatch: one arm per operation of spec/30_encoding.md R100, each one call of its meaning. -/

namespace Sys2Proof.Machine

def exec (i : Instr) (s : State) : Host.Outcome State Fault Refusal :=
  match i with
  | .write body => Sys2Proof.Machine.execWrite body s
  | .read body => Sys2Proof.Machine.execRead body s
  | .generic text => Sys2Proof.Machine.execGeneric text s
  | .ok => Sys2Proof.Machine.execOk s
  | .error rest => Sys2Proof.Machine.execError rest s
  | .value text => Sys2Proof.Machine.execValue text s
  | .noise text => Sys2Proof.Machine.execNoise text s
  | .pushByte b => Sys2Proof.Machine.execPushByte b s
  | .hasPending => Sys2Proof.Machine.execHasPending s
  | .flush n => Sys2Proof.Machine.execFlush n s
  | .flushAll => Sys2Proof.Machine.execFlushAll s
  | .encodeMinhex v w => Sys2Proof.Machine.execEncodeMinhex v w s
  | .buildGeneric text => Sys2Proof.Machine.execBuildGeneric text s
  | .buildWrite reg value mask => Sys2Proof.Machine.execBuildWrite reg value mask s
  | .buildRead reg => Sys2Proof.Machine.execBuildRead reg s
  | .decode text pos term => Sys2Proof.Machine.execDecode text pos term s
  | .compare line mode literal => Sys2Proof.Machine.execCompare line mode literal s
  | .attempt p => Sys2Proof.Machine.execAttempt p s
  | .access p oneAttempt => Sys2Proof.Machine.execAccess p oneAttempt s
  | .writeRegister node reg value mask expect timeout statusOut => Sys2Proof.Machine.execWriteRegister node reg value mask expect timeout statusOut s
  | .readRegister node reg expect timeout statusOut valueOut => Sys2Proof.Machine.execReadRegister node reg expect timeout statusOut valueOut s
  | .sendCommand node text expect timeout statusOut => Sys2Proof.Machine.execSendCommand node text expect timeout statusOut s
  | .scan listOut capacity => Sys2Proof.Machine.execScan listOut capacity s
  | .initMaster lineParams maxAttempts sequenceCeiling => Sys2Proof.Machine.execInitMaster lineParams maxAttempts sequenceCeiling s
  | .initSlave process write read => Sys2Proof.Machine.execInitSlave process write read s
  | .deinitMaster => Sys2Proof.Machine.execDeinitMaster s
  | .deinitSlave => Sys2Proof.Machine.execDeinitSlave s
  | .slaveWrite text pos => Sys2Proof.Machine.execSlaveWrite text pos s
  | .slaveRead text pos => Sys2Proof.Machine.execSlaveRead text pos s

end Sys2Proof.Machine
end

