-- ==== Sys2Proof/Machine/Fetch.lean ====
section
/-! DEFINITION. How the machine comes to its next step. The block fetches no instructions (R90): the host and the
dispatcher invoke operations, lines travel on the bus, and a waiting access goes on when its Delay ends. -/

namespace Sys2Proof.Machine

/-- What happens next. -/
inductive Move where
  /-- nothing: the block waits to be invoked (R291) -/
  | rest
  /-- the Delay a waiting access is in ends (R278) -/
  | delayEnds
  /-- the operation `i` runs in the state `s`, its input consumed -/
  | run (i : Instr) (s : State)
  /-- the bytes of the next input are no line -/
  | reject (e : DecodeError)
deriving DecidableEq, Repr

/-- The inputs left after the first one. -/
def State.withInputs (s : State) (rest : List Input) : State := { s with env := { s.env with inputs := rest } }

/-- What may happen inside a Delay: a byte or a line arrives. Every other operation is one of the foreground task, which
is inside its call as long as the access waits (R80, R181). -/
def arrives : Instr → Bool
  | .pushByte _ | .write _ | .read _ | .generic _ | .ok | .error _ | .value _ | .noise _ => true
  | .hasPending | .flush _ | .flushAll | .encodeMinhex _ _ | .buildGeneric _ | .buildWrite _ _ _ | .buildRead _
  | .decode _ _ _ | .compare _ _ _ | .attempt _ | .access _ _ | .writeRegister _ _ _ _ _ _ _
  | .readRegister _ _ _ _ _ _ | .sendCommand _ _ _ _ _ | .scan _ _ | .initMaster _ _ _ | .initSlave _ _ _
  | .deinitMaster | .deinitSlave | .slaveWrite _ _ | .slaveRead _ _ => false

/-- The next move: the first input, and the end of the Delay the machine waits in when there is no input or the first one
is a call that comes after the access under way. -/
def State.nextMove (s : State) : Move :=
  match s.env.inputs with
  | [] => if s.seq.fsm = .awaitingReply then .delayEnds else .rest
  | .call i :: rest =>
    if s.seq.fsm = .awaitingReply ∧ ¬ arrives i then .delayEnds else .run i (s.withInputs rest)
  | .line bytes :: rest =>
    match decodeLine s.params (sideOf s.params.role) bytes with
    | .ok i => .run i (s.withInputs rest)
    | .error e => .reject e

/-- The Delay ends with what the environment delivered in it: settled in advance, or free (I22). -/
def State.endDelay (s : State) : Answer :=
  match s.env.deliveries with
  | d :: ds => { s with env := { s.env with deliveries := ds } }.poll d
  | [] => { s with env := { s.env with freeCount := s.env.freeCount + 1 } }.poll (Config.freeDelivery s.env.freeCount)

/-- The line a table row's bits stand for, put before all other inputs. -/
def State.withTableInput (s : State) (nbits w : Nat) : State :=
  s.withInputs (.line (tableLine s.params nbits w) :: s.env.inputs)

end Sys2Proof.Machine
end

