-- ==== Sys2Proof/Machine/Step.lean ====
section
/-! DEFINITION. One step of the machine, and the placing of an instruction before the next step. -/

namespace Sys2Proof.Machine

/-- One step. -/
def step (s : State) : Host.Outcome State Fault Refusal :=
  match s.nextMove with
  | .rest => .next s
  | .delayEnds => s.endDelay
  | .run i t => exec i t
  | .reject e => .refused (.undecodable e)

/-- The line a table row's bits stand for is the next input (notes/assumptions/4.md). -/
def State.withFetchWord (s : State) (nbits w : Nat) : State := s.withTableInput nbits w

end Sys2Proof.Machine
end

