-- ==== Sys2Proof/Safety.lean ====
section
/-! DEFINITION. The terms claims about a run are made in: sequences of operations, the invariant of the state, and the
conditions under which the rules of the spec speak of an operation. -/

namespace Sys2Proof.Machine

/-- The operations of a list one after the other, stopping at the first fault or refusal. -/
def execAll : List Instr → State → Answer
  | [], s => .next s
  | i :: is, s =>
    match exec i s with
    | .next t => execAll is t
    | .fault f => .fault f
    | .refused r => .refused r

/-- A master instance inside its lifecycle window with no access under way (R206, R181). -/
def MasterIdle (s : State) : Prop := s.params.role = .master ∧ s.initialized = true ∧ s.seq.fsm = .idle

/-- A slave instance inside its lifecycle window (R220, R293). -/
def SlaveReady (s : State) : Prop := s.params.role = .slave ∧ s.initialized = true

/-- The bytes of a line the classifier sees whole: no end marker and no NUL (R15, R101). -/
def PlainLine (p : Params) (text : List Byte) : Prop := p.endMarker ∉ text ∧ nul ∉ text

/-- The characters `0` to `9`, `A` to `F` and `a` to `f` (R170). -/
def isHexDigit (b : Byte) : Bool :=
  decide (0x30 ≤ b.toNat ∧ b.toNat ≤ 0x39 ∨ 0x41 ≤ b.toNat ∧ b.toNat ≤ 0x46 ∨ 0x61 ≤ b.toNat ∧ b.toNat ≤ 0x66)

/-- A line that is neither what the expectation asks for nor an error report, byte for byte (R190, R191, R112). -/
def IsNoise (p : Params) (e : Expectation) (text : List Byte) : Prop :=
  p.errorToken.isPrefixOf text = false ∧ (e = .ok → text ≠ p.okToken) ∧
    (e = .value → decodeText p.tokenizer text = none)

/-- The descriptors a scan appends for the addresses below `n` when address `a` answers with the value `vs[a]` (R242, R243). -/
def consistentNodes (p : Params) (vs : List Word) (n : Nat) : List Descriptor :=
  (List.range n).filterMap (fun a =>
    if idField p.idAddrField (vs.getD a 0) = a then some ⟨a, idField p.idBoardField (vs.getD a 0)⟩ else none)

/-- The role an operation belongs to (R100, R274). `none`: an operation of both roles, an external function, or a line on
the bus. -/
def roleOf : Instr → Option Role
  | .pushByte _ | .hasPending | .flush _ | .flushAll | .buildGeneric _ | .buildWrite _ _ _ | .buildRead _ | .attempt _
  | .access _ _ | .writeRegister _ _ _ _ _ _ _ | .readRegister _ _ _ _ _ _ | .sendCommand _ _ _ _ _ | .scan _ _
  | .initMaster _ _ _ | .deinitMaster => some .master
  | .initSlave _ _ _ | .deinitSlave | .slaveWrite _ _ | .slaveRead _ _ => some .slave
  | .encodeMinhex _ _ | .decode _ _ _ | .compare _ _ _ | .write _ | .read _ | .generic _ | .ok | .error _ | .value _
  | .noise _ => none

/-- INIT, the operations that open the lifecycle window (R250, R251). -/
def isInit : Instr → Bool
  | .initMaster _ _ _ | .initSlave _ _ _ => true
  | .write _ | .read _ | .generic _ | .ok | .error _ | .value _ | .noise _ | .pushByte _ | .hasPending | .flush _
  | .flushAll | .encodeMinhex _ _ | .buildGeneric _ | .buildWrite _ _ _ | .buildRead _ | .decode _ _ _ | .compare _ _ _
  | .attempt _ | .access _ _ | .writeRegister _ _ _ _ _ _ _ | .readRegister _ _ _ _ _ _ | .sendCommand _ _ _ _ _
  | .scan _ _ | .deinitMaster | .deinitSlave | .slaveWrite _ _ | .slaveRead _ _ => false

/-- A line on the bus: the operations that have an encoding (R100 (a)). -/
def isLine : Instr → Bool
  | .write _ | .read _ | .generic _ | .ok | .error _ | .value _ | .noise _ => true
  | .pushByte _ | .hasPending | .flush _ | .flushAll | .encodeMinhex _ _ | .buildGeneric _ | .buildWrite _ _ _
  | .buildRead _ | .decode _ _ _ | .compare _ _ _ | .attempt _ | .access _ _ | .writeRegister _ _ _ _ _ _ _
  | .readRegister _ _ _ _ _ _ | .sendCommand _ _ _ _ _ | .scan _ _ | .initMaster _ _ _ | .initSlave _ _ _
  | .deinitMaster | .deinitSlave | .slaveWrite _ _ | .slaveRead _ _ => false

/-- An external function the model takes as a parameter (R170, R171). -/
def isExternal : Instr → Bool
  | .decode _ _ _ | .compare _ _ _ => true
  | .write _ | .read _ | .generic _ | .ok | .error _ | .value _ | .noise _ | .pushByte _ | .hasPending | .flush _
  | .flushAll | .encodeMinhex _ _ | .buildGeneric _ | .buildWrite _ _ _ | .buildRead _ | .attempt _ | .access _ _
  | .writeRegister _ _ _ _ _ _ _ | .readRegister _ _ _ _ _ _ | .sendCommand _ _ _ _ _ | .scan _ _
  | .initMaster _ _ _ | .initSlave _ _ _ | .deinitMaster | .deinitSlave | .slaveWrite _ _ | .slaveRead _ _ => false

/-- The operations that run the access machine (R201, R240). -/
def runsAccess : Instr → Bool
  | .attempt _ | .access _ _ | .writeRegister _ _ _ _ _ _ _ | .readRegister _ _ _ _ _ _ | .sendCommand _ _ _ _ _
  | .scan _ _ => true
  | .write _ | .read _ | .generic _ | .ok | .error _ | .value _ | .noise _ | .pushByte _ | .hasPending | .flush _
  | .flushAll | .encodeMinhex _ _ | .buildGeneric _ | .buildWrite _ _ _ | .buildRead _ | .decode _ _ _ | .compare _ _ _
  | .initMaster _ _ _ | .initSlave _ _ _ | .deinitMaster | .deinitSlave | .slaveWrite _ _ | .slaveRead _ _ => false

/-- The number of poll iterations a timer with this limit needs to exceed it (R208, R310). -/
def pollsUntil (p : Params) (limit : Nat) : Nat := limit / p.pollInterval + 1

/-- How many complete lines the consumer can reach: from the read cursor round the ring to the write cursor (R147). -/
def Ring.reach (p : Params) (r : Ring) : Nat := (r.writeCursor + p.depth - r.readCursor) % p.depth

/-- The discipline of R151: slots from the read cursor up to the write cursor are complete, the slot at the write cursor
is not, every other slot is empty. -/
def Ring.disciplined (p : Params) (r : Ring) : Prop :=
  ∀ d, d < p.depth →
    (d < r.reach p → (r.slot ((r.readCursor + d) % p.depth)).complete = true) ∧
    (d = r.reach p → (r.slot ((r.readCursor + d) % p.depth)).complete = false) ∧
    (r.reach p < d → (r.slot ((r.readCursor + d) % p.depth)).len = 0 ∧
      (r.slot ((r.readCursor + d) % p.depth)).complete = false)

/-- The ring buffer's own bounds: `DEPTH` slots, both cursors in range (R25, R30, R31), every length below the capacity and
every tokenizer cursor 0 (R27, R29). -/
def Ring.sound (p : Params) (r : Ring) : Bool :=
  decide (r.slots.length = p.depth) && decide (r.writeCursor < p.depth) && decide (r.readCursor < p.depth)
    && r.slots.all (fun sl => decide (sl.len < p.slotCapacity) && decide (sl.cursor = 0))

/-- At most one status bit is set (R210). -/
def Status.oneHot (st : Status) : Bool :=
  st.isZero || decide (st = Status.replyTimedOut) || decide (st = Status.sequenceTimedOut)
    || decide (st = Status.parserRejected) || decide (st = Status.remoteReported)

/-- Between steps the access machine is Idle with the receiver disabled, or inside a Delay with the receiver enabled and an
operation to return to. -/
def Sequencer.resting (p : Params) (initialized : Bool) (q : Sequencer) : Bool :=
  (decide (q.fsm = .idle) && !q.rxEnabled && decide (q.caller = .none))
    || (decide (q.fsm = .awaitingReply) && q.rxEnabled && decide (q.caller ≠ .none) && decide (p.role = .master)
        && initialized && accessFits p q.latch
        && (match q.caller with
          | .scan _ => decide (q.latch = probeParams p q.scanAddr)
          | .none | .attempt | .access _ | .writeRegister | .readRegister | .sendCommand => true))

/-- The invariant of the machine: what holds at reset and after every step. -/
def State.inv (s : State) : Bool :=
  (!(decide (s.params.role = .master) && s.initialized) || s.ring.sound s.params)
    && Memory.wf s.ring.mem
    && decide (s.seq.txFrame.length ≤ s.params.txCapacity)
    && decide (s.slave.replyPayload.length ≤ 8)
    && s.seq.resting s.params s.initialized
    && s.seq.status.oneHot
    && !s.slave.turnaround

end Sys2Proof.Machine
end

