-- ==== Sys2Proof/Certificates/Slice0/Obligations.lean ====
section
/-! DEFINITION. The statements for the provers. Each docstring names the rule of spec/ it formalises. -/

open Sys2Proof Sys2Proof.Machine

/-! ### Reset and lifecycle -/

/-- R55, R291: the values INIT leaves, in a master and in a slave instance, and that nothing runs after reset. The
elements R55 calls unspecified are not mentioned. -/
def Obligations.InitLeavesTheResetValues : Prop :=
  (∀ (p : Params) (lp : List Byte) (ma sc : Nat) (rest : List Bool), p.role = .master → p.inDomain = true → 1 ≤ ma →
    ∃ t, exec (.initMaster lp ma sc) { State.built p with env := { Env.unsettled with txResults := true :: rest } } = .next t ∧
      t.ring.slots.length = p.depth ∧ (∀ i, i < p.depth → t.ring.slot i = ⟨0, false, 0⟩) ∧
      t.ring.writeCursor = 0 ∧ t.ring.readCursor = 0 ∧ t.seq.fsm = .idle ∧ t.seq.rxEnabled = false ∧ t.seq.txFrame = [] ∧
      t.initialized = true ∧ t.cfg = ⟨lp, ma, sc⟩) ∧
  (∀ (p : Params) (process write read : Callback), p.role = .slave → p.inDomain = true →
    ∃ t, exec (.initSlave process write read) (State.built p) = .next t ∧
      t.initialized = true ∧ t.slave = ⟨process, write, read, false, [], true⟩) ∧
  step State.reset = .next State.reset ∧
  (State.reset.initialized = true ∧ State.reset.seq.fsm = .idle ∧ State.reset.seq.rxEnabled = false ∧
    State.reset.seq.txFrame = [] ∧ State.reset.ring.writeCursor = 0 ∧ State.reset.ring.readCursor = 0 ∧
    State.reset.ring.slots = List.replicate State.reset.params.depth ⟨0, false, 0⟩)

/-- R250: INIT_MASTER in each of its four cases. -/
def Obligations.InitMasterCases : Prop :=
  ∀ (lp : List Byte) (ma sc : Nat) (s : State), s.params.role = .master →
    (s.initialized = true → exec (.initMaster lp ma sc) s = .fault .lifecycleViolation) ∧
    (s.initialized = false → ma < 1 ∨ s.params.inDomain = false →
      exec (.initMaster lp ma sc) s = .next { s with ret := .call .callerError }) ∧
    (∀ rest, s.initialized = false → 1 ≤ ma → s.params.inDomain = true → s.env.txResults = false :: rest →
      exec (.initMaster lp ma sc) s = .next { s with
        env := { s.env with txResults := rest }
        events := .tx (.configure lp) false :: s.events
        ret := .call .transportError }) ∧
    (∀ rest, s.initialized = false → 1 ≤ ma → s.params.inDomain = true → s.env.txResults = true :: rest →
      exec (.initMaster lp ma sc) s = .next { s with
        cfg := ⟨lp, ma, sc⟩
        initialized := true
        ring := { slots := List.replicate s.params.depth ⟨0, false, 0⟩, mem := s.ring.mem, writeCursor := 0, readCursor := 0 }
        seq := { s.seq with fsm := .idle, caller := .none, rxEnabled := false, txFrame := [] }
        env := { s.env with txResults := rest }
        events := .connectProducer :: .fsm .idle :: .tx (.configure lp) true :: s.events
        ret := .call .callSuccess })

/-- R251, R10: INIT_SLAVE in each of its cases. -/
def Obligations.InitSlaveCases : Prop :=
  ∀ (process write read : Callback) (s : State), s.params.role = .slave →
    (s.initialized = true → exec (.initSlave process write read) s = .fault .lifecycleViolation) ∧
    (s.initialized = false → s.params.inDomain = false →
      exec (.initSlave process write read) s = .next { s with ret := .call .callerError }) ∧
    (s.initialized = false → s.params.inDomain = true →
      exec (.initSlave process write read) s = .next { s with
        slave := ⟨process, write, read, false, [], true⟩
        initialized := true
        events := .registerHandler s.params.readPrefix :: .registerHandler s.params.writePrefix :: s.events
        ret := .call .callSuccess })

/-- R252, R253, R255: DEINIT of both roles, inside the window and outside it; and R263, R272: a DEINIT_MASTER whose disable
fails. That the window then stays open is the model's choice (notes/assumptions/14.md). -/
def Obligations.DeinitClosesTheWindow : Prop :=
  (∀ (s : State) (rest : List Bool), MasterIdle s → s.env.txResults = true :: rest →
    exec .deinitMaster s = .next { s with
      initialized := false
      seq := { s.seq with rxEnabled := false }
      env := { s.env with txResults := rest }
      events := .tx .disableReceive true :: s.events
      ret := .done }) ∧
  (∀ (s : State) (rest : List Bool), MasterIdle s → s.env.txResults = false :: rest →
    exec .deinitMaster s = .next { s with
      seq := { s.seq with rxEnabled := false }
      env := { s.env with txResults := rest }
      events := .tx .disableReceive false :: s.events
      ret := .call .transportError }) ∧
  (∀ s : State, s.params.role = .master → s.initialized = false → exec .deinitMaster s = .fault .lifecycleViolation) ∧
  (∀ s : State, SlaveReady s →
    exec .deinitSlave s = .next { s with
      initialized := false
      slave := { s.slave with handlersRegistered := false }
      events := .unregisterHandlers :: s.events
      ret := .done }) ∧
  (∀ s : State, s.params.role = .slave → s.initialized = false → exec .deinitSlave s = .fault .lifecycleViolation)

/-- R254, R274: no operation changes a build parameter (the role among them), and none but INIT changes a configuration
register or a callback. -/
def Obligations.ConfigurationIsImmutable : Prop :=
  ∀ (i : Instr) (s t : State), exec i s = .next t →
    t.params = s.params ∧
    (isInit i = false → t.cfg = s.cfg ∧ t.slave.cbProcess = s.slave.cbProcess ∧ t.slave.cbWrite = s.slave.cbWrite ∧
      t.slave.cbRead = s.slave.cbRead)

/-- R255: outside the window every operation of the block but INIT is a fault, and INIT is one inside it. -/
def Obligations.OutsideTheWindowIsAFault : Prop :=
  (∀ (i : Instr) (s : State), isInit i = false → isLine i = false → isExternal i = false →
    (∀ r, roleOf i = some r → s.params.role = r) → s.initialized = false → exec i s = .fault .lifecycleViolation) ∧
  (∀ (i : Instr) (s : State), isInit i = true → roleOf i = some s.params.role → s.initialized = true →
    exec i s = .fault .lifecycleViolation)

/-- R274: an operation of the other role has no step. -/
def Obligations.OtherRoleHasNoStep : Prop :=
  ∀ (i : Instr) (r : Role) (s : State), roleOf i = some r → s.params.role ≠ r → exec i s = .refused .otherRole

/-- R20, R274: a slave instance never touches the master's elements, nor a master instance the slave's. -/
def Obligations.RolesDoNotShareState : Prop :=
  ∀ (i : Instr) (s t : State), exec i s = .next t →
    (s.params.role = .slave → t.ring = s.ring ∧ t.seq = s.seq ∧ t.host = s.host ∧ t.cfg = s.cfg) ∧
    (s.params.role = .master → t.slave = s.slave)

/-- The window opens only by INIT and closes only by DEINIT (R44, R53). -/
def Obligations.OnlyLifecycleOperationsMoveTheWindow : Prop :=
  ∀ (i : Instr) (s t : State), exec i s = .next t →
    (s.initialized = false → t.initialized = true → isInit i = true) ∧
    (s.initialized = true → t.initialized = false → i = .deinitMaster ∨ i = .deinitSlave)

/-! ### Ring buffer -/

/-- R141: an ordinary byte is stored at the write cursor's slot; nothing else changes. -/
def Obligations.PushByteStoresAnOrdinaryByte : Prop :=
  ∀ (s : State) (b : Byte) (sl : Slot), s.params.role = .master → s.initialized = true → Memory.wf s.ring.mem = true →
    s.ring.slots[s.ring.writeCursor]? = some sl → b ≠ s.params.endMarker → sl.complete = false →
    sl.len < s.params.slotCapacity - 1 →
    ∃ m, exec (.pushByte b) s = .next { s with ring := { s.ring with
        slots := s.ring.slots.set s.ring.writeCursor { sl with len := sl.len + 1 }, mem := m } } ∧
      Memory.read m (s.ring.writeCursor * s.params.slotCapacity + sl.len) = b ∧
      ∀ a, a ≠ s.ring.writeCursor * s.params.slotCapacity + sl.len → Memory.read m a = Memory.read s.ring.mem a

/-- R142: the terminator NUL-terminates the slot, completes it and rotates the write cursor. -/
def Obligations.PushByteCompletesALine : Prop :=
  ∀ (s : State) (sl : Slot), s.params.role = .master → s.initialized = true → Memory.wf s.ring.mem = true →
    s.ring.slots[s.ring.writeCursor]? = some sl → sl.complete = false → sl.len ≤ s.params.slotCapacity - 1 →
    1 ≤ s.params.slotCapacity →
    ∃ m, exec (.pushByte s.params.endMarker) s = .next { s with ring := { s.ring with
        slots := s.ring.slots.set s.ring.writeCursor { sl with complete := true }, mem := m
        writeCursor := (s.ring.writeCursor + 1) % s.params.depth } } ∧
      Memory.read m (s.ring.writeCursor * s.params.slotCapacity + sl.len) = nul ∧
      ∀ a, a ≠ s.ring.writeCursor * s.params.slotCapacity + sl.len → Memory.read m a = Memory.read s.ring.mem a

/-- R143: a further byte in a full slot is the fault SlotOverflow. -/
def Obligations.PushByteOverflowIsAFault : Prop :=
  ∀ (s : State) (b : Byte) (sl : Slot), s.params.role = .master → s.initialized = true →
    s.ring.slots[s.ring.writeCursor]? = some sl → b ≠ s.params.endMarker → sl.complete = false →
    sl.len = s.params.slotCapacity - 1 → exec (.pushByte b) s = .fault .slotOverflow

/-- R144: a byte that enters a slot holding an unread line acts as if that slot had been flushed first. -/
def Obligations.PushByteOverwritesAnUnreadLine : Prop :=
  ∀ (s : State) (b : Byte) (sl : Slot), s.params.role = .master → s.initialized = true →
    s.ring.slots[s.ring.writeCursor]? = some sl → sl.complete = true →
    ∃ u, u = { s with ring := { s.ring with slots := s.ring.slots.set s.ring.writeCursor ⟨0, false, 0⟩ } } ∧
      exec (.pushByte b) s = exec (.pushByte b) u

/-- R146: HAS_PENDING compares the cursors and writes nothing. -/
def Obligations.HasPendingComparesTheCursors : Prop :=
  ∀ s : State, s.params.role = .master → s.initialized = true →
    exec .hasPending s = .next { s with ret := .flag (decide (s.ring.writeCursor ≠ s.ring.readCursor)) }

/-- R148, R149: FLUSH clears one slot and FLUSH_ALL every slot; the bytes and both cursors stay. -/
def Obligations.FlushClearsSlots : Prop :=
  ∀ s : State, s.params.role = .master → s.initialized = true → s.ring.slots.length = s.params.depth →
    (∀ i, i < s.params.depth → ∃ l, exec (.flush i) s = .next { s with ring := { s.ring with slots := l }, ret := .done } ∧
      l.length = s.params.depth ∧ l[i]? = some ⟨0, false, 0⟩ ∧ ∀ j, j ≠ i → l[j]? = s.ring.slots[j]?) ∧
    (∃ l, exec .flushAll s = .next { s with ring := { s.ring with slots := l }, ret := .done } ∧
      l = List.replicate s.params.depth ⟨0, false, 0⟩)

/-- R153 (a): the bytes of one line produce exactly one completed slot holding the bytes before the terminator. -/
def Obligations.LineCompletesExactlyOneSlot : Prop :=
  ∀ (s : State) (text : List Byte), s.params.role = .master → s.initialized = true → Memory.wf s.ring.mem = true →
    s.ring.slots[s.ring.writeCursor]? = some ⟨0, false, 0⟩ → s.params.endMarker ∉ text → text.length + 1 ≤ s.params.slotCapacity →
    ∃ m, execAll ((text ++ [s.params.endMarker]).map Instr.pushByte) s = .next { s with ring := { s.ring with
        slots := s.ring.slots.set s.ring.writeCursor ⟨text.length, true, 0⟩, mem := m
        writeCursor := (s.ring.writeCursor + 1) % s.params.depth } } ∧
      (∀ j, j < text.length →
        Memory.read m (s.ring.writeCursor * s.params.slotCapacity + j) = text.getD j nul) ∧
      Memory.read m (s.ring.writeCursor * s.params.slotCapacity + text.length) = nul ∧
      (∀ a, a < s.ring.writeCursor * s.params.slotCapacity ∨
          s.ring.writeCursor * s.params.slotCapacity + text.length < a → Memory.read m a = Memory.read s.ring.mem a)

/-- R153 (b): `DEPTH + 1` lines without consumption lose exactly the oldest. -/
def Obligations.OverrunLosesExactlyTheOldestLine : Prop :=
  ∀ (s : State) (lines : List (List Byte)), s.params.role = .master → s.initialized = true →
    Memory.wf s.ring.mem = true → 2 ≤ s.params.depth →
    s.ring.slots = List.replicate s.params.depth ⟨0, false, 0⟩ → s.ring.writeCursor = 0 → s.ring.readCursor = 0 →
    lines.length = s.params.depth + 1 → (∀ l ∈ lines, PlainLine s.params l ∧ l.length + 1 ≤ s.params.slotCapacity) →
    ∃ t, execAll ((lines.flatMap (fun l => l ++ [s.params.endMarker])).map Instr.pushByte) s = .next t ∧
      t.ring.writeCursor = 1 ∧ t.ring.readCursor = 0 ∧ (∀ i, i < s.params.depth → (t.ring.slot i).complete = true) ∧
      t.ring.line s.params 0 = lines.getD s.params.depth [] ∧
      (∀ k, 1 ≤ k → k < s.params.depth → t.ring.line s.params k = lines.getD k [])

/-- R147, R309: after exactly `DEPTH` unread lines HAS_PENDING reports nothing. -/
def Obligations.FullRingIsInvisible : Prop :=
  ∀ (s : State) (lines : List (List Byte)), s.params.role = .master → s.initialized = true → 1 ≤ s.params.depth →
    s.ring.slots = List.replicate s.params.depth ⟨0, false, 0⟩ → s.ring.writeCursor = s.ring.readCursor →
    s.ring.writeCursor < s.params.depth →
    lines.length = s.params.depth → (∀ l ∈ lines, s.params.endMarker ∉ l ∧ l.length + 1 ≤ s.params.slotCapacity) →
    ∃ t, execAll ((lines.flatMap (fun l => l ++ [s.params.endMarker])).map Instr.pushByte ++ [.hasPending]) s = .next t ∧
      t.ret = .flag false ∧ (∀ i, i < s.params.depth → (t.ring.slot i).complete = true)

/-- R151, R150: without an overrun the producer's byte, the consumer's discard and the flush before a send keep the ring's
discipline, so that a slot found pending is complete. -/
def Obligations.RingDisciplineHolds : Prop :=
  ∀ (p : Params) (r : Ring), r.sound p = true →
    (∀ b r', r.disciplined p → (b = p.endMarker → r.reach p + 1 < p.depth) → r.push p b = some r' → r'.disciplined p) ∧
    (r.disciplined p → r.hasPending = true →
      (r.slot r.readCursor).complete = true ∧ (r.discard p).disciplined p ∧ (r.discard p).reach p + 1 = r.reach p) ∧
    (r.resync.disciplined p ∧ r.resync.hasPending = false)

/-! ### Frame codec -/

/-- R160, R161: the text ENCODE_MINHEX returns is one two-digit token per significant byte, most significant first, and a
single token for zero; the digits are `0` to `9` and the upper-case `A` to `F`. -/
def Obligations.EncodeMinhexEmitsTheSignificantBytes : Prop :=
  ∀ (s : State) (v : Word) (w : Nat) (digit : Nat → Byte) (text : List Byte), s.initialized = true → 1 ≤ w → w ≤ 4 →
    v.toNat < 2 ^ (8 * w) → (∀ n, digit n = BitVec.ofNat 8 (if n ≤ 9 then 0x30 + n else 0x41 + n - 10)) →
    text = (List.range (if v = 0 then 1 else Nat.log2 v.toNat / 8 + 1)).reverse.flatMap (fun k =>
      [digit (v.toNat / 2 ^ (8 * k + 4) % 16), digit (v.toNat / 2 ^ (8 * k) % 16)]) →
    exec (.encodeMinhex v w) s = .next { s with ret := .bytes text }

/-- R162: the six laws of the minimal-hex encoding, for every tokenizer that keeps the contract. -/
def Obligations.MinhexLaws : Prop :=
  (∀ (v : Word) (w : Nat), 1 ≤ w → w ≤ 4 → v.toNat < 2 ^ (8 * w) →
    (minhex v w).length = 2 * (if v = 0 then 1 else Nat.log2 v.toNat / 8 + 1)) ∧
  (∀ w, 1 ≤ w → w ≤ 4 → minhex 0 w = [0x30#8, 0x30#8]) ∧
  (∀ (v : Word) (w : Nat), 1 ≤ w → w ≤ 4 → v.toNat < 2 ^ (8 * w) → 2 ^ (8 * (w - 1)) ≤ v.toNat →
    (minhex v w).length = 2 * w) ∧
  (∀ (v : Word) (w : Nat), 1 ≤ w → w ≤ 4 → v.toNat < 2 ^ (8 * w) → (minhex v w).take 2 = [0x30#8, 0x30#8] →
    minhex v w = [0x30#8, 0x30#8]) ∧
  (∀ (v v' : Word) (w : Nat), 1 ≤ w → w ≤ 4 → v.toNat < 2 ^ (8 * w) → v'.toNat < 2 ^ (8 * w) →
    minhex v w = minhex v' w → v = v') ∧
  (∀ (p : Params) (v : Word), decodeLineValue p (minhex v 4) = some v)

/-- R164, R165, R166: the three builders write `tx_frame` and nothing else. -/
def Obligations.BuildersWriteTheFrame : Prop :=
  ∀ s : State, s.params.role = .master → s.initialized = true →
    (∀ text, s.params.endMarker ∉ text → nul ∉ text → text.length ≤ s.params.txCapacity - 1 → 1 ≤ s.params.txCapacity →
      exec (.buildGeneric text) s =
        .next { s with seq := { s.seq with txFrame := text ++ [s.params.endMarker] }, ret := .done }) ∧
    (∀ reg value mask f, f = s.params.writePrefix ++ minhex (reg.setWidth 32) 1 ++ [s.params.separator] ++ minhex value 4 ++
        (if mask ≠ 0xFFFFFFFF#32 then [s.params.separator] ++ minhex mask 4 else []) ++ [s.params.endMarker] →
      f.length ≤ s.params.txCapacity →
      exec (.buildWrite reg value mask) s = .next { s with seq := { s.seq with txFrame := f }, ret := .done }) ∧
    (∀ reg f, f = s.params.readPrefix ++ minhex (reg.setWidth 32) 1 ++ [s.params.endMarker] → f.length ≤ s.params.txCapacity →
      exec (.buildRead reg) s = .next { s with seq := { s.seq with txFrame := f }, ret := .done })

/-- R106, R78: with prefixes of at most 5 bytes every register frame has between 8 and 26 bytes (11 for a write) and so fits
any legal transmit buffer: the builders and the host operations never refuse one for its length. -/
def Obligations.RegisterFramesAlwaysFit : Prop :=
  ∀ (p : Params) (reg : Byte) (value mask : Word), p.inDomain = true → p.writePrefix.length = 5 →
    p.readPrefix.length = 5 →
    11 ≤ (writeFrame p reg value mask).length ∧ (writeFrame p reg value mask).length ≤ 26 ∧
    (readFrame p reg).length = 8 ∧
    (Instr.buildWrite reg value mask).wf p = true ∧ (Instr.buildRead reg).wf p = true

/-- R170: the contract of DecodeField that every tokenizer keeps. The two terminators and what follows a field; (a) the
minimal-hex text of a value gives that value; (b) a field gives one result wherever it stands; (c) a field with a byte that
is no hexadecimal digit and (d) the empty field are parse errors; and the reference instance: one to eight digits of either
case give their number, more digits are a parse error. -/
def Obligations.DecodeKeepsItsContract : Prop :=
  (∀ (s : State) (text : List Byte) (pos : Nat), s.params.separator ∉ text.drop pos →
    exec (.decode text pos .separator) s = .next { s with ret := .field none }) ∧
  (∀ (k : Tokenizer) (field : List Byte), ∃ r : Option Word,
    (∀ (s : State) (text : List Byte) (pos : Nat), s.params.tokenizer = k → text.drop pos = field →
      exec (.decode text pos .endOfLine) s = .next { s with ret := .field (r.map (fun v => (v, text.length))) }) ∧
    (∀ (s : State) (text : List Byte) (pos : Nat) (rest : List Byte), s.params.tokenizer = k →
      s.params.separator ∉ field → text.drop pos = field ++ s.params.separator :: rest →
      exec (.decode text pos .separator) s =
        .next { s with ret := .field (r.map (fun v => (v, pos + field.length + 1))) }) ∧
    (∀ v, field = minhex v 4 → r = some v) ∧
    ((∃ b ∈ field, isHexDigit b = false) → r = none) ∧
    (field = [] → r = none) ∧
    (∀ ds : List Nat, k = .reference → 1 ≤ ds.length → ds.length ≤ 8 →
      List.Forall₂ (fun d b => d ≤ 9 ∧ b = BitVec.ofNat 8 (0x30 + d) ∨
        10 ≤ d ∧ d ≤ 15 ∧ (b = BitVec.ofNat 8 (0x41 + d - 10) ∨ b = BitVec.ofNat 8 (0x61 + d - 10))) ds field →
      r = some (BitVec.ofNat 32 (ds.foldl (fun acc d => 16 * acc + d) 0))) ∧
    (k = .reference → 8 < field.length → r = none))

/-- R171: Compare in the reference instance is byte for byte; in every instance a text matches itself and opens every
line it is a beginning of. -/
def Obligations.CompareIsBytewise : Prop :=
  ∀ (s : State) (line literal : List Byte),
    (s.params.tokenizer = .reference →
      exec (.compare line .exact literal) s = .next { s with ret := .flag (decide (line = literal)) } ∧
      exec (.compare line .header literal) s = .next { s with ret := .flag (literal.isPrefixOf line) }) ∧
    exec (.compare line .exact line) s = .next { s with ret := .flag true } ∧
    exec (.compare (literal ++ line) .header literal) s = .next { s with ret := .flag true }

/-! ### The access machine -/

/-- R182, R183, R184, R186: the start of an attempt that expects a reply. The per-attempt state is cleared, the ring
flushed and resynchronised, the destination set, the frame sent and the receiver enabled; then the machine waits. The
value of `rx_value` is not mentioned: it is a free value (R40). -/
def Obligations.SendingOpensTheWait : Prop :=
  ∀ (s : State) (a : AccessParams) (rest : List Bool), MasterIdle s → accessFits s.params a = true →
    a.expectation ≠ .none → s.env.txResults = true :: true :: true :: rest → s.env.deliveries = [] →
    ∃ t, exec (.attempt a) s = .next t ∧
      t.seq.fsm = .awaitingReply ∧ t.seq.rxEnabled = true ∧ t.ret = .pending ∧ t.seq.latch = a ∧
      t.seq.status = ⟨false, false, false, false⟩ ∧ t.seq.replyTimer = 0 ∧ t.seq.seqTimer = 0 ∧ t.seq.linesSeen = 0 ∧
      t.ring = { slots := List.replicate s.ring.slots.length ⟨0, false, 0⟩, mem := s.ring.mem
                 writeCursor := s.ring.writeCursor, readCursor := s.ring.writeCursor } ∧
      t.seq.txFrame = frameOf s.params a ∧ t.seq.attempt = s.seq.attempt ∧ t.host = s.host ∧
      t.env.txDest = a.node ∧ t.env.txResults = rest ∧
      t.events = .fsm .awaitingReply :: .tx .enableReceive true :: .tx (.sendFrame (frameOf s.params a)) true ::
        .tx (.setDestination a.node) true :: .fsm .sending :: s.events

/-- R185, R198, R209 (a): with the expectation None each host operation succeeds at once. The frame goes out, no receiver
is enabled, nothing is waited for and the status is all-zero. -/
def Obligations.NoExpectationSucceedsAtOnce : Prop :=
  ∀ (s : State) (rest : List Bool) (i : Instr) (node : Nat) (frame : List Byte),
    MasterIdle s → s.env.txResults = true :: true :: true :: rest → node ≤ s.params.lastValidAddress →
    frame.length ≤ s.params.txCapacity →
    ((∃ reg value mask timeout, i = .writeRegister node reg value mask (.kind .none) timeout true ∧
        frame = writeFrame s.params reg value mask) ∨
      (∃ reg timeout, i = .readRegister node reg (.kind .none) timeout true true ∧ frame = readFrame s.params reg) ∨
      (∃ text timeout, i = .sendCommand node text (.kind .none) timeout true ∧ framable s.params text = true ∧
        frame = text ++ [s.params.endMarker])) →
    ∃ t, exec i s = .next t ∧ t.ret = .call .callSuccess ∧ t.host = { s.host with status := ⟨false, false, false, false⟩ } ∧
      t.seq.status = ⟨false, false, false, false⟩ ∧ t.seq.fsm = .idle ∧ t.seq.rxEnabled = false ∧ t.seq.txFrame = frame ∧
      t.env.txDest = node ∧ t.env.deliveries = s.env.deliveries ∧ t.env.inputs = s.env.inputs ∧
      t.ring = { slots := List.replicate s.ring.slots.length ⟨0, false, 0⟩, mem := s.ring.mem
                 writeCursor := s.ring.writeCursor, readCursor := s.ring.writeCursor } ∧
      t.params = s.params ∧ t.cfg = s.cfg ∧ t.initialized = true ∧ t.slave = s.slave ∧
      t.events = .fsm .idle :: .fsm .success :: .tx .disableReceive true :: .tx (.sendFrame frame) true ::
        .tx (.setDestination node) true :: .fsm .sending :: s.events

/-- R202, R203, R204, R190, R198: a register write, a command and a register read that expect OK succeed when the success line
is delivered in the first Delay, whatever tokenizer compares it; the read delivers no value. -/
def Obligations.OkReplyEndsTheAccess : Prop :=
  ∀ (s : State) (rest : List Bool) (ds : List (List Byte)) (i : Instr) (node : Nat) (frame : List Byte),
    MasterIdle s → s.ring.sound s.params = true → Memory.wf s.ring.mem = true → 2 ≤ s.params.depth →
    PlainLine s.params s.params.okToken → s.params.okToken.length + 1 ≤ s.params.slotCapacity →
    s.env.txResults = true :: true :: true :: true :: rest →
    s.env.deliveries = (s.params.okToken ++ [s.params.endMarker]) :: ds →
    node ≤ s.params.lastValidAddress → frame.length ≤ s.params.txCapacity →
    ((∃ reg value mask timeout, i = .writeRegister node reg value mask (.kind .ok) timeout true ∧
        frame = writeFrame s.params reg value mask) ∨
      (∃ reg timeout, i = .readRegister node reg (.kind .ok) timeout true true ∧ frame = readFrame s.params reg) ∨
      (∃ text timeout, i = .sendCommand node text (.kind .ok) timeout true ∧ framable s.params text = true ∧
        frame = text ++ [s.params.endMarker])) →
    ∃ t, exec i s = .next t ∧ t.ret = .call .callSuccess ∧ t.host = { s.host with status := ⟨false, false, false, false⟩ } ∧
      t.seq.fsm = .idle ∧ t.seq.rxEnabled = false ∧ t.seq.txFrame = frame ∧ t.env.txDest = node ∧
      t.seq.attempt = 1 ∧ t.seq.linesSeen = 1 ∧ t.seq.replyTimer = 0 ∧ t.seq.seqTimer = s.params.pollInterval ∧
      t.ring.readCursor = s.ring.writeCursor ∧ t.ring.writeCursor = (s.ring.writeCursor + 1) % s.params.depth ∧
      t.ring.line s.params t.ring.readCursor = s.params.okToken ∧ t.env.deliveries = ds ∧
      (∀ a, a < s.ring.writeCursor * s.params.slotCapacity ∨
        s.ring.writeCursor * s.params.slotCapacity + s.params.okToken.length < a →
        Memory.read t.ring.mem a = Memory.read s.ring.mem a) ∧
      t.params = s.params ∧ t.cfg = s.cfg ∧ t.initialized = true ∧ t.slave = s.slave

/-- R203, R202, R204, R190, R230: an access that expects a value ends with the value whose minimal-hex line comes back in
the first Delay, whatever tokenizer decodes it. A register read delivers it; a register write and a command drop it. -/
def Obligations.ReadDeliversTheValue : Prop :=
  ∀ (s : State) (rest : List Bool) (ds : List (List Byte)) (i : Instr) (node : Nat) (frame : List Byte) (v delivered : Word),
    MasterIdle s → s.ring.sound s.params = true → Memory.wf s.ring.mem = true → 2 ≤ s.params.depth →
    9 ≤ s.params.slotCapacity → isHexDigit s.params.endMarker = false →
    s.env.txResults = true :: true :: true :: true :: rest →
    s.env.deliveries = (minhex v 4 ++ [s.params.endMarker]) :: ds →
    node ≤ s.params.lastValidAddress → frame.length ≤ s.params.txCapacity →
    ((∃ reg timeout, i = .readRegister node reg (.kind .value) timeout true true ∧ frame = readFrame s.params reg ∧
        delivered = v) ∨
      (∃ reg value mask timeout, i = .writeRegister node reg value mask (.kind .value) timeout true ∧
        frame = writeFrame s.params reg value mask ∧ delivered = s.host.value) ∨
      (∃ text timeout, i = .sendCommand node text (.kind .value) timeout true ∧ framable s.params text = true ∧
        frame = text ++ [s.params.endMarker] ∧ delivered = s.host.value)) →
    ∃ t, exec i s = .next t ∧ t.ret = .call .callSuccess ∧
      t.host = { s.host with status := ⟨false, false, false, false⟩, value := delivered } ∧ t.seq.rxValue = v ∧
      t.seq.fsm = .idle ∧ t.seq.rxEnabled = false ∧ t.seq.txFrame = frame ∧ t.env.txDest = node ∧
      t.env.deliveries = ds ∧
      (∀ a, a < s.ring.writeCursor * s.params.slotCapacity ∨
        s.ring.writeCursor * s.params.slotCapacity + (minhex v 4).length < a →
        Memory.read t.ring.mem a = Memory.read s.ring.mem a) ∧
      t.params = s.params ∧ t.cfg = s.cfg ∧ t.initialized = true ∧ t.slave = s.slave

/-- R203: the host's value place changes only when a register read ends with an accepted value: either the operation is that
read, or a line ended the one that was under way. No other operation writes it. -/
def Obligations.ValuePlaceIsWrittenOnlyOnAnAcceptedValue : Prop :=
  ∀ (i : Instr) (s t : State), exec i s = .next t → t.host.value ≠ s.host.value →
    (t.seq.status = ⟨false, false, false, false⟩ ∧ t.seq.latch.expectation = .value ∧ t.host.value = t.seq.rxValue ∧
      t.ret = .call .callSuccess ∧ t.seq.fsm = .idle) ∧
    ((∃ node reg e timeout statusOut valueOut, i = .readRegister node reg e timeout statusOut valueOut) ∨
      isLine i = true ∧ s.seq.caller = .readRegister)

/-- R208: when no line completes during an attempt, whatever partial line trickles in, the attempt ends in poll iteration
`min k_r k_s`, with `reply_timeout` when `k_r < k_s` and with `sequence_timeout` otherwise. The partial line fits its slot:
one that does not is the fault of R143. -/
def Obligations.SilentPeerTimesOut : Prop :=
  ∀ (s : State) (a : AccessParams) (rest : List Bool) (ds : List (List Byte)) (k : Nat), MasterIdle s →
    accessFits s.params a = true → a.expectation ≠ .none → 1 ≤ s.params.pollInterval →
    s.env.txResults = true :: true :: true :: true :: rest →
    k = min (pollsUntil s.params a.timeout) (pollsUntil s.params s.cfg.sequenceCeiling) →
    s.env.deliveries = ds → k ≤ ds.length → s.params.endMarker ∉ ds.flatten → ds.flatten.length + 1 ≤ s.params.slotCapacity →
    ∃ t, exec (.attempt a) s = .next t ∧
      t.ret = .attempt (if pollsUntil s.params a.timeout < pollsUntil s.params s.cfg.sequenceCeiling
        then ⟨true, false, false, false⟩ else ⟨false, true, false, false⟩) ∧
      t.seq.fsm = .idle ∧ t.seq.rxEnabled = false ∧ t.seq.linesSeen = 0 ∧
      t.seq.seqTimer = k * s.params.pollInterval ∧ t.seq.replyTimer = t.seq.seqTimer ∧ t.env.deliveries = ds.drop k

/-- R207, R249: whatever the environment delivers and answers, an attempt is over after `floor(SEQUENCE_CEILING /
POLL_INTERVAL) + 1` poll iterations, an access or a host operation on a node after `MAX_ATTEMPTS` times as many, and a scan
after as many for each address, unless a line overflows its slot. -/
def Obligations.EveryAccessTerminates : Prop :=
  ∀ (s : State) (k : Nat), MasterIdle s → 1 ≤ s.params.pollInterval → k = pollsUntil s.params s.cfg.sequenceCeiling →
    (∀ a, k ≤ s.env.deliveries.length →
      exec (.attempt a) s = .fault .slotOverflow ∨
      ∃ t, exec (.attempt a) s = .next t ∧ t.seq.fsm = .idle ∧
        s.env.deliveries.length ≤ t.env.deliveries.length + k) ∧
    (∀ i, runsAccess i = true → (∀ a, i ≠ .attempt a) → (∀ l c, i ≠ .scan l c) → 1 ≤ s.cfg.maxAttempts →
      s.cfg.maxAttempts * k ≤ s.env.deliveries.length →
      exec i s = .fault .slotOverflow ∨
      ∃ t, exec i s = .next t ∧ t.seq.fsm = .idle ∧
        (t.ret ≠ .call .callerError → t.seq.attempt ≤ s.cfg.maxAttempts) ∧
        s.env.deliveries.length ≤ t.env.deliveries.length + s.cfg.maxAttempts * k) ∧
    (∀ listOut capacity, (s.params.lastValidAddress + 1) * k ≤ s.env.deliveries.length →
      exec (.scan listOut capacity) s = .fault .slotOverflow ∨
      ∃ t, exec (.scan listOut capacity) s = .next t ∧ t.seq.fsm = .idle ∧
        s.env.deliveries.length ≤ t.env.deliveries.length + (s.params.lastValidAddress + 1) * k)

/-- R199, R209 (d): a remote that reports an error in the first `n` attempts and answers OK in attempt `n + 1` makes the
access succeed with the status of that attempt alone. Stated of ACCESS with the reference tokenizer. -/
def Obligations.RetriesUntilTheFirstSuccess : Prop :=
  ∀ (s : State) (a : AccessParams) (n : Nat) (rest : List Bool) (ds : List (List Byte)) (tail : List Byte),
    MasterIdle s → s.ring.sound s.params = true → Memory.wf s.ring.mem = true → 2 ≤ s.params.depth →
    s.params.tokenizer = .reference → s.params.errorToken.isPrefixOf s.params.okToken = false →
    PlainLine s.params s.params.okToken → s.params.okToken.length + 1 ≤ s.params.slotCapacity →
    PlainLine s.params (s.params.errorToken ++ tail) → (s.params.errorToken ++ tail).length + 1 ≤ s.params.slotCapacity →
    accessFits s.params a = true → a.expectation = .ok → n + 1 ≤ s.cfg.maxAttempts →
    s.env.txResults = List.replicate (4 * (n + 1)) true ++ rest →
    s.env.deliveries =
      List.replicate n (s.params.errorToken ++ tail ++ [s.params.endMarker]) ++ (s.params.okToken ++ [s.params.endMarker]) :: ds →
    ∃ t v, exec (.access a false) s = .next t ∧ t.ret = .access .callSuccess ⟨false, false, false, false⟩ v ∧
      t.seq.attempt = n + 1 ∧ t.seq.fsm = .idle ∧ t.seq.rxEnabled = false ∧ t.env.deliveries = ds ∧
      t.env.txResults = rest ∧ t.seq.txFrame = frameOf s.params a ∧ t.host = s.host

/-- R200, R191, R208: when every attempt fails, each for a cause of its own (an error report, or silence), a register write
returns success as a call, after exactly `MAX_ATTEMPTS` attempts, with the status of the last attempt alone. Stated with the
reference tokenizer; `some tail` is an error line with that rest, `none` is silence. -/
def Obligations.ExhaustedAccessReportsTheLastStatus : Prop :=
  ∀ (s : State) (node : Nat) (reg : Byte) (value mask : Word) (timeout k : Nat) (rest : List Bool)
    (ds : List (List Byte)) (earlier : List (Option (List Byte))) (last : Option (List Byte)),
    MasterIdle s → s.ring.sound s.params = true → Memory.wf s.ring.mem = true → 2 ≤ s.params.depth →
    1 ≤ s.params.pollInterval →
    s.params.tokenizer = .reference → s.params.errorToken.isPrefixOf s.params.okToken = false →
    (∀ tail, some tail ∈ earlier ++ [last] → PlainLine s.params (s.params.errorToken ++ tail) ∧
      (s.params.errorToken ++ tail).length + 1 ≤ s.params.slotCapacity) →
    node ≤ s.params.lastValidAddress → (writeFrame s.params reg value mask).length ≤ s.params.txCapacity →
    s.cfg.maxAttempts = (earlier ++ [last]).length →
    k = min (pollsUntil s.params timeout) (pollsUntil s.params s.cfg.sequenceCeiling) →
    s.env.txResults = List.replicate (4 * s.cfg.maxAttempts) true ++ rest →
    s.env.deliveries = (earlier ++ [last]).flatMap (fun cause => match cause with
      | some tail => [s.params.errorToken ++ tail ++ [s.params.endMarker]]
      | none => List.replicate k []) ++ ds →
    ∃ t, exec (.writeRegister node reg value mask (.kind .ok) timeout true) s = .next t ∧
      t.ret = .call .callSuccess ∧
      t.host = { s.host with status := match last with
        | some _ => ⟨false, false, false, true⟩
        | none => if pollsUntil s.params timeout < pollsUntil s.params s.cfg.sequenceCeiling
            then ⟨true, false, false, false⟩ else ⟨false, true, false, false⟩ } ∧
      t.seq.attempt = s.cfg.maxAttempts ∧ t.seq.fsm = .idle ∧ t.seq.rxEnabled = false ∧ t.env.deliveries = ds ∧
      t.env.txResults = rest

/-- R205, R197: a transport capability that fails ends the access at once, whichever it is: each call of `Sending`, and the
disable of the exit procedure after an accepted line, after an error report and after a timeout. The receiver is disabled
once more unless that was the failing call, and no output is written. -/
def Obligations.TransportFailureAborts : Prop :=
  ∀ (s : State) (node : Nat) (reg : Byte) (value mask : Word) (e : Expectation) (timeout : Nat) (b : Bool)
    (rest : List Bool) (f : List Byte) (i : Instr),
    i = .writeRegister node reg value mask (.kind e) timeout true → f = writeFrame s.params reg value mask →
    MasterIdle s → node ≤ s.params.lastValidAddress → f.length ≤ s.params.txCapacity →
    (s.env.txResults = false :: b :: rest →
      ∃ t, exec i s = .next t ∧ t.ret = .call .transportError ∧ t.seq.fsm = .idle ∧ t.seq.rxEnabled = false ∧
        t.host = s.host ∧ t.seq.attempt = 1 ∧ t.env.txResults = rest ∧
        t.events = .fsm .idle :: .tx .disableReceive b :: .tx (.setDestination node) false :: .fsm .sending :: s.events) ∧
    (s.env.txResults = true :: false :: b :: rest →
      ∃ t, exec i s = .next t ∧ t.ret = .call .transportError ∧ t.seq.fsm = .idle ∧ t.seq.rxEnabled = false ∧
        t.host = s.host ∧ t.seq.attempt = 1 ∧ t.env.txResults = rest ∧
        t.events = .fsm .idle :: .tx .disableReceive b :: .tx (.sendFrame f) false :: .tx (.setDestination node) true ::
          .fsm .sending :: s.events) ∧
    (e ≠ .none → s.env.txResults = true :: true :: false :: b :: rest →
      ∃ t, exec i s = .next t ∧ t.ret = .call .transportError ∧ t.seq.fsm = .idle ∧ t.seq.rxEnabled = false ∧
        t.host = s.host ∧ t.seq.attempt = 1 ∧ t.env.txResults = rest ∧
        t.events = .fsm .idle :: .tx .disableReceive b :: .tx .enableReceive false :: .tx (.sendFrame f) true ::
          .tx (.setDestination node) true :: .fsm .sending :: s.events) ∧
    (e = .none → s.env.txResults = true :: true :: false :: rest →
      ∃ t, exec i s = .next t ∧ t.ret = .call .transportError ∧ t.seq.fsm = .idle ∧ t.seq.rxEnabled = false ∧
        t.host = s.host ∧ t.seq.attempt = 1 ∧ t.env.txResults = rest ∧
        t.events = .fsm .idle :: .tx .disableReceive false :: .tx (.sendFrame f) true :: .tx (.setDestination node) true ::
          .fsm .sending :: s.events) ∧
    (∀ line ds, e = .ok → (line = s.params.okToken ∨ ∃ tail, line = s.params.errorToken ++ tail) →
      PlainLine s.params line → line.length + 1 ≤ s.params.slotCapacity → 2 ≤ s.params.depth →
      s.ring.sound s.params = true → Memory.wf s.ring.mem = true →
      s.env.txResults = true :: true :: true :: false :: rest →
      s.env.deliveries = (line ++ [s.params.endMarker]) :: ds →
      ∃ t, exec i s = .next t ∧ t.ret = .call .transportError ∧ t.seq.fsm = .idle ∧ t.seq.rxEnabled = false ∧
        t.host = s.host ∧ t.seq.attempt = 1 ∧ t.env.txResults = rest ∧ t.env.deliveries = ds) ∧
    (∀ k ds, e ≠ .none → 1 ≤ s.params.pollInterval →
      k = min (pollsUntil s.params timeout) (pollsUntil s.params s.cfg.sequenceCeiling) →
      s.env.txResults = true :: true :: true :: false :: rest → s.env.deliveries = List.replicate k [] ++ ds →
      ∃ t, exec i s = .next t ∧ t.ret = .call .transportError ∧ t.seq.fsm = .idle ∧ t.seq.rxEnabled = false ∧
        t.host = s.host ∧ t.seq.attempt = 1 ∧ t.env.txResults = rest ∧ t.env.deliveries = ds)

/-- R206, R204, R78, I12, I13: an operation whose arguments fail the checks is not attempted: nothing but the returned value
changes. That the builders, ATTEMPT and ACCESS answer as the host operations do is the model's choice
(notes/assumptions/11.md). -/
def Obligations.CallerErrorsChangeNothing : Prop :=
  ∀ s : State, MasterIdle s →
    (∀ node reg value mask expect timeout statusOut,
      statusOut = false ∨ (∃ c, expect = .outOfRange c) ∨ s.params.lastValidAddress < node →
      exec (.writeRegister node reg value mask expect timeout statusOut) s = .next { s with ret := .call .callerError }) ∧
    (∀ node reg expect timeout statusOut valueOut,
      statusOut = false ∨ valueOut = false ∨ (∃ c, expect = .outOfRange c) ∨ s.params.lastValidAddress < node →
      exec (.readRegister node reg expect timeout statusOut valueOut) s = .next { s with ret := .call .callerError }) ∧
    (∀ node text expect timeout statusOut,
      statusOut = false ∨ (∃ c, expect = .outOfRange c) ∨ s.params.lastValidAddress < node ∨
        s.params.endMarker ∈ text ∨ nul ∈ text ∨ s.params.txCapacity < text.length + 1 →
      exec (.sendCommand node text expect timeout statusOut) s = .next { s with ret := .call .callerError }) ∧
    (∀ capacity, exec (.scan false capacity) s = .next { s with ret := .call .callerError }) ∧
    (∀ text, s.params.endMarker ∈ text ∨ nul ∈ text ∨ s.params.txCapacity < text.length + 1 →
      exec (.buildGeneric text) s = .next { s with ret := .call .callerError }) ∧
    (∀ reg value mask, s.params.txCapacity < (writeFrame s.params reg value mask).length →
      exec (.buildWrite reg value mask) s = .next { s with ret := .call .callerError }) ∧
    (∀ reg, s.params.txCapacity < (readFrame s.params reg).length →
      exec (.buildRead reg) s = .next { s with ret := .call .callerError }) ∧
    (∀ a one, s.params.lastValidAddress < a.node ∨ s.params.txCapacity < (frameOf s.params a).length ∨
        a.op = .generic ∧ (s.params.endMarker ∈ a.text ∨ nul ∈ a.text) →
      exec (.attempt a) s = .next { s with ret := .call .callerError } ∧
      exec (.access a one) s = .next { s with ret := .call .callerError })

/-- R210: at most one status bit is set, in the access machine, in the host's place and in a returned status, after every
operation and after every step, the end of a Delay among them. -/
def Obligations.StatusIsOneHot : Prop :=
  ∀ (s t : State), (step s = .next t ∨ ∃ i, exec i s = .next t) → s.seq.status.oneHot = true →
    s.host.status.oneHot = true →
    t.seq.status.oneHot = true ∧ t.host.status.oneHot = true ∧
    (∀ st, (t.ret = .attempt st ∨ ∃ c v, t.ret = .access c st v) → t.ret = s.ret ∨ st.oneHot = true)

/-- The frame of the operations that run an access (R202, R203, R204, R240, R192): what they never write. The bytes they
may store are those PUSH_BYTE stores during their Delays, inside the slots; with nothing delivered no byte changes and the
write cursor stays (R150). -/
def Obligations.AccessOperationsFrame : Prop :=
  ∀ (i : Instr) (s t : State), runsAccess i = true → exec i s = .next t →
    t.params = s.params ∧ t.cfg = s.cfg ∧ t.initialized = s.initialized ∧ t.slave = s.slave ∧
    t.env.inputs = s.env.inputs ∧ t.env.cbWriteResults = s.env.cbWriteResults ∧ t.env.cbReadResults = s.env.cbReadResults ∧
    ((∀ l c, i ≠ .scan l c) → t.host.found = s.host.found ∧ t.host.list = s.host.list ∧
      t.seq.scanAddr = s.seq.scanAddr ∧ t.seq.found = s.seq.found) ∧
    (s.ring.sound s.params = true → ∀ a, s.params.depth * s.params.slotCapacity ≤ a →
      Memory.read t.ring.mem a = Memory.read s.ring.mem a) ∧
    ((∀ d ∈ s.env.deliveries, d = []) → t.ring.mem = s.ring.mem ∧ t.ring.writeCursor = s.ring.writeCursor)

/-! ### Lines on the bus -/

/-- R82: a line that reaches a master while its receiver is disabled is dropped without a step of the block. -/
def Obligations.LinesAreDroppedWhileTheReceiverIsOff : Prop :=
  ∀ (i : Instr) (s : State), isLine i = true → s.params.role = .master → s.seq.rxEnabled = false → exec i s = .next s

/-- R190, R192: the success line that reaches a master waiting for OK ends its register write with status all-zero; the
slot is left as it is. That the line takes one Delay, which it ends, is the model's
choice (notes/assumptions/9.md and 13.md). -/
def Obligations.OkLineIsAccepted : Prop :=
  ∀ (s : State) (rest : List Bool), s.params.role = .master → s.initialized = true → s.seq.fsm = .awaitingReply →
    s.seq.rxEnabled = true → s.seq.caller = .writeRegister → s.seq.latch.expectation = .ok →
    s.ring.sound s.params = true → Memory.wf s.ring.mem = true → 2 ≤ s.params.depth →
    s.ring.readCursor = s.ring.writeCursor → s.ring.slots[s.ring.writeCursor]? = some ⟨0, false, 0⟩ →
    PlainLine s.params s.params.okToken → s.params.okToken.length + 1 ≤ s.params.slotCapacity →
    s.env.txResults = true :: rest →
    ∃ t, exec .ok s = .next t ∧ t.seq.status = ⟨false, false, false, false⟩ ∧ t.seq.fsm = .idle ∧
      t.seq.rxEnabled = false ∧ t.ret = .call .callSuccess ∧
      t.host = { s.host with status := ⟨false, false, false, false⟩ } ∧
      t.seq.linesSeen = s.seq.linesSeen + 1 ∧ t.seq.replyTimer = 0 ∧ t.ring.readCursor = s.ring.readCursor ∧
      t.ring.slot s.ring.readCursor = ⟨s.params.okToken.length, true, 0⟩ ∧
      t.ring.writeCursor = (s.ring.writeCursor + 1) % s.params.depth ∧
      (∀ a, a < s.ring.writeCursor * s.params.slotCapacity ∨
        s.ring.writeCursor * s.params.slotCapacity + s.params.okToken.length < a →
        Memory.read t.ring.mem a = Memory.read s.ring.mem a) ∧
      t.env = { s.env with txResults := rest } ∧ t.params = s.params ∧ t.initialized = true ∧ t.slave = s.slave ∧
      t.cfg = s.cfg

/-- R190: a value line that reaches a master waiting for a value ends its register read with that value. That the line takes
one Delay, which it ends, is the model's choice (notes/assumptions/9.md and 13.md). -/
def Obligations.ValueLineIsAccepted : Prop :=
  ∀ (s : State) (rest : List Bool) (text : List Byte) (v : Word), s.params.role = .master → s.initialized = true →
    s.seq.fsm = .awaitingReply → s.seq.rxEnabled = true → s.seq.caller = .readRegister → s.seq.latch.expectation = .value →
    s.ring.sound s.params = true → Memory.wf s.ring.mem = true → 2 ≤ s.params.depth →
    s.ring.readCursor = s.ring.writeCursor → s.ring.slots[s.ring.writeCursor]? = some ⟨0, false, 0⟩ →
    decodeText s.params.tokenizer text = some v → s.params.endMarker ∉ text → text.length + 1 ≤ s.params.slotCapacity →
    s.env.txResults = true :: rest →
    ∃ t, exec (.value text) s = .next t ∧ t.seq.status = ⟨false, false, false, false⟩ ∧ t.seq.rxValue = v ∧
      t.host = { s.host with status := ⟨false, false, false, false⟩, value := v } ∧ t.seq.fsm = .idle ∧
      t.seq.rxEnabled = false ∧ t.ret = .call .callSuccess ∧
      t.ring.writeCursor = (s.ring.writeCursor + 1) % s.params.depth ∧
      (∀ a, a < s.ring.writeCursor * s.params.slotCapacity ∨
        s.ring.writeCursor * s.params.slotCapacity + text.length < a →
        Memory.read t.ring.mem a = Memory.read s.ring.mem a) ∧
      t.env = { s.env with txResults := rest } ∧ t.params = s.params ∧ t.initialized = true ∧ t.slave = s.slave ∧
      t.cfg = s.cfg

/-- R191, R200: an error line that reaches a master waiting for a value in its last attempt ends the register read with the
remote-error bit; the rest of the line is ignored and no value is delivered. That the line takes one Delay, which it ends,
is the model's choice (notes/assumptions/9.md and 13.md). -/
def Obligations.ErrorLineIsReported : Prop :=
  ∀ (s : State) (rest : List Bool) (tail : List Byte), s.params.role = .master → s.initialized = true →
    s.seq.fsm = .awaitingReply → s.seq.rxEnabled = true → s.seq.caller = .readRegister → s.seq.latch.expectation = .value →
    s.cfg.maxAttempts ≤ s.seq.attempt →
    s.ring.sound s.params = true → Memory.wf s.ring.mem = true → 2 ≤ s.params.depth →
    s.ring.readCursor = s.ring.writeCursor → s.ring.slots[s.ring.writeCursor]? = some ⟨0, false, 0⟩ →
    s.params.literalsDistinct = true → PlainLine s.params (s.params.errorToken ++ tail) →
    (s.params.errorToken ++ tail).length + 1 ≤ s.params.slotCapacity → s.env.txResults = true :: rest →
    ∃ t, exec (.error tail) s = .next t ∧ t.seq.status = ⟨false, false, false, true⟩ ∧
      t.host = { s.host with status := ⟨false, false, false, true⟩ } ∧ t.seq.fsm = .idle ∧ t.seq.rxEnabled = false ∧
      t.ret = .call .callSuccess ∧ t.seq.rxValue = s.seq.rxValue ∧
      t.ring.writeCursor = (s.ring.writeCursor + 1) % s.params.depth ∧
      (∀ a, a < s.ring.writeCursor * s.params.slotCapacity ∨
        s.ring.writeCursor * s.params.slotCapacity + (s.params.errorToken ++ tail).length < a →
        Memory.read t.ring.mem a = Memory.read s.ring.mem a) ∧
      t.env = { s.env with txResults := rest } ∧ t.params = s.params ∧ t.initialized = true ∧ t.slave = s.slave ∧
      t.cfg = s.cfg

/-- R193, R112, R190, R196: a line of any kind that is neither what the wait expects nor an error report is counted, restarts
the reply-timer, is discarded with a step of the read cursor, and the wait goes on as long as the sequence ceiling allows;
and an attempt that sees such lines, at least one, and then silence ends with `parser_error` alone (R209 (b)). Stated with
the reference tokenizer. That a line takes one Delay, which it ends, is the model's choice (notes/assumptions/9.md, 13.md). -/
def Obligations.NoiseLineKeepsTheWait : Prop :=
  (∀ (s : State) (i : Instr) (text : List Byte), lineText s.params i = some text → s.params.role = .master →
    s.initialized = true → s.seq.fsm = .awaitingReply → s.seq.rxEnabled = true → s.seq.latch.expectation ≠ .none →
    s.params.tokenizer = .reference → IsNoise s.params s.seq.latch.expectation text →
    s.ring.sound s.params = true → Memory.wf s.ring.mem = true → 2 ≤ s.params.depth →
    s.ring.readCursor = s.ring.writeCursor → s.ring.slots[s.ring.writeCursor]? = some ⟨0, false, 0⟩ →
    PlainLine s.params text → text.length + 1 ≤ s.params.slotCapacity →
    s.seq.seqTimer + s.params.pollInterval ≤ s.cfg.sequenceCeiling →
    ∃ m, exec i s = .next { s with
      ring := { s.ring with mem := m, writeCursor := (s.ring.writeCursor + 1) % s.params.depth
                            readCursor := (s.ring.readCursor + 1) % s.params.depth }
      seq := { s.seq with linesSeen := s.seq.linesSeen + 1, replyTimer := 0
                          seqTimer := s.seq.seqTimer + s.params.pollInterval }
      events := .fsm .awaitingReply :: .fsm .classifying :: .delay s.params.pollInterval :: s.events } ∧
      ∀ a, a < s.ring.writeCursor * s.params.slotCapacity ∨
        s.ring.writeCursor * s.params.slotCapacity + text.length < a → Memory.read m a = Memory.read s.ring.mem a) ∧
  (∀ (s : State) (a : AccessParams) (lines : List (List Byte)) (k : Nat) (rest : List Bool) (ds : List (List Byte)),
    MasterIdle s → accessFits s.params a = true → a.expectation ≠ .none → s.params.tokenizer = .reference →
    s.ring.sound s.params = true → Memory.wf s.ring.mem = true → 2 ≤ s.params.depth → 1 ≤ s.params.pollInterval →
    lines ≠ [] → (∀ l ∈ lines, IsNoise s.params a.expectation l ∧ PlainLine s.params l ∧
      l.length + 1 ≤ s.params.slotCapacity) →
    k = pollsUntil s.params a.timeout → (lines.length + k) * s.params.pollInterval ≤ s.cfg.sequenceCeiling →
    s.env.txResults = true :: true :: true :: true :: rest →
    s.env.deliveries = lines.map (· ++ [s.params.endMarker]) ++ List.replicate k [] ++ ds →
    ∃ t, exec (.attempt a) s = .next t ∧ t.ret = .attempt ⟨false, false, true, false⟩ ∧
      t.seq.status = ⟨false, false, true, false⟩ ∧ t.seq.fsm = .idle ∧ t.seq.rxEnabled = false ∧
      t.seq.linesSeen = lines.length ∧ t.seq.replyTimer = k * s.params.pollInterval ∧
      t.seq.seqTimer = (lines.length + k) * s.params.pollInterval ∧ t.env.deliveries = ds ∧ t.env.txResults = rest)

/-- R119, R220, R227: a line that reaches a slave and opens with the write prefix, else with the read prefix, runs the handler
of that prefix, whatever constructor carries it, and the dispatcher answers for it: OK or the payload after a success, a line
that begins with the error token after a failure (decision D25, notes/assumptions/13.md). -/
def Obligations.CommandLinesReachTheHandlers : Prop :=
  ∀ (s : State) (i : Instr) (text : List Byte), SlaveReady s → s.slave.handlersRegistered = true →
    lineText s.params i = some text → s.params.endMarker ∉ text →
    (s.params.writePrefix.isPrefixOf text = true →
      ∃ t, exec (.slaveWrite text s.params.writePrefix.length) s = .next t ∧
        exec i s = .next { t with events :=
          (if t.ret = .handler .success then .dispatcherLine (s.params.okToken ++ [s.params.endMarker])
            else .dispatcherErrorLine) :: t.events }) ∧
    (s.params.writePrefix.isPrefixOf text = false → s.params.readPrefix.isPrefixOf text = true →
      ∃ t, exec (.slaveRead text s.params.readPrefix.length) s = .next t ∧
        exec i s = .next { t with events :=
          (if t.ret = .handler .success then .dispatcherLine (t.slave.replyPayload ++ [s.params.endMarker])
            else .dispatcherErrorLine) :: t.events })

/-- R113, R119: a line of any kind (a GENERIC command, a reply, noise) that opens with neither built-in prefix never reaches a
slave block. -/
def Obligations.OtherLinesPassASlaveBy : Prop :=
  ∀ (i : Instr) (s : State) (text : List Byte), lineText s.params i = some text → s.params.endMarker ∉ text →
    isBuiltinText s.params text = false → s.params.role = .slave → exec i s = .next s

/-! ### Slave handlers -/

/-- R221: each handler begins with the turnaround delay, whatever comes of it: everything else it does comes after, and
the turnaround flag is 0 when it returns. -/
def Obligations.TurnaroundComesFirst : Prop :=
  ∀ (s : State) (text : List Byte) (pos : Nat) (i : Instr), SlaveReady s →
    (i = .slaveWrite text pos ∨ i = .slaveRead text pos) →
    ∃ t later r, exec i s = .next t ∧ t.ret = .handler r ∧ t.slave.turnaround = false ∧
      t.events = later ++ .turnaround false :: .delay s.params.turnaroundDelay :: .turnaround true :: s.events ∧
      .turnaround true ∉ later ∧ (∀ n, .delay n ∉ later) ∧
      t.ring = s.ring ∧ t.seq = s.seq ∧ t.host = s.host ∧ t.params = s.params ∧ t.cfg = s.cfg ∧
      t.initialized = s.initialized ∧ t.env.inputs = s.env.inputs ∧ t.env.txResults = s.env.txResults

/-- R234, R224, R225: for every register, value and mask the frame the master builds, handed to SLAVE_WRITE, makes it invoke
the callback with exactly these, the omitted all-bits mask restored; for every tokenizer. -/
def Obligations.WriteFrameReachesTheCallback : Prop :=
  ∀ (s : State) (reg : Byte) (value mask : Word) (callback : Nat) (b : Bool) (rest : List Bool), SlaveReady s →
    s.slave.cbWrite = some callback → s.env.cbWriteResults = b :: rest → isHexDigit s.params.separator = false →
    exec (.slaveWrite (writeFrame s.params reg value mask).dropLast s.params.writePrefix.length) s = .next { s with
      slave := { s.slave with turnaround := false }
      env := { s.env with cbWriteResults := rest }
      events := .cbWrite callback reg value mask b :: .turnaround false :: .delay s.params.turnaroundDelay ::
        .turnaround true :: s.events
      ret := .handler (if b then .success else .commandExecutionError) }

/-- R224, R225, R233, R114: SLAVE_WRITE reads an address and a value up to the end of the line, the mask then being all
bits, or an address, a value and a mask; it hands the callback exactly these and returns what the callback says. An explicit
mask field `FFFFFFFF` means the same as none. -/
def Obligations.SlaveWriteFollowsTheGrammar : Prop :=
  (∀ (s : State) (text : List Byte) (pos callback n m e : Nat) (a v k : Word) (b : Bool) (rest : List Bool), SlaveReady s →
    s.slave.cbWrite = some callback → s.env.cbWriteResults = b :: rest →
    decodeField s.params text pos .separator = some (a, n) → a.toNat ≤ 0xFF →
    ((decodeField s.params text n .separator = some (v, m) ∧
        decodeField s.params text m .endOfLine = some (k, e)) ∨
      (decodeField s.params text n .separator = none ∧
        decodeField s.params text n .endOfLine = some (v, e) ∧ k = 0xFFFFFFFF#32)) →
    exec (.slaveWrite text pos) s = .next { s with
      slave := { s.slave with turnaround := false }
      env := { s.env with cbWriteResults := rest }
      events := .cbWrite callback (a.setWidth 8) v k b :: .turnaround false :: .delay s.params.turnaroundDelay ::
        .turnaround true :: s.events
      ret := .handler (if b then .success else .commandExecutionError) }) ∧
  (∀ (s : State) (reg : Byte) (value : Word), SlaveReady s → isHexDigit s.params.separator = false →
    exec (.slaveWrite ((writeFrame s.params reg value 0xFFFFFFFF#32).dropLast ++ [s.params.separator] ++ List.replicate 8 0x46#8)
        s.params.writePrefix.length) s =
      exec (.slaveWrite (writeFrame s.params reg value 0xFFFFFFFF#32).dropLast s.params.writePrefix.length) s)

/-- R234, R228, R229, R230: the read frame the master builds, handed to SLAVE_READ, makes it invoke the callback once with
that register and reply with the minimal-hex text of the value, which every tokenizer decodes to the value again. -/
def Obligations.ReadFrameReturnsTheValue : Prop :=
  ∀ (s : State) (reg : Byte) (v : Word) (callback : Nat) (rest : List (Option Word)), SlaveReady s →
    s.slave.cbRead = some callback → s.env.cbReadResults = some v :: rest →
    exec (.slaveRead (readFrame s.params reg).dropLast s.params.readPrefix.length) s = .next { s with
      slave := { s.slave with turnaround := false, replyPayload := minhex v 4 }
      env := { s.env with cbReadResults := rest }
      events := .sendReply (minhex v 4) :: .cbRead callback reg (some v) :: .turnaround false ::
        .delay s.params.turnaroundDelay :: .turnaround true :: s.events
      ret := .handler .success } ∧
    ∀ p : Params, decodeLineValue p (minhex v 4) = some v

/-- R226, R231, R232: the failures of the handlers. An absent callback, fields that do not parse and an address above 0xFF
give CommandExecutionError without a callback; a failing callback gives it after its one invocation. No payload is written
and no reply is signalled. -/
def Obligations.HandlerFailures : Prop :=
  ∀ (s : State) (text : List Byte) (pos : Nat), SlaveReady s →
    (s.slave.cbWrite = none ∨ decodeField s.params text pos .separator = none ∨
        (∃ f n, decodeField s.params text pos .separator = some (f, n) ∧
          (0xFF < f.toNat ∨
            (decodeField s.params text n .separator = none ∧
              decodeField s.params text n .endOfLine = none) ∨
            (∃ v m, decodeField s.params text n .separator = some (v, m) ∧
              decodeField s.params text m .endOfLine = none))) →
      exec (.slaveWrite text pos) s = .next { s with
        slave := { s.slave with turnaround := false }
        events := .turnaround false :: .delay s.params.turnaroundDelay :: .turnaround true :: s.events
        ret := .handler .commandExecutionError }) ∧
    (s.slave.cbRead = none ∨ decodeField s.params text pos .endOfLine = none ∨
        (∃ f n, decodeField s.params text pos .endOfLine = some (f, n) ∧ 0xFF < f.toNat) →
      exec (.slaveRead text pos) s = .next { s with
        slave := { s.slave with turnaround := false }
        events := .turnaround false :: .delay s.params.turnaroundDelay :: .turnaround true :: s.events
        ret := .handler .commandExecutionError }) ∧
    (∀ callback f n rest, s.slave.cbRead = some callback → s.env.cbReadResults = none :: rest →
        decodeField s.params text pos .endOfLine = some (f, n) → f.toNat ≤ 0xFF →
      exec (.slaveRead text pos) s = .next { s with
        slave := { s.slave with turnaround := false }
        env := { s.env with cbReadResults := rest }
        events := .cbRead callback (f.setWidth 8) none :: .turnaround false :: .delay s.params.turnaroundDelay ::
          .turnaround true :: s.events
        ret := .handler .commandExecutionError }) ∧
    (∀ callback n m e a v k rest, s.slave.cbWrite = some callback → s.env.cbWriteResults = false :: rest →
        decodeField s.params text pos .separator = some (a, n) → a.toNat ≤ 0xFF →
        decodeField s.params text n .separator = some (v, m) →
        decodeField s.params text m .endOfLine = some (k, e) →
      ∃ t, exec (.slaveWrite text pos) s = .next t ∧ t.ret = .handler .commandExecutionError ∧
        t.slave.replyPayload = s.slave.replyPayload ∧ t.env.cbWriteResults = rest) ∧
    (∀ callback n e a v rest, s.slave.cbWrite = some callback → s.env.cbWriteResults = false :: rest →
        decodeField s.params text pos .separator = some (a, n) → a.toNat ≤ 0xFF →
        decodeField s.params text n .separator = none →
        decodeField s.params text n .endOfLine = some (v, e) →
      ∃ t, exec (.slaveWrite text pos) s = .next t ∧ t.ret = .handler .commandExecutionError ∧
        t.slave.replyPayload = s.slave.replyPayload ∧ t.env.cbWriteResults = rest)

/-! ### Scan -/

/-- R244: with no room in the host's list a scan sends nothing and finds nothing. -/
def Obligations.ScanWithoutRoomSendsNothing : Prop :=
  ∀ s : State, MasterIdle s →
    ∃ t, exec (.scan true 0) s = .next t ∧ t.ret = .call .callSuccess ∧ t.events = s.events ∧ t.ring = s.ring ∧
      t.host = { s.host with found := 0, list := [] } ∧ t.env = s.env ∧ t.seq.fsm = .idle ∧
      t.seq.rxEnabled = s.seq.rxEnabled ∧ t.seq.status = s.seq.status ∧ t.params = s.params ∧ t.cfg = s.cfg ∧
      t.slave = s.slave ∧ t.initialized = s.initialized

/-- R240, R242, R243, R244, R247: when every address answers its probe with the value line of some identity value, the scan
probes the addresses below some `m` and its list holds, in ascending order, one descriptor for each of these whose value
embeds that very address. `m` is the number of addresses, or the scan stopped early, at the first `m` that fills the list. -/
def Obligations.ScanListsTheConsistentNodes : Prop :=
  ∀ (s : State) (capacity n : Nat) (vs : List Word) (rest : List Bool) (ds : List (List Byte)),
    MasterIdle s → s.ring.sound s.params = true → Memory.wf s.ring.mem = true → 2 ≤ s.params.depth →
    9 ≤ s.params.slotCapacity → isHexDigit s.params.endMarker = false →
    (readFrame s.params s.params.nodeIdReg).length ≤ s.params.txCapacity →
    n = s.params.lastValidAddress + 1 → vs.length = n →
    s.env.txResults = List.replicate (4 * n) true ++ rest →
    s.env.deliveries = vs.map (fun v => minhex v 4 ++ [s.params.endMarker]) ++ ds →
    ∃ t m, exec (.scan true capacity) s = .next t ∧ t.ret = .call .callSuccess ∧ t.seq.fsm = .idle ∧
      m ≤ n ∧ (m = n ∨ (consistentNodes s.params vs m).length = capacity) ∧
      (∀ j, j < m → (consistentNodes s.params vs j).length < capacity) ∧
      t.host = { s.host with list := consistentNodes s.params vs m, found := (consistentNodes s.params vs m).length } ∧
      t.env.deliveries = (vs.drop m).map (fun v => minhex v 4 ++ [s.params.endMarker]) ++ ds ∧
      t.env.txResults = List.replicate (4 * (n - m)) true ++ rest

/-- R245, R249, R241: on a silent bus a scan makes one probe per address, each as long as R208 says, and finds nothing,
whatever `MAX_ATTEMPTS` is. -/
def Obligations.ScanOfASilentBusFindsNothing : Prop :=
  ∀ (s : State) (capacity n k : Nat) (rest : List Bool), MasterIdle s → 1 ≤ s.params.pollInterval → 1 ≤ capacity →
    (readFrame s.params s.params.nodeIdReg).length ≤ s.params.txCapacity →
    k = min (pollsUntil s.params s.params.scanTimeout) (pollsUntil s.params s.cfg.sequenceCeiling) →
    s.env.txResults = List.replicate (4 * (s.params.lastValidAddress + 1)) true ++ rest →
    (s.params.lastValidAddress + 1) * k ≤ n → s.env.deliveries = List.replicate n [] →
    ∃ t, exec (.scan true capacity) s = .next t ∧ t.ret = .call .callSuccess ∧ t.host.list = [] ∧ t.host.found = 0 ∧
      t.seq.fsm = .idle ∧ t.env.txResults = rest ∧ t.env.txDest = s.params.lastValidAddress ∧
      t.env.deliveries = List.replicate (n - (s.params.lastValidAddress + 1) * k) []

/-- R246: a transport failure in a probe, the first or a later one, ends the scan at once; the descriptors already written
stay written and the number found is not returned. That the list is emptied when the scan starts is the model's choice
(notes/assumptions/18.md). -/
def Obligations.ScanAbortsOnTransportFailure : Prop :=
  (∀ (s : State) (capacity : Nat) (b : Bool) (rest : List Bool), MasterIdle s → 1 ≤ capacity →
    (readFrame s.params s.params.nodeIdReg).length ≤ s.params.txCapacity → s.env.txResults = false :: b :: rest →
    ∃ t, exec (.scan true capacity) s = .next t ∧ t.ret = .call .transportError ∧ t.host = { s.host with list := [] } ∧
      t.seq.fsm = .idle ∧ t.seq.rxEnabled = false ∧ t.env.txResults = rest ∧
      t.events = .fsm .idle :: .tx .disableReceive b :: .tx (.setDestination 0) false :: .fsm .sending :: s.events) ∧
  (∀ (s : State) (capacity call : Nat) (vs : List Word) (b : Bool) (rest : List Bool) (ds : List (List Byte)),
    MasterIdle s → s.ring.sound s.params = true → Memory.wf s.ring.mem = true → 2 ≤ s.params.depth →
    9 ≤ s.params.slotCapacity → isHexDigit s.params.endMarker = false →
    (readFrame s.params s.params.nodeIdReg).length ≤ s.params.txCapacity →
    vs.length ≤ s.params.lastValidAddress → (consistentNodes s.params vs vs.length).length < capacity → call < 3 →
    s.env.txResults = List.replicate (4 * vs.length + call) true ++ false :: b :: rest →
    s.env.deliveries = vs.map (fun v => minhex v 4 ++ [s.params.endMarker]) ++ ds →
    ∃ t, exec (.scan true capacity) s = .next t ∧ t.ret = .call .transportError ∧
      t.host = { s.host with list := consistentNodes s.params vs vs.length } ∧
      t.seq.fsm = .idle ∧ t.seq.rxEnabled = false ∧ t.env.txResults = rest ∧ t.env.deliveries = ds)

/-! ### The machine -/

/-- What a step is. An input that is a line runs the operation its bytes decode to by the receiver's role (R119), a call runs
that operation, and while an access waits its Delay ends when no byte or line comes first (R80: bytes arrive only inside a
Delay or between operations). How the inputs are queued is the model's choice (notes/assumptions/6.md): the spec has no
instruction stream (R90), and after reset nothing runs until an operation is invoked (R291). -/
def Obligations.StepRunsTheNextOperation : Prop :=
  ∀ (s : State) (rest : List Input),
    (∀ bytes i, s.env.inputs = .line bytes :: rest → decodeLine s.params (sideOf s.params.role) bytes = .ok i →
      step s = exec i { s with env := { s.env with inputs := rest } }) ∧
    (∀ bytes e, s.env.inputs = .line bytes :: rest → decodeLine s.params (sideOf s.params.role) bytes = .error e →
      step s = .refused (.undecodable e)) ∧
    (∀ i, s.env.inputs = .call i :: rest → s.seq.fsm ≠ .awaitingReply ∨ arrives i = true →
      step s = exec i { s with env := { s.env with inputs := rest } }) ∧
    (∀ i d ds, s.env.inputs = .call i :: rest → s.seq.fsm = .awaitingReply → arrives i = false →
      s.env.deliveries = d :: ds → step s = { s with env := { s.env with deliveries := ds } }.poll d) ∧
    (∀ d ds, s.env.inputs = [] → s.seq.fsm = .awaitingReply → s.env.deliveries = d :: ds →
      step s = { s with env := { s.env with deliveries := ds } }.poll d) ∧
    (s.env.inputs = [] → s.seq.fsm ≠ .awaitingReply → step s = .next s)

/-- R102, R103, R107, R108, R109, R112: lines written out byte by byte decode to the operations they stand for. A sanity
statement. -/
def Obligations.LinesDecode : Prop :=
  decodeLine (Params.reference .slave) .command
    [0x41#8, 0x54#8, 0x24#8, 0x57#8, 0x3D#8, 0x30#8, 0x32#8, 0x2C#8, 0x46#8, 0x46#8, 0x0D#8] =
      .ok (.write [0x30#8, 0x32#8, 0x2C#8, 0x46#8, 0x46#8]) ∧
  decodeLine (Params.reference .slave) .command [0x41#8, 0x54#8, 0x24#8, 0x52#8, 0x3D#8, 0x30#8, 0x32#8, 0x0D#8] =
    .ok (.read [0x30#8, 0x32#8]) ∧
  decodeLine (Params.reference .slave) .command [0x41#8, 0x54#8, 0x0D#8] = .ok (.generic [0x41#8, 0x54#8]) ∧
  decodeLine (Params.reference .master) .reply [0x4F#8, 0x4B#8, 0x0D#8] = .ok .ok ∧
  decodeLine (Params.reference .master) .reply [0x45#8, 0x52#8, 0x52#8, 0x4F#8, 0x52#8, 0x5F#8, 0x31#8, 0x0D#8] =
    .ok (.error [0x5F#8, 0x31#8]) ∧
  decodeLine (Params.reference .master) .reply [0x46#8, 0x46#8, 0x0D#8] = .ok (.value [0x46#8, 0x46#8]) ∧
  decodeLine (Params.reference .master) .reply [0x0A#8, 0x4F#8, 0x4B#8, 0x0D#8] = .ok (.noise [0x0A#8, 0x4F#8, 0x4B#8])

/-- R102 to R112, R119: decoding the encoding of a well-formed wire operation gives it back, for every operand and every
set of literals that can be told apart, and what the decoder reads is well-formed. -/
def Obligations.DecodeInvertsEncode : Prop :=
  ∀ (p : Params), p.literalsDistinct = true →
    (∀ (i : Instr) (bytes : List Byte), i.wf p = true → encode p i = some bytes →
      decodeLine p (wireSide p i) bytes = .ok i) ∧
    (∀ (side : Side) (bytes : List Byte) (i : Instr), decodeLine p side bytes = .ok i →
      isLine i = true ∧ i.wf p = true ∧ encode p i = some bytes)

/-- R27, R29 to R33, R41, R42, R47, R197, R210: the invariant of the machine is kept by every step. -/
def Obligations.StepKeepsTheInvariant : Prop :=
  ∀ s t : State, s.inv = true → step s = .next t → t.inv = true

/-- The machine after reset, and any instance before its first INIT, meets the invariant. -/
def Obligations.ResetMeetsTheInvariant : Prop :=
  State.reset.inv = true ∧ ∀ p : Params, (State.built p).inv = true

/-- The slot bytes keep their canonical form in every step from every state whose memory has it, so that equal memories
are equal data. -/
def Obligations.StepKeepsMemoryCanonical : Prop :=
  ∀ s t : State, Memory.wf s.ring.mem = true → step s = .next t → Memory.wf t.ring.mem = true
end

