-- ==== Sys2Proof/Laws/Memory.lean ====
section
/-! SUPPORT. The laws of the slot byte store: read after write, and that a write keeps the canonical form. -/

namespace Sys2Proof.Machine

@[simp] theorem Memory.read_nil (a : Nat) : Memory.read [] a = 0 := rfl

/-- Below the first address of a canonical store nothing is listed. -/
theorem Memory.read_of_lt {m : Memory} {lo a : Nat} (h : Memory.wfFrom lo m = true) (ha : a < lo) :
    Memory.read m a = 0 := by
  induction m generalizing lo with
  | nil => rfl
  | cons c m ih =>
    obtain ⟨x, y⟩ := c
    simp only [Memory.wfFrom, Bool.and_eq_true, decide_eq_true_eq] at h
    have hx : x ≠ a := by omega
    simp only [Memory.read, if_neg hx]
    exact ih h.2 (by omega)

/-- A canonical store stays one when the bound is lowered. -/
theorem Memory.wfFrom_mono {m : Memory} {lo lo' : Nat} (h : Memory.wfFrom lo m = true) (hl : lo' ≤ lo) :
    Memory.wfFrom lo' m = true := by
  cases m with
  | nil => rfl
  | cons c m =>
    obtain ⟨x, y⟩ := c
    simp only [Memory.wfFrom, Bool.and_eq_true, decide_eq_true_eq] at h ⊢
    exact ⟨⟨by omega, h.1.2⟩, h.2⟩

/-- The byte written is the byte read. -/
theorem Memory.read_write_same {m : Memory} {lo a : Nat} (b : Byte) (h : Memory.wfFrom lo m = true) :
    Memory.read (Memory.write m a b) a = b := by
  induction m generalizing lo with
  | nil => simp only [Memory.write]; split <;> simp_all [Memory.read]
  | cons c m ih =>
    obtain ⟨x, y⟩ := c
    have h' := h
    simp only [Memory.wfFrom, Bool.and_eq_true, decide_eq_true_eq] at h
    simp only [Memory.write]
    split
    · next hlt =>
      split
      · next hb =>
        rw [hb]
        refine Memory.read_of_lt (lo := x) ?_ hlt
        simp only [Memory.wfFrom, Bool.and_eq_true, decide_eq_true_eq]
        exact ⟨⟨Nat.le_refl x, h.1.2⟩, h.2⟩
      · simp [Memory.read]
    · split
      · next hax =>
        split
        · next hb => rw [hb]; exact Memory.read_of_lt h.2 (by omega)
        · simp [Memory.read]
      · next hax =>
        have hx : x ≠ a := fun e => hax e.symm
        simp only [Memory.read, if_neg hx]
        exact ih h.2

/-- Every other byte reads as before. -/
theorem Memory.read_write_other (m : Memory) {a c : Nat} (b : Byte) (hc : c ≠ a) :
    Memory.read (Memory.write m a b) c = Memory.read m c := by
  induction m with
  | nil => simp only [Memory.write]; split <;> simp_all [Memory.read, hc.symm]
  | cons e m ih =>
    obtain ⟨x, y⟩ := e
    simp only [Memory.write]
    split
    · split
      · rfl
      · simp [Memory.read, hc.symm]
    · split
      · next hax =>
        have hx : ¬ x = c := fun e => hc (e.symm.trans hax.symm)
        split <;> simp [Memory.read, hx, hc.symm]
      · simp only [Memory.read, ih]

/-- A write keeps the canonical form. -/
theorem Memory.write_wfFrom {m : Memory} {lo a : Nat} (b : Byte) (h : Memory.wfFrom lo m = true) (ha : lo ≤ a) :
    Memory.wfFrom lo (Memory.write m a b) = true := by
  induction m generalizing lo with
  | nil =>
    simp only [Memory.write]
    split
    · rfl
    · next hb => simp [Memory.wfFrom, ha]; exact hb
  | cons e m ih =>
    obtain ⟨x, y⟩ := e
    have h' := h
    simp only [Memory.wfFrom, Bool.and_eq_true, decide_eq_true_eq] at h
    simp only [Memory.write]
    split
    · split
      · exact h'
      · next hlt hb =>
        simp only [Memory.wfFrom, Bool.and_eq_true, decide_eq_true_eq, bne_iff_ne]
        exact ⟨⟨ha, hb⟩, ⟨by omega, bne_iff_ne.mp h.1.2⟩, h.2⟩
    · split
      · next hax =>
        subst hax
        split
        · exact Memory.wfFrom_mono h.2 (by omega)
        · next hb =>
          simp only [Memory.wfFrom, Bool.and_eq_true, decide_eq_true_eq, bne_iff_ne]
          exact ⟨⟨ha, hb⟩, h.2⟩
      · next hlt hne =>
        simp only [Memory.wfFrom, Bool.and_eq_true, decide_eq_true_eq]
        exact ⟨h.1, ih h.2 (by omega)⟩

/-- A write keeps the canonical form of a whole store. -/
theorem Memory.write_wf {m : Memory} (a : Nat) (b : Byte) (h : Memory.wf m = true) :
    Memory.wf (Memory.write m a b) = true := Memory.write_wfFrom b h (Nat.zero_le a)

/-- The bytes up to the first NUL: a text without a NUL that a NUL follows is read whole. -/
theorem Memory.text_eq {m : Memory} {text : List Byte} {a n : Nat}
    (hb : ∀ j (h : j < text.length), Memory.read m (a + j) = text[j]) (h0 : nul ∉ text)
    (hn : Memory.read m (a + text.length) = nul) (hl : text.length < n) : Memory.text m a n = text := by
  induction text generalizing a n with
  | nil =>
    obtain ⟨n, rfl⟩ : ∃ k, n = k + 1 := ⟨n - 1, by simp at hl; omega⟩
    simp only [List.length_nil, Nat.add_zero] at hn
    simp [Memory.text, hn]
  | cons b text ih =>
    obtain ⟨n, rfl⟩ : ∃ k, n = k + 1 := ⟨n - 1, by simp at hl; omega⟩
    have hfirst : Memory.read m a = b := by
      have h0 := hb 0 (by simp)
      rwa [Nat.add_zero] at h0
    have hne : b ≠ nul := fun e => h0 (by simp [e])
    have htail : Memory.text m (a + 1) n = text := by
      apply ih
      · intro j hj
        have := hb (j + 1) (by simp; omega)
        simpa [Nat.add_assoc, Nat.add_comm 1 j] using this
      · exact fun hm => h0 (List.mem_cons_of_mem _ hm)
      · simpa [Nat.add_assoc, Nat.add_comm 1] using hn
      · simp at hl; omega
    simp [Memory.text, hfirst, hne, htail]

end Sys2Proof.Machine
end

