-- ==== Sys2Proof/Laws/Ring.lean ====
section
/-! SUPPORT. What the ring buffer operations can do, said once per operation. -/

namespace Sys2Proof.Machine

variable {p : Params} {r r' : Ring}

/-- PUSH_BYTE, if it answers at all, is one of two cases: the terminator or an ordinary byte (R141, R142). -/
theorem Ring.push_cases {b : Byte} (h : r.push p b = some r') :
    (b = p.endMarker ∧ r.target.len < p.slotCapacity ∧
      r' = { slots := r.slots.set r.writeCursor { r.target with complete := true }
             mem := Memory.write r.mem (slotByte p r.writeCursor r.target.len) nul
             writeCursor := (r.writeCursor + 1) % p.depth, readCursor := r.readCursor }) ∨
    (b ≠ p.endMarker ∧ r.target.len + 1 < p.slotCapacity ∧
      r' = { slots := r.slots.set r.writeCursor { r.target with len := r.target.len + 1 }
             mem := Memory.write r.mem (slotByte p r.writeCursor r.target.len) b
             writeCursor := r.writeCursor, readCursor := r.readCursor }) := by
  simp only [Ring.push] at h
  split at h
  · next hb =>
    split at h
    · cases h
    · exact .inl ⟨hb, by omega, (Option.some.inj h).symm⟩
  · next hb =>
    split at h
    · cases h
    · exact .inr ⟨hb, by omega, (Option.some.inj h).symm⟩

/-- PUSH_BYTE never writes the read cursor (R150). -/
theorem Ring.push_readCursor {b : Byte} (h : r.push p b = some r') : r'.readCursor = r.readCursor := by
  obtain ⟨-, -, rfl⟩ | ⟨-, -, rfl⟩ := Ring.push_cases h <;> rfl

/-- PUSH_BYTE keeps the slot bytes canonical. -/
theorem Ring.push_wf {b : Byte} (h : r.push p b = some r') (hm : Memory.wf r.mem = true) : Memory.wf r'.mem = true := by
  obtain ⟨-, -, rfl⟩ | ⟨-, -, rfl⟩ := Ring.push_cases h <;> exact Memory.write_wf _ _ hm

/-- PUSH_BYTE keeps the number of slots. -/
theorem Ring.push_length {b : Byte} (h : r.push p b = some r') : r'.slots.length = r.slots.length := by
  obtain ⟨-, -, rfl⟩ | ⟨-, -, rfl⟩ := Ring.push_cases h <;> simp

/-- The ring's bounds, one by one. -/
theorem Ring.sound_iff : r.sound p = true ↔
    r.slots.length = p.depth ∧ r.writeCursor < p.depth ∧ r.readCursor < p.depth ∧
      ∀ sl ∈ r.slots, sl.len < p.slotCapacity ∧ sl.cursor = 0 := by
  simp [Ring.sound, and_assoc]

/-- In a sound ring the slot PUSH_BYTE works on has the bounds of a slot. -/
theorem Ring.target_bounds (h : r.sound p = true) : r.target.len < p.slotCapacity ∧ r.target.cursor = 0 := by
  obtain ⟨hl, hw, -, hs⟩ := Ring.sound_iff.mp h
  have hm : r.slot r.writeCursor ∈ r.slots := by
    have hlt : r.writeCursor < r.slots.length := by omega
    simp [Ring.slot, List.getD, List.getElem?_eq_getElem hlt, List.getElem_mem]
  have hb := hs _ hm
  unfold Ring.target
  split
  · exact ⟨by have := hb.1; simp only [Slot.empty]; omega, rfl⟩
  · exact hb

/-- PUSH_BYTE keeps the ring's bounds. -/
theorem Ring.push_sound {b : Byte} (h : r.push p b = some r') (hs : r.sound p = true) : r'.sound p = true := by
  have ht := Ring.target_bounds hs
  obtain ⟨hl, hw, hr, hsl⟩ := Ring.sound_iff.mp hs
  obtain ⟨-, hlen, rfl⟩ | ⟨-, hlen, rfl⟩ := Ring.push_cases h
  all_goals
    refine Ring.sound_iff.mpr ⟨by simpa using hl, ?_, hr, fun sl hm => ?_⟩
    · first | exact hw | exact Nat.mod_lt _ (by omega)
    · rcases List.mem_or_eq_of_mem_set hm with hm | rfl
      · exact hsl sl hm
      · exact ⟨hlen, ht.2⟩

/-- What holds of a ring and survives PUSH_BYTE survives any number of bytes. -/
theorem Ring.pushAll_keeps {P : Ring → Prop} (hP : ∀ r b r', r.push p b = some r' → P r → P r')
    {bytes : List Byte} (h : r.pushAll p bytes = some r') (h0 : P r) : P r' := by
  induction bytes generalizing r with
  | nil => simp only [Ring.pushAll, Option.some.injEq] at h; exact h ▸ h0
  | cons b bs ih =>
    simp only [Ring.pushAll] at h
    split at h
    · next q hq => exact ih h (hP _ _ _ hq h0)
    · cases h

/-- Bytes pushed one list after the other. -/
theorem Ring.pushAll_append (xs ys : List Byte) : r.pushAll p (xs ++ ys) = (r.pushAll p xs).bind (fun q => q.pushAll p ys) := by
  induction xs generalizing r with
  | nil => rfl
  | cons b xs ih =>
    simp only [List.cons_append, Ring.pushAll]
    split
    · exact ih
    · rfl

/-- Delivering no byte changes no ring. -/
@[simp] theorem Ring.pushAll_nil : r.pushAll p [] = some r := rfl

/-- FLUSH_ALL leaves as many empty slots. -/
theorem Ring.flushAll_slots : r.flushAll.slots = List.replicate r.slots.length Slot.empty := by
  simp [Ring.flushAll, List.map_const']

@[simp] theorem Ring.flushAll_mem : r.flushAll.mem = r.mem := rfl
@[simp] theorem Ring.flushAll_writeCursor : r.flushAll.writeCursor = r.writeCursor := rfl
@[simp] theorem Ring.resync_mem : r.resync.mem = r.mem := rfl
@[simp] theorem Ring.resync_writeCursor : r.resync.writeCursor = r.writeCursor := rfl
@[simp] theorem Ring.resync_readCursor : r.resync.readCursor = r.writeCursor := rfl
theorem Ring.resync_slots : r.resync.slots = List.replicate r.slots.length Slot.empty := Ring.flushAll_slots
@[simp] theorem Ring.discard_mem : (r.discard p).mem = r.mem := rfl
@[simp] theorem Ring.discard_writeCursor : (r.discard p).writeCursor = r.writeCursor := rfl

/-- After the flush before a send nothing is pending (R183). -/
@[simp] theorem Ring.resync_hasPending : r.resync.hasPending = false := by simp [Ring.hasPending]

/-- The flush before a send keeps the ring's bounds. -/
theorem Ring.resync_sound (hs : r.sound p = true) : r.resync.sound p = true := by
  have ht := (Ring.target_bounds hs).1
  obtain ⟨hl, hw, -, -⟩ := Ring.sound_iff.mp hs
  refine Ring.sound_iff.mpr ⟨by simpa [Ring.resync_slots] using hl, hw, hw, fun sl hm => ?_⟩
  rw [Ring.resync_slots] at hm
  rw [(List.mem_replicate.mp hm).2]
  exact ⟨by simp only [Slot.empty]; omega, rfl⟩

/-- A flush of one slot keeps the ring's bounds. -/
theorem Ring.flush_sound (i : Nat) (hs : r.sound p = true) : (r.flush i).sound p = true := by
  have ht := (Ring.target_bounds hs).1
  obtain ⟨hl, hw, hr, hsl⟩ := Ring.sound_iff.mp hs
  refine Ring.sound_iff.mpr ⟨by simpa [Ring.flush] using hl, hw, hr, fun sl hm => ?_⟩
  rcases List.mem_or_eq_of_mem_set hm with hm | rfl
  · exact hsl sl hm
  · exact ⟨by simp only [Slot.empty]; omega, rfl⟩

/-- The discard of a line keeps the ring's bounds (R193). -/
theorem Ring.discard_sound (hs : r.sound p = true) : (r.discard p).sound p = true := by
  obtain ⟨hl, hw, -, hsl⟩ := Ring.sound_iff.mp (Ring.flush_sound r.readCursor hs)
  exact Ring.sound_iff.mpr ⟨hl, hw, Nat.mod_lt _ (by omega), hsl⟩

end Sys2Proof.Machine
end

