-- ==== Sys2Proof/Laws/State.lean ====
section
/-! SUPPORT. What each update of the state leaves in each of its parts, so that no proof unfolds an update. -/

namespace Sys2Proof.Machine

variable (s : State)

/-! ### `State.emit` -/

@[simp] theorem State.emit_params (e : Event) : (s.emit e).params = s.params := rfl
@[simp] theorem State.emit_cfg (e : Event) : (s.emit e).cfg = s.cfg := rfl
@[simp] theorem State.emit_initialized (e : Event) : (s.emit e).initialized = s.initialized := rfl
@[simp] theorem State.emit_ring (e : Event) : (s.emit e).ring = s.ring := rfl
@[simp] theorem State.emit_seq (e : Event) : (s.emit e).seq = s.seq := rfl
@[simp] theorem State.emit_slave (e : Event) : (s.emit e).slave = s.slave := rfl
@[simp] theorem State.emit_host (e : Event) : (s.emit e).host = s.host := rfl
@[simp] theorem State.emit_env (e : Event) : (s.emit e).env = s.env := rfl
@[simp] theorem State.emit_events (e : Event) : (s.emit e).events = e :: s.events := rfl
@[simp] theorem State.emit_ret (e : Event) : (s.emit e).ret = s.ret := rfl

/-! ### `State.goto` -/

@[simp] theorem State.goto_params (f : Fsm) : (s.goto f).params = s.params := rfl
@[simp] theorem State.goto_cfg (f : Fsm) : (s.goto f).cfg = s.cfg := rfl
@[simp] theorem State.goto_initialized (f : Fsm) : (s.goto f).initialized = s.initialized := rfl
@[simp] theorem State.goto_ring (f : Fsm) : (s.goto f).ring = s.ring := rfl
@[simp] theorem State.goto_seq (f : Fsm) : (s.goto f).seq = { s.seq with fsm := f } := rfl
@[simp] theorem State.goto_slave (f : Fsm) : (s.goto f).slave = s.slave := rfl
@[simp] theorem State.goto_host (f : Fsm) : (s.goto f).host = s.host := rfl
@[simp] theorem State.goto_env (f : Fsm) : (s.goto f).env = s.env := rfl
@[simp] theorem State.goto_events (f : Fsm) : (s.goto f).events = .fsm f :: s.events := rfl
@[simp] theorem State.goto_ret (f : Fsm) : (s.goto f).ret = s.ret := rfl

/-! ### `State.returns` -/

@[simp] theorem State.returns_params (r : Ret) : (s.returns r).params = s.params := rfl
@[simp] theorem State.returns_cfg (r : Ret) : (s.returns r).cfg = s.cfg := rfl
@[simp] theorem State.returns_initialized (r : Ret) : (s.returns r).initialized = s.initialized := rfl
@[simp] theorem State.returns_ring (r : Ret) : (s.returns r).ring = s.ring := rfl
@[simp] theorem State.returns_seq (r : Ret) : (s.returns r).seq = s.seq := rfl
@[simp] theorem State.returns_slave (r : Ret) : (s.returns r).slave = s.slave := rfl
@[simp] theorem State.returns_host (r : Ret) : (s.returns r).host = s.host := rfl
@[simp] theorem State.returns_env (r : Ret) : (s.returns r).env = s.env := rfl
@[simp] theorem State.returns_events (r : Ret) : (s.returns r).events = s.events := rfl
@[simp] theorem State.returns_ret (r : Ret) : (s.returns r).ret = r := rfl

/-! ### `State.finish` -/

@[simp] theorem State.finish_params (r : Ret) : (s.finish r).params = s.params := rfl
@[simp] theorem State.finish_cfg (r : Ret) : (s.finish r).cfg = s.cfg := rfl
@[simp] theorem State.finish_initialized (r : Ret) : (s.finish r).initialized = s.initialized := rfl
@[simp] theorem State.finish_ring (r : Ret) : (s.finish r).ring = s.ring := rfl
@[simp] theorem State.finish_seq (r : Ret) : (s.finish r).seq = { s.seq with caller := .none } := rfl
@[simp] theorem State.finish_slave (r : Ret) : (s.finish r).slave = s.slave := rfl
@[simp] theorem State.finish_host (r : Ret) : (s.finish r).host = s.host := rfl
@[simp] theorem State.finish_env (r : Ret) : (s.finish r).env = s.env := rfl
@[simp] theorem State.finish_events (r : Ret) : (s.finish r).events = s.events := rfl
@[simp] theorem State.finish_ret (r : Ret) : (s.finish r).ret = r := rfl

/-! ### `State.callerError` -/

@[simp] theorem State.callerError_params : (s.callerError).params = s.params := rfl
@[simp] theorem State.callerError_cfg : (s.callerError).cfg = s.cfg := rfl
@[simp] theorem State.callerError_initialized : (s.callerError).initialized = s.initialized := rfl
@[simp] theorem State.callerError_ring : (s.callerError).ring = s.ring := rfl
@[simp] theorem State.callerError_seq : (s.callerError).seq = s.seq := rfl
@[simp] theorem State.callerError_slave : (s.callerError).slave = s.slave := rfl
@[simp] theorem State.callerError_host : (s.callerError).host = s.host := rfl
@[simp] theorem State.callerError_env : (s.callerError).env = s.env := rfl
@[simp] theorem State.callerError_events : (s.callerError).events = s.events := rfl
@[simp] theorem State.callerError_ret : (s.callerError).ret = .call .callerError := rfl

/-! ### `State.advanceTimers` -/

@[simp] theorem State.advanceTimers_params : (s.advanceTimers).params = s.params := rfl
@[simp] theorem State.advanceTimers_cfg : (s.advanceTimers).cfg = s.cfg := rfl
@[simp] theorem State.advanceTimers_initialized : (s.advanceTimers).initialized = s.initialized := rfl
@[simp] theorem State.advanceTimers_ring : (s.advanceTimers).ring = s.ring := rfl
@[simp] theorem State.advanceTimers_seq : (s.advanceTimers).seq = { s.seq with replyTimer := s.seq.replyTimer + s.params.pollInterval, seqTimer := s.seq.seqTimer + s.params.pollInterval } := rfl
@[simp] theorem State.advanceTimers_slave : (s.advanceTimers).slave = s.slave := rfl
@[simp] theorem State.advanceTimers_host : (s.advanceTimers).host = s.host := rfl
@[simp] theorem State.advanceTimers_env : (s.advanceTimers).env = s.env := rfl
@[simp] theorem State.advanceTimers_events : (s.advanceTimers).events = s.events := rfl
@[simp] theorem State.advanceTimers_ret : (s.advanceTimers).ret = s.ret := rfl

/-! ### `State.discardLine` -/

@[simp] theorem State.discardLine_params : (s.discardLine).params = s.params := rfl
@[simp] theorem State.discardLine_cfg : (s.discardLine).cfg = s.cfg := rfl
@[simp] theorem State.discardLine_initialized : (s.discardLine).initialized = s.initialized := rfl
@[simp] theorem State.discardLine_ring : (s.discardLine).ring = s.ring.discard s.params := rfl
@[simp] theorem State.discardLine_seq : (s.discardLine).seq = { s.seq with fsm := .awaitingReply } := rfl
@[simp] theorem State.discardLine_slave : (s.discardLine).slave = s.slave := rfl
@[simp] theorem State.discardLine_host : (s.discardLine).host = s.host := rfl
@[simp] theorem State.discardLine_env : (s.discardLine).env = s.env := rfl
@[simp] theorem State.discardLine_events : (s.discardLine).events = .fsm .awaitingReply :: s.events := rfl
@[simp] theorem State.discardLine_ret : (s.discardLine).ret = s.ret := rfl

/-! ### `State.buildFrame` -/

@[simp] theorem State.buildFrame_params (b : Bool) (f : List Byte) : (s.buildFrame b f).params = s.params := by
  cases b <;> rfl
@[simp] theorem State.buildFrame_cfg (b : Bool) (f : List Byte) : (s.buildFrame b f).cfg = s.cfg := by
  cases b <;> rfl
@[simp] theorem State.buildFrame_initialized (b : Bool) (f : List Byte) : (s.buildFrame b f).initialized = s.initialized := by
  cases b <;> rfl
@[simp] theorem State.buildFrame_ring (b : Bool) (f : List Byte) : (s.buildFrame b f).ring = s.ring := by
  cases b <;> rfl
@[simp] theorem State.buildFrame_slave (b : Bool) (f : List Byte) : (s.buildFrame b f).slave = s.slave := by
  cases b <;> rfl
@[simp] theorem State.buildFrame_host (b : Bool) (f : List Byte) : (s.buildFrame b f).host = s.host := by
  cases b <;> rfl
@[simp] theorem State.buildFrame_env (b : Bool) (f : List Byte) : (s.buildFrame b f).env = s.env := by
  cases b <;> rfl
@[simp] theorem State.buildFrame_events (b : Bool) (f : List Byte) : (s.buildFrame b f).events = s.events := by
  cases b <;> rfl
@[simp] theorem State.buildFrame_true (f : List Byte) :
    s.buildFrame true f = { s with seq := { s.seq with txFrame := f }, ret := .done } := rfl
@[simp] theorem State.buildFrame_false (f : List Byte) : s.buildFrame false f = s.callerError := rfl

/-! ### `State.turnAround` -/

@[simp] theorem State.turnAround_params : (s.turnAround).params = s.params := rfl
@[simp] theorem State.turnAround_cfg : (s.turnAround).cfg = s.cfg := rfl
@[simp] theorem State.turnAround_initialized : (s.turnAround).initialized = s.initialized := rfl
@[simp] theorem State.turnAround_ring : (s.turnAround).ring = s.ring := rfl
@[simp] theorem State.turnAround_seq : (s.turnAround).seq = s.seq := rfl
@[simp] theorem State.turnAround_slave : (s.turnAround).slave = { s.slave with turnaround := false } := rfl
@[simp] theorem State.turnAround_host : (s.turnAround).host = s.host := rfl
@[simp] theorem State.turnAround_env : (s.turnAround).env = s.env := rfl
@[simp] theorem State.turnAround_events : (s.turnAround).events = .turnaround false :: .delay s.params.turnaroundDelay :: .turnaround true :: s.events := rfl
@[simp] theorem State.turnAround_ret : (s.turnAround).ret = s.ret := rfl

/-! ### `State.handlerReturns` -/

@[simp] theorem State.handlerReturns_params (r : HandlerResult) : (s.handlerReturns r).params = s.params := rfl
@[simp] theorem State.handlerReturns_cfg (r : HandlerResult) : (s.handlerReturns r).cfg = s.cfg := rfl
@[simp] theorem State.handlerReturns_initialized (r : HandlerResult) : (s.handlerReturns r).initialized = s.initialized := rfl
@[simp] theorem State.handlerReturns_ring (r : HandlerResult) : (s.handlerReturns r).ring = s.ring := rfl
@[simp] theorem State.handlerReturns_seq (r : HandlerResult) : (s.handlerReturns r).seq = s.seq := rfl
@[simp] theorem State.handlerReturns_slave (r : HandlerResult) : (s.handlerReturns r).slave = s.slave := rfl
@[simp] theorem State.handlerReturns_host (r : HandlerResult) : (s.handlerReturns r).host = s.host := rfl
@[simp] theorem State.handlerReturns_env (r : HandlerResult) : (s.handlerReturns r).env = s.env := rfl
@[simp] theorem State.handlerReturns_events (r : HandlerResult) : (s.handlerReturns r).events = s.events := rfl
@[simp] theorem State.handlerReturns_ret (r : HandlerResult) : (s.handlerReturns r).ret = .handler r := rfl

/-! ### `State.withInputs` -/

@[simp] theorem State.withInputs_params (l : List Input) : (s.withInputs l).params = s.params := rfl
@[simp] theorem State.withInputs_cfg (l : List Input) : (s.withInputs l).cfg = s.cfg := rfl
@[simp] theorem State.withInputs_initialized (l : List Input) : (s.withInputs l).initialized = s.initialized := rfl
@[simp] theorem State.withInputs_ring (l : List Input) : (s.withInputs l).ring = s.ring := rfl
@[simp] theorem State.withInputs_seq (l : List Input) : (s.withInputs l).seq = s.seq := rfl
@[simp] theorem State.withInputs_slave (l : List Input) : (s.withInputs l).slave = s.slave := rfl
@[simp] theorem State.withInputs_host (l : List Input) : (s.withInputs l).host = s.host := rfl
@[simp] theorem State.withInputs_env (l : List Input) : (s.withInputs l).env = { s.env with inputs := l } := rfl
@[simp] theorem State.withInputs_events (l : List Input) : (s.withInputs l).events = s.events := rfl
@[simp] theorem State.withInputs_ret (l : List Input) : (s.withInputs l).ret = s.ret := rfl

/-! ### `State.transport` -/

@[simp] theorem State.transport_params (c : TxCall) : (s.transport c).2.params = s.params := rfl
@[simp] theorem State.transport_cfg (c : TxCall) : (s.transport c).2.cfg = s.cfg := rfl
@[simp] theorem State.transport_initialized (c : TxCall) : (s.transport c).2.initialized = s.initialized := rfl
@[simp] theorem State.transport_ring (c : TxCall) : (s.transport c).2.ring = s.ring := rfl
@[simp] theorem State.transport_seq (c : TxCall) : (s.transport c).2.seq = s.seq := rfl
@[simp] theorem State.transport_slave (c : TxCall) : (s.transport c).2.slave = s.slave := rfl
@[simp] theorem State.transport_host (c : TxCall) : (s.transport c).2.host = s.host := rfl
@[simp] theorem State.transport_ret (c : TxCall) : (s.transport c).2.ret = s.ret := rfl
@[simp] theorem State.transport_events (c : TxCall) :
    (s.transport c).2.events = .tx c (s.transport c).1 :: s.events := rfl
theorem State.transport_env (c : TxCall) :
    (s.transport c).2.env = s.env.takeTx.2.latchDest c s.env.takeTx.1 := rfl

/-- A transport call whose result is settled gives that result. -/
theorem State.transport_fst_of_cons {b : Bool} {rest : List Bool} (c : TxCall) (h : s.env.txResults = b :: rest) :
    (s.transport c).1 = b := by simp [State.transport, Env.takeTx, h]

/-- A transport call whose result is settled consumes it and latches the destination of a successful address call. -/
theorem State.transport_env_of_cons {b : Bool} {rest : List Bool} (c : TxCall) (h : s.env.txResults = b :: rest) :
    (s.transport c).2.env = { s.env with txResults := rest }.latchDest c b := by
  simp [State.transport, Env.takeTx, h]

/-! ### What a transport call leaves in the environment -/

variable (e : Env)

@[simp] theorem Env.latchDest_inputs (c : TxCall) (ok : Bool) : (e.latchDest c ok).inputs = e.inputs := by
  cases c <;> cases ok <;> rfl
@[simp] theorem Env.takeTx_inputs : e.takeTx.2.inputs = e.inputs := by
  unfold Env.takeTx; split <;> rfl
@[simp] theorem State.transport_inputs (c : TxCall) : (s.transport c).2.env.inputs = s.env.inputs := by
  simp [State.transport_env]
@[simp] theorem Env.latchDest_deliveries (c : TxCall) (ok : Bool) : (e.latchDest c ok).deliveries = e.deliveries := by
  cases c <;> cases ok <;> rfl
@[simp] theorem Env.takeTx_deliveries : e.takeTx.2.deliveries = e.deliveries := by
  unfold Env.takeTx; split <;> rfl
@[simp] theorem State.transport_deliveries (c : TxCall) : (s.transport c).2.env.deliveries = s.env.deliveries := by
  simp [State.transport_env]
@[simp] theorem Env.latchDest_cbWriteResults (c : TxCall) (ok : Bool) : (e.latchDest c ok).cbWriteResults = e.cbWriteResults := by
  cases c <;> cases ok <;> rfl
@[simp] theorem Env.takeTx_cbWriteResults : e.takeTx.2.cbWriteResults = e.cbWriteResults := by
  unfold Env.takeTx; split <;> rfl
@[simp] theorem State.transport_cbWriteResults (c : TxCall) : (s.transport c).2.env.cbWriteResults = s.env.cbWriteResults := by
  simp [State.transport_env]
@[simp] theorem Env.latchDest_cbReadResults (c : TxCall) (ok : Bool) : (e.latchDest c ok).cbReadResults = e.cbReadResults := by
  cases c <;> cases ok <;> rfl
@[simp] theorem Env.takeTx_cbReadResults : e.takeTx.2.cbReadResults = e.cbReadResults := by
  unfold Env.takeTx; split <;> rfl
@[simp] theorem State.transport_cbReadResults (c : TxCall) : (s.transport c).2.env.cbReadResults = s.env.cbReadResults := by
  simp [State.transport_env]
@[simp] theorem Env.latchDest_txResults (c : TxCall) (ok : Bool) : (e.latchDest c ok).txResults = e.txResults := by
  cases c <;> cases ok <;> rfl
@[simp] theorem Env.latchDest_freeCount (c : TxCall) (ok : Bool) : (e.latchDest c ok).freeCount = e.freeCount := by
  cases c <;> cases ok <;> rfl

end Sys2Proof.Machine
end

