-- ==== Sys2Proof/Laws/Access.lean ====
section
/-! SUPPORT. The guards of the operations, and what the functions of the access machine can do, said once per function. -/

namespace Sys2Proof.Machine

variable {s t : State} {k : Answer}

/-! ### Guards -/

/-- A master operation answers a next state only in an initialized master instance (R255, R274). -/
theorem State.asMaster_next : s.asMaster k = .next t ↔ s.params.role = .master ∧ s.initialized = true ∧ k = .next t := by
  unfold State.asMaster
  split
  · next h => split <;> simp_all
  · next h => simp [h]

/-- A slave operation answers a next state only in an initialized slave instance. -/
theorem State.asSlave_next : s.asSlave k = .next t ↔ s.params.role = .slave ∧ s.initialized = true ∧ k = .next t := by
  unfold State.asSlave
  split
  · next h => split <;> simp_all
  · next h => simp [h]

/-- An operation of both roles answers a next state only inside the window. -/
theorem State.asEither_next : s.asEither k = .next t ↔ s.initialized = true ∧ k = .next t := by
  unfold State.asEither
  split <;> simp_all

/-- An operation that needs an idle machine answers a next state only there (R181, R308). -/
theorem State.whenIdle_next : s.whenIdle k = .next t ↔ s.seq.fsm = .idle ∧ k = .next t := by
  unfold State.whenIdle
  split
  · next h => simp [h]
  · next h => simp [h]

/-- An access answers a next state as a caller error, with nothing else changed, or as the run of its attempts (R78, R206). -/
theorem State.runAccess_next {a : AccessParams} {start : State} (h : s.runAccess a start = .next t) :
    (accessFits s.params a = false ∧ t = s.callerError) ∨
      (accessFits s.params a = true ∧ start.settle.carryOn = .next t) := by
  unfold State.runAccess at h
  split at h
  · next hf => exact .inr ⟨hf, h⟩
  · next hf => exact .inl ⟨by simpa using hf, (Host.Outcome.next.inj h).symm⟩

/-- The guards let an operation of an idle master through. -/
theorem State.asMaster_of_idle (h : MasterIdle s) : s.asMaster (s.whenIdle k) = k := by
  simp [State.asMaster, State.whenIdle, h.1, h.2.1, h.2.2]

theorem State.asMaster_of (hr : s.params.role = .master) (hi : s.initialized = true) : s.asMaster k = k := by
  simp [State.asMaster, hr, hi]

theorem State.asSlave_of (h : SlaveReady s) : s.asSlave k = k := by
  simp [State.asSlave, h.1, h.2]

/-! ### What no function of the access machine writes -/

/-- The parts of the state an access has no business with are the same in both states. -/
structure State.SameOutside (s t : State) : Prop where
  params      : t.params = s.params
  cfg         : t.cfg = s.cfg
  initialized : t.initialized = s.initialized
  slave       : t.slave = s.slave
  inputs      : t.env.inputs = s.env.inputs
  cbWrite     : t.env.cbWriteResults = s.env.cbWriteResults
  cbRead      : t.env.cbReadResults = s.env.cbReadResults

theorem State.SameOutside.refl (s : State) : s.SameOutside s := ⟨rfl, rfl, rfl, rfl, rfl, rfl, rfl⟩

theorem State.SameOutside.trans {u : State} (h : s.SameOutside t) (g : t.SameOutside u) : s.SameOutside u :=
  ⟨g.params.trans h.params, g.cfg.trans h.cfg, g.initialized.trans h.initialized, g.slave.trans h.slave,
    g.inputs.trans h.inputs, g.cbWrite.trans h.cbWrite, g.cbRead.trans h.cbRead⟩

/-- The same, the later change named first. -/
theorem State.SameOutside.after {u : State} (g : t.SameOutside u) (h : s.SameOutside t) : s.SameOutside u := h.trans g

theorem State.transport_outside (s : State) (c : TxCall) : s.SameOutside (s.transport c).2 :=
  ⟨rfl, rfl, rfl, rfl, by simp, by simp, by simp⟩

theorem State.abortAccess_outside (s : State) (disable : Bool) : s.SameOutside (s.abortAccess disable) := by
  cases disable
  · exact ⟨rfl, rfl, rfl, rfl, rfl, rfl, rfl⟩
  · exact (State.transport_outside s .disableReceive).trans ⟨rfl, rfl, rfl, rfl, rfl, rfl, rfl⟩

theorem State.sendFrame_outside (s : State) : s.SameOutside s.sendFrame.2 := by
  unfold State.sendFrame
  refine State.SameOutside.trans (t := { s with seq := { s.seq with txFrame := frameOf s.params s.seq.latch } })
    ⟨rfl, rfl, rfl, rfl, rfl, rfl, rfl⟩ ?_
  dsimp only
  split
  · exact (State.transport_outside _ _).trans (State.transport_outside _ _)
  · exact State.transport_outside _ _

theorem State.afterSend_outside (s : State) : s.SameOutside s.afterSend := by
  unfold State.afterSend
  split <;> dsimp only <;> split
  · exact (State.transport_outside s .disableReceive).trans ⟨rfl, rfl, rfl, rfl, rfl, rfl, rfl⟩
  · exact (State.transport_outside s .disableReceive).trans (State.abortAccess_outside _ _)
  · exact (State.transport_outside s .enableReceive).trans ⟨rfl, rfl, rfl, rfl, rfl, rfl, rfl⟩
  · exact (State.transport_outside s .enableReceive).trans (State.abortAccess_outside _ _)

theorem State.sending_outside (s : State) : s.SameOutside s.sending := by
  unfold State.sending
  have h : s.SameOutside (s.goto .sending).clearAttempt := ⟨rfl, rfl, rfl, rfl, rfl, rfl, rfl⟩
  have h' := h.trans (State.sendFrame_outside _)
  dsimp only
  split
  · exact h'.trans (State.afterSend_outside _)
  · exact h'.trans (State.abortAccess_outside _ _)

theorem State.startAccess_outside (s : State) (c : Caller) (a : AccessParams) : s.SameOutside (s.startAccess c a) :=
  (State.sending_outside _).after ⟨rfl, rfl, rfl, rfl, rfl, rfl, rfl⟩

theorem State.scanNext_outside (s : State) (capacity : Nat) : s.SameOutside (s.scanNext capacity) := by
  unfold State.scanNext
  split
  · exact ⟨rfl, rfl, rfl, rfl, rfl, rfl, rfl⟩
  · exact State.startAccess_outside _ _ _

theorem State.scanRecord_outside (s : State) : s.SameOutside s.scanRecord := by
  unfold State.scanRecord
  dsimp only
  split <;> exact ⟨rfl, rfl, rfl, rfl, rfl, rfl, rfl⟩

theorem State.conclude_outside (s : State) : s.SameOutside s.conclude := by
  unfold State.conclude
  have h : s.SameOutside (s.goto .idle) := ⟨rfl, rfl, rfl, rfl, rfl, rfl, rfl⟩
  dsimp only
  split
  case h_7 => exact (h.trans (State.scanRecord_outside _)).trans (State.scanNext_outside _ _)
  all_goals exact ⟨rfl, rfl, rfl, rfl, rfl, rfl, rfl⟩

theorem State.settle_outside (s : State) : s.SameOutside s.settle := by
  unfold State.settle
  split
  · exact State.conclude_outside s
  · exact State.SameOutside.refl s

theorem State.attemptOver_outside (s : State) : s.SameOutside s.attemptOver := by
  unfold State.attemptOver
  split
  · exact (State.conclude_outside _).after ⟨rfl, rfl, rfl, rfl, rfl, rfl, rfl⟩
  · split
    · exact (State.conclude_outside _).after ⟨rfl, rfl, rfl, rfl, rfl, rfl, rfl⟩
    · exact ((State.settle_outside _).after (State.sending_outside _)).after ⟨rfl, rfl, rfl, rfl, rfl, rfl, rfl⟩

theorem State.exitAttempt_outside (s : State) (st : Status) : s.SameOutside (s.exitAttempt st) := by
  unfold State.exitAttempt
  have h : s.SameOutside ({ s with seq := { s.seq with status := st } }.transport .disableReceive).2 :=
    (State.transport_outside _ _).after ⟨rfl, rfl, rfl, rfl, rfl, rfl, rfl⟩
  dsimp only
  split
  · exact h.trans ((State.attemptOver_outside _).after ⟨rfl, rfl, rfl, rfl, rfl, rfl, rfl⟩)
  · exact h.trans (State.abortAccess_outside _ _)

theorem State.checkTimeouts_outside (s : State) : s.SameOutside s.checkTimeouts := by
  unfold State.checkTimeouts
  split
  · exact State.exitAttempt_outside _ _
  · exact State.SameOutside.refl s

theorem State.classifySlot_outside (s : State) : s.SameOutside s.classifySlot := by
  unfold State.classifySlot
  dsimp only
  split
  · split
    · exact (State.exitAttempt_outside _ _).after ⟨rfl, rfl, rfl, rfl, rfl, rfl, rfl⟩
    · exact (State.exitAttempt_outside _ _).after ⟨rfl, rfl, rfl, rfl, rfl, rfl, rfl⟩
    · exact (State.exitAttempt_outside _ _).after ⟨rfl, rfl, rfl, rfl, rfl, rfl, rfl⟩
    · exact (State.checkTimeouts_outside _).after ⟨rfl, rfl, rfl, rfl, rfl, rfl, rfl⟩
  · exact (State.checkTimeouts_outside _).after ⟨rfl, rfl, rfl, rfl, rfl, rfl, rfl⟩

theorem State.look_outside (s : State) : s.SameOutside s.look := by
  unfold State.look
  split
  · exact State.classifySlot_outside s
  · exact State.checkTimeouts_outside s

/-! ### Delivering, one Delay, and the Delays of an operation -/

/-- Bytes that are handed over change the ring only, and only while the receiver is enabled (R82); an answer that is no
next state is an overflow. -/
theorem State.deliver_cases (s : State) (bytes : List Byte) :
    (s.seq.rxEnabled = false ∧ s.deliver bytes = .next s) ∨
    (s.seq.rxEnabled = true ∧ ∃ r, s.ring.pushAll s.params bytes = some r ∧ s.deliver bytes = .next { s with ring := r }) ∨
    (s.seq.rxEnabled = true ∧ s.ring.pushAll s.params bytes = none ∧ s.deliver bytes = .fault .slotOverflow) := by
  unfold State.deliver
  cases hx : s.seq.rxEnabled
  · exact .inl ⟨rfl, rfl⟩
  · cases hp : s.ring.pushAll s.params bytes with
    | none => exact .inr (.inr ⟨rfl, rfl, rfl⟩)
    | some r => exact .inr (.inl ⟨rfl, r, rfl, rfl⟩)

/-- A poll iteration that answers a next state delivers into some ring, advances the timers and looks. -/
theorem State.poll_next {bytes : List Byte} (h : s.poll bytes = .next t) :
    ∃ r, (r = s.ring ∨ s.ring.pushAll s.params bytes = some r) ∧
      t = ({ s.emit (.delay s.params.pollInterval) with ring := r }.advanceTimers).look := by
  unfold State.poll at h
  rcases State.deliver_cases (s.emit (.delay s.params.pollInterval)) bytes with ⟨-, hd⟩ | ⟨-, r, hr, hd⟩ | ⟨-, -, hd⟩ <;>
    rw [hd] at h
  · exact ⟨s.ring, .inl rfl, (Host.Outcome.next.inj h).symm⟩
  · exact ⟨r, .inr hr, (Host.Outcome.next.inj h).symm⟩
  · cases h

theorem State.poll_outside {bytes : List Byte} (h : s.poll bytes = .next t) : s.SameOutside t := by
  obtain ⟨r, -, rfl⟩ := State.poll_next h
  exact (State.look_outside _).after ⟨rfl, rfl, rfl, rfl, rfl, rfl, rfl⟩

@[simp] theorem State.runDelays_nil (s : State) :
    s.runDelays [] = .next { s with env := { s.env with deliveries := [] } } := rfl

/-- An operation that no longer waits leaves the coming deliveries alone. -/
theorem State.runDelays_idle (ds : List (List Byte)) (h : s.seq.fsm ≠ .awaitingReply) :
    s.runDelays ds = .next { s with env := { s.env with deliveries := ds } } := by
  cases ds with
  | nil => rfl
  | cons d ds => simp only [State.runDelays, if_neg h]

/-- A waiting operation takes the next delivery. -/
theorem State.runDelays_wait {d : List Byte} {ds : List (List Byte)} (h : s.seq.fsm = .awaitingReply)
    (hp : s.poll d = .next t) : s.runDelays (d :: ds) = t.runDelays ds := by
  simp only [State.runDelays, if_pos h, hp]

/-- What one poll iteration keeps, and giving the deliveries back keeps, the whole operation keeps. -/
theorem State.runDelays_keeps {P : State → Prop}
    (hp : ∀ s d t, s.seq.fsm = .awaitingReply → s.poll d = .next t → P s → P t)
    (hd : ∀ s ds, P s → P { s with env := { s.env with deliveries := ds } })
    {ds : List (List Byte)} (h : s.runDelays ds = .next t) (h0 : P s) : P t := by
  induction ds generalizing s with
  | nil => exact Host.Outcome.next.inj h ▸ hd _ _ h0
  | cons d ds ih =>
    by_cases hf : s.seq.fsm = .awaitingReply
    · simp only [State.runDelays, if_pos hf] at h
      split at h
      · next u hu => exact ih h (hp _ _ _ hf hu h0)
      · cases h
      · cases h
    · rw [State.runDelays_idle _ hf] at h
      exact Host.Outcome.next.inj h ▸ hd _ _ h0

/-! ### Where the machine stands after each function -/

/-- The machine rests: Idle, or inside a Delay. -/
def State.AtRest (s : State) : Prop := s.seq.fsm = .idle ∨ s.seq.fsm = .awaitingReply

@[simp] theorem State.abortAccess_fsm (s : State) (disable : Bool) : (s.abortAccess disable).seq.fsm = .idle := rfl
@[simp] theorem State.abortAccess_rxEnabled (s : State) (disable : Bool) : (s.abortAccess disable).seq.rxEnabled = false := rfl
@[simp] theorem State.abortAccess_caller (s : State) (disable : Bool) : (s.abortAccess disable).seq.caller = .none := rfl
@[simp] theorem State.abortAccess_ret (s : State) (disable : Bool) :
    (s.abortAccess disable).ret = .call .transportError := rfl

/-- After the frame was sent the machine has succeeded (no expectation), waits, or was aborted. -/
theorem State.afterSend_fsm (s : State) :
    (s.seq.latch.expectation = .none ∧ s.afterSend.seq.fsm = .success) ∨ s.afterSend.AtRest := by
  unfold State.afterSend
  split <;> dsimp only <;> split
  · next h _ => exact .inl ⟨h, rfl⟩
  · exact .inr (.inl rfl)
  · exact .inr (.inr rfl)
  · exact .inr (.inl rfl)

theorem State.sendFrame_latch (s : State) : s.sendFrame.2.seq.latch = s.seq.latch := by
  unfold State.sendFrame
  dsimp only
  split <;> rfl

/-- The same for the whole of `Sending`. -/
theorem State.sending_fsm (s : State) :
    (s.seq.latch.expectation = .none ∧ s.sending.seq.fsm = .success) ∨ s.sending.AtRest := by
  unfold State.sending
  have h : (s.goto .sending).clearAttempt.sendFrame.2.seq.latch = s.seq.latch := State.sendFrame_latch _
  dsimp only
  split
  · rw [← h]; exact State.afterSend_fsm _
  · exact .inr (.inl rfl)

/-- A scan's next probe expects a value, so it waits or was aborted. -/
theorem State.scanNext_rest (s : State) (capacity : Nat) (h : s.seq.fsm = .idle) : (s.scanNext capacity).AtRest := by
  unfold State.scanNext
  split
  · exact .inl h
  · refine (State.sending_fsm _).resolve_left fun hn => ?_
    simp [probeParams] at hn

theorem State.scanRecord_fsm (s : State) : s.scanRecord.seq.fsm = s.seq.fsm := by
  unfold State.scanRecord
  dsimp only
  split <;> rfl

/-- An access that is over leaves the machine Idle, or in the wait of a scan's next probe. -/
theorem State.conclude_rest (s : State) : s.conclude.AtRest := by
  unfold State.conclude
  dsimp only
  split
  case h_7 => exact State.scanNext_rest _ _ (State.scanRecord_fsm _)
  all_goals exact .inl rfl

/-- An attempt that was sent is settled: the machine rests. -/
theorem State.sending_settle_rest (s : State) : s.sending.settle.AtRest := by
  unfold State.settle
  split
  · exact State.conclude_rest _
  · next h => exact (State.sending_fsm s).resolve_left fun hn => h hn.2

theorem State.attemptOver_rest (s : State) : s.attemptOver.AtRest := by
  unfold State.attemptOver
  split
  · exact State.conclude_rest _
  · split
    · exact State.conclude_rest _
    · exact State.sending_settle_rest _

theorem State.exitAttempt_rest (s : State) (st : Status) : (s.exitAttempt st).AtRest := by
  unfold State.exitAttempt
  dsimp only
  split
  · exact State.attemptOver_rest _
  · exact .inl rfl

theorem State.checkTimeouts_rest (s : State) (h : s.AtRest) : s.checkTimeouts.AtRest := by
  unfold State.checkTimeouts
  split
  · exact State.exitAttempt_rest _ _
  · exact h

/-- A look from inside the wait ends at rest. -/
theorem State.look_rest (s : State) (h : s.AtRest) : s.look.AtRest := by
  unfold State.look State.classifySlot
  dsimp only
  split
  · split
    · split
      · exact State.exitAttempt_rest _ _
      · exact State.exitAttempt_rest _ _
      · exact State.exitAttempt_rest _ _
      · exact State.checkTimeouts_rest _ (.inr rfl)
    · exact State.checkTimeouts_rest _ (.inr rfl)
  · exact State.checkTimeouts_rest _ h

theorem State.poll_rest {bytes : List Byte} (h : s.poll bytes = .next t) (hr : s.AtRest) : t.AtRest := by
  obtain ⟨r, -, rfl⟩ := State.poll_next h
  exact State.look_rest _ hr

/-! ### Closed forms when the transport's results are settled -/

/-- `Sending` up to the frame, with both results settled as `ok` (R182, R183, R184). -/
theorem State.sendFrame_settled {rest : List Bool} (h : s.env.txResults = true :: true :: rest) :
    s.sendFrame = (true, { s with
      seq := { s.seq with txFrame := frameOf s.params s.seq.latch }
      env := { s.env with txResults := rest, txDest := s.seq.latch.node }
      events := .tx (.sendFrame (frameOf s.params s.seq.latch)) true :: .tx (.setDestination s.seq.latch.node) true ::
        s.events }) := by
  simp [State.sendFrame, State.transport, Env.takeTx, Env.latchDest, h]

/-- The beginning of the wait, with the result settled as `ok` (R186). -/
theorem State.afterSend_settled {rest : List Bool} (he : s.seq.latch.expectation ≠ .none)
    (h : s.env.txResults = true :: rest) :
    s.afterSend = { s with
      seq := { s.seq with rxEnabled := true, fsm := .awaitingReply }
      env := { s.env with txResults := rest }
      events := .fsm .awaitingReply :: .tx .enableReceive true :: s.events } := by
  simp [State.afterSend, State.transport, Env.takeTx, Env.latchDest, State.goto, h, he]

/-- The exit of an attempt, with the result of the disable settled as `ok` (R197). -/
theorem State.exitAttempt_settled {rest : List Bool} (st : Status) (h : s.env.txResults = true :: rest) :
    s.exitAttempt st = State.attemptOver { s with
      seq := { s.seq with status := st, rxEnabled := false }
      env := { s.env with txResults := rest }
      events := .tx .disableReceive true :: s.events } := by
  simp [State.exitAttempt, State.transport, Env.takeTx, Env.latchDest, h]

end Sys2Proof.Machine
end

