-- ==== Sys2Proof/Laws/PerInstr.lean ====
section
/-! SUPPORT. What holds of every operation as an encoding, one lemma per constructor. -/

namespace Sys2Proof.Laws

open Sys2Proof Sys2Proof.Machine

/-- A text is the inside of a line exactly when no byte of it is the end marker. -/
theorem insideOfLine_iff {p : Params} {text : List Byte} : insideOfLine p text = true ↔ p.endMarker ∉ text := by
  simp only [insideOfLine, List.all_eq_true, bne_iff_ne, ne_eq]
  exact ⟨fun h hm => h _ hm rfl, fun h b hb e => h (e ▸ hb)⟩

theorem insideOfLine_append {p : Params} {x y : List Byte} (hx : insideOfLine p x = true)
    (hy : insideOfLine p y = true) : insideOfLine p (x ++ y) = true := by
  simp only [insideOfLine, List.all_append, Bool.and_eq_true] at *
  exact ⟨hx, hy⟩

theorem insideOfLine_of_framable {p : Params} {text : List Byte} (h : framable p text = true) :
    insideOfLine p text = true := by
  simp only [framable, insideOfLine, List.all_eq_true, Bool.and_eq_true] at *
  exact fun b hb => (h b hb).1

/-- A number that was read has digits only. -/
theorem digit_of_hexNumber {f : List Byte} {acc : Nat} (h : (hexNumber acc f).isSome = true) :
    ∀ b ∈ f, (digitValue b).isSome = true := by
  induction f generalizing acc with
  | nil => simp
  | cons c f ih =>
    simp only [hexNumber] at h
    split at h
    · next d hd =>
      intro b hb
      rcases List.mem_cons.mp hb with rfl | hb
      · simp [hd]
      · exact ih h b hb
    · cases h

/-- A field a tokenizer decodes has digits only (R170). -/
theorem digit_of_decodeText {t : Tokenizer} {f : List Byte} (h : (decodeText t f).isSome = true) :
    ∀ b ∈ f, (digitValue b).isSome = true := by
  unfold decodeText at h
  split at h
  · next hf =>
    simp only [isHexField, Bool.and_eq_true] at hf
    exact digit_of_hexNumber hf.2
  · cases h

/-- R101: a well-formed operation with an encoding is encoded as one line, whose only end marker is its last byte. -/
def EncodeIsLine.Statement (i : Instr) : Prop :=
  ∀ p : Params, p.literalsDistinct = true → i.wf p = true → ∀ bytes, encode p i = some bytes →
    ∃ body, bytes = body ++ [p.endMarker] ∧ p.endMarker ∉ body

/-- An operation whose encoding is the inside of a line closed by the end marker. -/
theorem EncodeIsLine.of_inside {i : Instr} (body : Params → List Byte)
    (he : ∀ p, encode p i = some (body p ++ [p.endMarker]))
    (hb : ∀ p, p.literalsDistinct = true → i.wf p = true → insideOfLine p (body p) = true) : EncodeIsLine.Statement i :=
  fun p hp hw _ hbytes =>
    ⟨body p, (Option.some.inj ((he p).symm.trans hbytes)).symm, insideOfLine_iff.mp (hb p hp hw)⟩

/-- An operation without an encoding. -/
theorem EncodeIsLine.of_none {i : Instr} (he : ∀ p, encode p i = none) : EncodeIsLine.Statement i :=
  fun p _ _ _ hbytes => by rw [he p] at hbytes; cases hbytes

/-- The literals hold no end marker. -/
theorem literals_inside {p : Params} (h : p.literalsDistinct = true) :
    insideOfLine p p.writePrefix = true ∧ insideOfLine p p.readPrefix = true ∧ insideOfLine p p.okToken = true ∧
      insideOfLine p p.errorToken = true := by
  simp only [Params.literalsDistinct, Bool.and_eq_true] at h
  exact ⟨h.1.1.1.1.1.1.1.1, h.1.1.1.1.1.1.1.2, h.1.1.1.1.1.1.2, h.1.1.1.1.1.2⟩

theorem EncodeIsLine.write (body : List Byte) : EncodeIsLine.Statement (.write body) :=
  EncodeIsLine.of_inside (fun p => p.writePrefix ++ body) (fun _ => rfl)
    (fun _ hp hw => insideOfLine_append (literals_inside hp).1 hw)

theorem EncodeIsLine.read (body : List Byte) : EncodeIsLine.Statement (.read body) :=
  EncodeIsLine.of_inside (fun p => p.readPrefix ++ body) (fun _ => rfl)
    (fun _ hp hw => insideOfLine_append (literals_inside hp).2.1 hw)

theorem EncodeIsLine.generic (text : List Byte) : EncodeIsLine.Statement (.generic text) :=
  EncodeIsLine.of_inside (fun _ => text) (fun _ => rfl) (fun _ _ hw => by
    simp only [Instr.wf, isGenericText, Bool.and_eq_true] at hw
    exact insideOfLine_of_framable hw.1.2)

theorem EncodeIsLine.ok : EncodeIsLine.Statement .ok :=
  EncodeIsLine.of_inside (fun p => p.okToken) (fun _ => rfl) (fun _ hp _ => (literals_inside hp).2.2.1)

theorem EncodeIsLine.error (rest : List Byte) : EncodeIsLine.Statement (.error rest) :=
  EncodeIsLine.of_inside (fun p => p.errorToken ++ rest) (fun _ => rfl)
    (fun _ hp hw => insideOfLine_append (literals_inside hp).2.2.2 hw)

theorem EncodeIsLine.value (text : List Byte) : EncodeIsLine.Statement (.value text) :=
  EncodeIsLine.of_inside (fun _ => text) (fun _ => rfl) (fun _ _ hw => by
    simp only [Instr.wf, Bool.and_eq_true] at hw
    exact hw.1)

theorem EncodeIsLine.noise (text : List Byte) : EncodeIsLine.Statement (.noise text) :=
  EncodeIsLine.of_inside (fun _ => text) (fun _ => rfl) (fun _ _ hw => by
    simp only [Instr.wf, Bool.and_eq_true] at hw
    exact hw.1)

theorem EncodeIsLine.pushByte (b : Byte) : EncodeIsLine.Statement (.pushByte b) :=
  EncodeIsLine.of_none fun _ => rfl

theorem EncodeIsLine.hasPending : EncodeIsLine.Statement .hasPending :=
  EncodeIsLine.of_none fun _ => rfl

theorem EncodeIsLine.flush (i : Nat) : EncodeIsLine.Statement (.flush i) :=
  EncodeIsLine.of_none fun _ => rfl

theorem EncodeIsLine.flushAll : EncodeIsLine.Statement .flushAll :=
  EncodeIsLine.of_none fun _ => rfl

theorem EncodeIsLine.encodeMinhex (v : Word) (w : Nat) : EncodeIsLine.Statement (.encodeMinhex v w) :=
  EncodeIsLine.of_none fun _ => rfl

theorem EncodeIsLine.buildGeneric (text : List Byte) : EncodeIsLine.Statement (.buildGeneric text) :=
  EncodeIsLine.of_none fun _ => rfl

theorem EncodeIsLine.buildWrite (reg : Byte) (value mask : Word) :
    EncodeIsLine.Statement (.buildWrite reg value mask) :=
  EncodeIsLine.of_none fun _ => rfl

theorem EncodeIsLine.buildRead (reg : Byte) : EncodeIsLine.Statement (.buildRead reg) :=
  EncodeIsLine.of_none fun _ => rfl

theorem EncodeIsLine.decode (text : List Byte) (pos : Nat) (term : Terminator) :
    EncodeIsLine.Statement (.decode text pos term) :=
  EncodeIsLine.of_none fun _ => rfl

theorem EncodeIsLine.compare (line : List Byte) (mode : CompareMode) (literal : List Byte) :
    EncodeIsLine.Statement (.compare line mode literal) :=
  EncodeIsLine.of_none fun _ => rfl

theorem EncodeIsLine.attempt (p : AccessParams) : EncodeIsLine.Statement (.attempt p) :=
  EncodeIsLine.of_none fun _ => rfl

theorem EncodeIsLine.access (p : AccessParams) (oneAttempt : Bool) : EncodeIsLine.Statement (.access p oneAttempt) :=
  EncodeIsLine.of_none fun _ => rfl

theorem EncodeIsLine.writeRegister (node : Nat) (reg : Byte) (value mask : Word)
    (expect : ExpectArg) (timeout : Nat) (statusOut : Bool) :
    EncodeIsLine.Statement (.writeRegister node reg value mask expect timeout statusOut) :=
  EncodeIsLine.of_none fun _ => rfl

theorem EncodeIsLine.readRegister (node : Nat) (reg : Byte)
    (expect : ExpectArg) (timeout : Nat) (statusOut valueOut : Bool) :
    EncodeIsLine.Statement (.readRegister node reg expect timeout statusOut valueOut) :=
  EncodeIsLine.of_none fun _ => rfl

theorem EncodeIsLine.sendCommand (node : Nat) (text : List Byte)
    (expect : ExpectArg) (timeout : Nat) (statusOut : Bool) :
    EncodeIsLine.Statement (.sendCommand node text expect timeout statusOut) :=
  EncodeIsLine.of_none fun _ => rfl

theorem EncodeIsLine.scan (listOut : Bool) (capacity : Nat) : EncodeIsLine.Statement (.scan listOut capacity) :=
  EncodeIsLine.of_none fun _ => rfl

theorem EncodeIsLine.initMaster (lineParams : List Byte) (maxAttempts sequenceCeiling : Nat) :
    EncodeIsLine.Statement (.initMaster lineParams maxAttempts sequenceCeiling) :=
  EncodeIsLine.of_none fun _ => rfl

theorem EncodeIsLine.initSlave (process write read : Callback) :
    EncodeIsLine.Statement (.initSlave process write read) :=
  EncodeIsLine.of_none fun _ => rfl

theorem EncodeIsLine.deinitMaster : EncodeIsLine.Statement .deinitMaster :=
  EncodeIsLine.of_none fun _ => rfl

theorem EncodeIsLine.deinitSlave : EncodeIsLine.Statement .deinitSlave :=
  EncodeIsLine.of_none fun _ => rfl

theorem EncodeIsLine.slaveWrite (text : List Byte) (pos : Nat) : EncodeIsLine.Statement (.slaveWrite text pos) :=
  EncodeIsLine.of_none fun _ => rfl

theorem EncodeIsLine.slaveRead (text : List Byte) (pos : Nat) : EncodeIsLine.Statement (.slaveRead text pos) :=
  EncodeIsLine.of_none fun _ => rfl

end Sys2Proof.Laws
end

