-- ==== Sys2Proof/Laws/Codec.lean ====
section
/-! SUPPORT. The small laws of hexadecimal fields and of lines. -/

namespace Sys2Proof.Machine

/-- A digit the encoder emits is read as its value (R161, R170). -/
@[simp] theorem digitValue_hexDigit (n : BitVec 4) : digitValue (hexDigit n) = some n.toNat := by
  revert n; decide

/-- A digit the encoder emits is no byte that is no digit (a separator, an end marker, a NUL). -/
theorem hexDigit_ne (n : BitVec 4) {m : Byte} (hm : digitValue m = none) : hexDigit n ≠ m :=
  fun h => by rw [← h, digitValue_hexDigit] at hm; cases hm

/-- Byte `k` of a value as a number (R13). -/
theorem byteOf_toNat (v : Word) (k : Nat) : (byteOf v k).toNat = v.toNat / 2 ^ (8 * k) % 256 := by
  simp [byteOf, BitVec.extractLsb'_toNat, Nat.shiftRight_eq_div_pow]

/-- Reading a number goes on where the first part of the field ends. -/
theorem hexNumber_append (acc : Nat) (xs ys : List Byte) :
    hexNumber acc (xs ++ ys) = (hexNumber acc xs).bind (fun n => hexNumber n ys) := by
  induction xs generalizing acc with
  | nil => rfl
  | cons b xs ih =>
    simp only [List.cons_append, hexNumber]
    split
    · exact ih _
    · rfl

/-- The token of one byte is read as that byte (R74). -/
theorem hexNumber_hexToken (acc : Nat) (b : Byte) : hexNumber acc (hexToken b) = some (256 * acc + b.toNat) := by
  have hb : b.toNat < 256 := b.isLt
  simp only [hexToken, hexNumber, digitValue_hexDigit, BitVec.extractLsb'_toNat, Nat.shiftRight_eq_div_pow,
    Option.some.injEq]
  omega

/-- The token of one byte, followed by more, is read as that byte and then the rest. -/
theorem hexNumber_hexToken_append (acc : Nat) (b : Byte) (rest : List Byte) :
    hexNumber acc (hexToken b ++ rest) = hexNumber (256 * acc + b.toNat) rest := by
  rw [hexNumber_append, hexNumber_hexToken, Option.bind_some]

/-- An emitted byte is a digit. -/
theorem minhexFrom_plain (v : Word) (k : Nat) (started : Bool) {m : Byte} (hm : digitValue m = none) :
    m ∉ minhexFrom v k started := by
  induction k generalizing started with
  | zero => simp [minhexFrom]
  | succ k ih =>
    intro hb
    simp only [minhexFrom, List.mem_append] at hb
    rcases hb with hb | hb
    · split at hb
      · simp only [hexToken, List.mem_cons, List.not_mem_nil, or_false] at hb
        rcases hb with h | h <;> exact hexDigit_ne _ hm h.symm
      · cases hb
    · exact ih _ hb

/-- A byte that is no digit stands in no minimal-hex text. -/
theorem minhex_plain (v : Word) (w : Nat) {m : Byte} (hm : digitValue m = none) : m ∉ minhex v w := by
  simp only [minhex]
  split
  · intro hb
    simp only [List.mem_cons, List.not_mem_nil, or_false] at hb
    rcases hb with rfl | rfl <;> revert hm <;> decide
  · exact minhexFrom_plain v w false hm

/-- On the operands R160 admits the text is the one the rule gives. -/
theorem minhexText_eq {v : Word} {w : Nat} (h : minhexDomain v w = true) : minhexText v w = minhex v w := by
  simp [minhexText, h]

/-- A text with no end marker in it is one line (R115). -/
theorem splitLines_one {marker : Byte} {text : List Byte} (h : marker ∉ text) : splitLines marker text = [text] := by
  induction text with
  | nil => rfl
  | cons b text ih =>
    have hb : b ≠ marker := fun e => h (by simp [e])
    simp [splitLines, hb, ih (fun hm => h (List.mem_cons_of_mem _ hm))]

end Sys2Proof.Machine

namespace Sys2Proof.Laws

open Sys2Proof

/-- The bytes of one line are its body and the end marker, and no other bytes are one (R101). -/
theorem lineBody_ok {p : Params} {bytes body : List Byte} :
    lineBody p bytes = .ok body ↔ bytes = body ++ [p.endMarker] ∧ p.endMarker ∉ body := by
  constructor
  · intro h
    unfold lineBody at h
    split at h
    · cases h
    · next b hb =>
      split at h
      · cases h
      · next hm =>
        have hm : b = p.endMarker := by simpa using hm
        split at h
        · next hi =>
          cases h
          refine ⟨?_, insideOfLine_iff.mp hi⟩
          have hne : bytes ≠ [] := fun e => by simp [e] at hb
          rw [← hm, ← List.getLast_of_getLast?_eq_some hb]
          exact (List.dropLast_append_getLast hne).symm
        · cases h
  · rintro ⟨rfl, h⟩
    simp [lineBody, insideOfLine_iff.mpr h]

/-- Decoding a line reads its kind from its body. -/
theorem decodeLine_line (p : Params) (side : Side) {body : List Byte} (h : p.endMarker ∉ body) :
    decodeLine p side (body ++ [p.endMarker]) = .ok (match side with
      | .command => commandKind p body
      | .reply => replyKind p body) := by
  cases side <;> simp only [decodeLine, lineBody_ok.mpr ⟨rfl, h⟩]

end Sys2Proof.Laws
end

