-- ==== Sys2Proof/Laws/Step.lean ====
section
/-! SUPPORT. What a step can do, and what a slave's handlers can do, said once. -/

namespace Sys2Proof.Machine

variable {s t : State}

/-- A step that answers a next state rests, ends a Delay, or runs the operation of the first input. -/
theorem step_cases (h : step s = .next t) :
    (s.env.inputs = [] ∧ s.seq.fsm ≠ .awaitingReply ∧ t = s) ∨
    (s.seq.fsm = .awaitingReply ∧ s.endDelay = .next t) ∨
    (∃ i rest, exec i (s.withInputs rest) = .next t ∧ (s.seq.fsm ≠ .awaitingReply ∨ arrives i = true) ∧
      (s.env.inputs = .call i :: rest)) ∨
    (∃ i rest bytes, exec i (s.withInputs rest) = .next t ∧ s.env.inputs = .line bytes :: rest ∧
      decodeLine s.params (sideOf s.params.role) bytes = .ok i) := by
  unfold step State.nextMove at h
  split at h
  all_goals (next hm =>
    split at hm
    · next hi => split at hm <;> simp_all
    · next i rest hi =>
      split at hm
      · simp_all
      · next hn => by_cases hf : s.seq.fsm = .awaitingReply <;> simp_all
    · next bytes rest hi => split at hm <;> simp_all)

/-- The end of a Delay is one poll iteration on some delivery; only the environment's lists have moved on. -/
theorem State.endDelay_next (h : s.endDelay = .next t) :
    ∃ d e, { s with env := e }.poll d = .next t ∧ e.inputs = s.env.inputs ∧ e.txResults = s.env.txResults ∧
      e.cbWriteResults = s.env.cbWriteResults ∧ e.cbReadResults = s.env.cbReadResults := by
  unfold State.endDelay at h
  split at h
  · exact ⟨_, _, h, rfl, rfl, rfl, rfl⟩
  · exact ⟨_, _, h, rfl, rfl, rfl, rfl⟩

/-! ### Lines on the bus: the receiver goes by the bytes -/

/-- Every wire operation is its line reaching the instance. -/
theorem exec_line {i : Instr} {text : List Byte} (h : lineText s.params i = some text) : exec i s = s.onLine text := by
  cases i <;> simp only [lineText, Option.some.injEq, reduceCtorEq] at h <;> subst h <;> rfl

/-- One line at a slave goes through the dispatcher, or is dropped while no handler is registered (R119, R253). -/
theorem State.onLine_slave {text : List Byte} (hr : s.params.role = .slave) (ht : s.params.endMarker ∉ text) :
    s.onLine text = .next (if s.initialized ∧ s.slave.handlersRegistered then s.dispatch text else s) := by
  simp only [State.onLine, hr, splitLines_one ht, List.foldl_cons, List.foldl_nil]

/-- A line at a master reaches the receiver (R82). -/
theorem State.onLine_master {text : List Byte} (hr : s.params.role = .master) : s.onLine text = s.lineArrives text := by
  simp only [State.onLine, hr]

/-- A line that opens with neither built-in prefix does not reach the block (R113). -/
theorem State.dispatch_other {text : List Byte} (h : isBuiltinText s.params text = false) : s.dispatch text = s := by
  simp only [isBuiltinText, Bool.or_eq_false_iff] at h
  simp [State.dispatch, h.1, h.2]

/-! ### The handlers (R223): a failure before the callback, or the callback and what follows it -/

theorem State.handleWrite_fails {text : List Byte} {pos : Nat}
    (h : s.slave.cbWrite = none ∨ parseWrite s.params text pos = none) :
    s.handleWrite text pos = s.turnAround.handlerReturns .commandExecutionError := by
  unfold State.handleWrite
  rcases h with h | h
  · simp [h]
  · cases hc : s.slave.cbWrite <;> simp [h, hc]

theorem State.handleWrite_calls {text : List Byte} {pos callback : Nat} {reg : Byte} {value mask : Word}
    (hc : s.slave.cbWrite = some callback) (hp : parseWrite s.params text pos = some (reg, value, mask)) :
    s.handleWrite text pos = (s.turnAround.cbWrite callback reg value mask).2.handlerReturns
      (if (s.turnAround.cbWrite callback reg value mask).1 then .success else .commandExecutionError) := by
  simp [State.handleWrite, hc, hp]

theorem State.handleRead_fails {text : List Byte} {pos : Nat}
    (h : s.slave.cbRead = none ∨ parseRead s.params text pos = none) :
    s.handleRead text pos = s.turnAround.handlerReturns .commandExecutionError := by
  unfold State.handleRead
  rcases h with h | h
  · simp [h]
  · cases hc : s.slave.cbRead <;> simp [h, hc]

end Sys2Proof.Machine
end

