-- ==== Sys2Proof/Tests/Slice0.lean ====
section
/-! SUPPORT. Tests: ill-formed operands refused, lines written out from spec/30_encoding.md and decoded, vectors of
spec/95_test_vectors.md, and for every statement with hypotheses a concrete state that meets them.
The expected results are the spec's, vector by vector. -/

namespace Sys2Proof.Tests

open Sys2Proof Sys2Proof.Machine

/-! ### The bench -/

/-- Configuration T with `LAST_VALID_ADDRESS = 7`: the vectors address node 5, which T itself (3) would not admit. -/
def bench : Params := { Params.reference .master with lastValidAddress := 7 }

/-- A master instance after INIT_MASTER, its environment settled. -/
def master (tx : List Bool) (ds : List (List Byte)) : State :=
  let s := State.afterInitMaster bench ⟨[], 3, 1000⟩
  { s with env := { s.env with txResults := tx, deliveries := ds } }

/-- The same with `MAX_ATTEMPTS` and `SEQUENCE_CEILING` given. -/
def masterWith (c : Cfg) (tx : List Bool) (ds : List (List Byte)) : State := { master tx ds with cfg := c }

/-- A slave instance after INIT_SLAVE, its callbacks' results settled. -/
def slave (w : List Bool) (r : List (Option Word)) : State :=
  let s := State.afterInitSlave (Params.reference .slave) (some 0) (some 1) (some 2)
  { s with env := { s.env with cbWriteResults := w, cbReadResults := r } }

/-- A master that waits in an access: the latch, the operation and the attempt number given. -/
def waiting (a : AccessParams) (c : Caller) (n : Nat) (tx : List Bool) : State :=
  let s := master tx []
  { s with seq := { s.seq with fsm := .awaitingReply, rxEnabled := true, latch := a, caller := c, attempt := n } }

/-- The latch of a register write expecting OK, and of a register read expecting a value (vectors D5 and D2). -/
def writeLatch (timeout : Nat) : AccessParams := ⟨.write, 5, 0x02, .ok, timeout, 0xFF, allBits, []⟩
def readLatch (timeout : Nat) : AccessParams := ⟨.read, 5, 0x02, .value, timeout, 0, 0, []⟩

/-- The answer is a next state that meets `f`. -/
def answers (a : Answer) (f : State → Bool) : Bool :=
  match a with
  | .next t => f t
  | .fault _ | .refused _ => false

theorem exists_next {a : Answer} (h : answers a (fun _ => true) = true) : ∃ t, a = .next t := by
  cases a with
  | next t => exact ⟨t, rfl⟩
  | fault f => cases h
  | refused r => cases h

def faultOf : Answer → Option Fault
  | .fault f => some f
  | .next _ | .refused _ => none

def refusalOf : Answer → Option Refusal
  | .refused r => some r
  | .next _ | .fault _ => none

/-- What a decoder answered, as plain data. -/
def decoded (e : Except DecodeError Instr) : DecodeError ⊕ Instr :=
  match e with
  | .error d => .inl d
  | .ok i => .inr i

/-- `AT$W=02,FF`, `AT$W=`, `AT$R=02`, `OK`, `ERROR`, `ERROR_12` and `FF` (spec/95_test_vectors.md F1, F8, S1, C8). -/
def txtW : List Byte := [0x41, 0x54, 0x24, 0x57, 0x3D, 0x30, 0x32, 0x2C, 0x46, 0x46]
def txtR : List Byte := [0x41, 0x54, 0x24, 0x52, 0x3D, 0x30, 0x32]
def txtOk : List Byte := [0x4F, 0x4B]
def txtError : List Byte := [0x45, 0x52, 0x52, 0x4F, 0x52]
def txtError12 : List Byte := [0x45, 0x52, 0x52, 0x4F, 0x52, 0x5F, 0x31, 0x32]
def txtFF : List Byte := [0x46, 0x46]

/-! ### Ill-formed operands -/

theorem test_wf_write : (Instr.write [0x0D]).wf bench = false ∧ (Instr.write [0x30]).wf bench = true := by decide
theorem test_wf_read : (Instr.read [0x30, 0x0D]).wf bench = false ∧ (Instr.read []).wf bench = true := by decide
theorem test_wf_generic : (Instr.generic txtW).wf bench = false ∧ (Instr.generic [0x41, 0x00]).wf bench = false ∧
    (Instr.generic [0x0D]).wf bench = false ∧ (Instr.generic (List.replicate 32 0x41)).wf bench = false ∧
    (Instr.generic (List.replicate 31 0x41)).wf bench = true := by decide
theorem test_wf_error : (Instr.error [0x0D]).wf bench = false ∧ (Instr.error []).wf bench = true := by decide
theorem test_wf_value : (Instr.value txtOk).wf bench = false ∧ (Instr.value []).wf bench = false ∧
    (Instr.value txtFF).wf bench = true := by decide
theorem test_wf_noise : (Instr.noise [0x0D]).wf bench = false ∧ (Instr.noise txtOk).wf bench = false ∧
    (Instr.noise [0x0A, 0x4F, 0x4B]).wf bench = true := by decide
theorem test_wf_flush : (Instr.flush 4).wf bench = false ∧ (Instr.flush 3).wf bench = true := by decide
theorem test_wf_encodeMinhex : (Instr.encodeMinhex 0 0).wf bench = false ∧ (Instr.encodeMinhex 0 5).wf bench = false ∧
    (Instr.encodeMinhex 0x100 1).wf bench = false ∧ (Instr.encodeMinhex 0xFF 1).wf bench = true := by decide
theorem test_wf_buildGeneric : (Instr.buildGeneric [0x00]).wf bench = false ∧ (Instr.buildGeneric [0x0D]).wf bench = false ∧
    (Instr.buildGeneric (List.replicate 32 0x41)).wf bench = false ∧ (Instr.buildGeneric []).wf bench = true := by decide
theorem test_wf_buildWrite :
    (Instr.buildWrite 0xFF allBits 0xFFFFFFFE).wf { bench with txCapacity := 25 } = false ∧
    (Instr.buildWrite 0xFF allBits 0xFFFFFFFE).wf { bench with txCapacity := 26 } = true := by decide
theorem test_wf_buildRead : (Instr.buildRead 0).wf { bench with txCapacity := 7 } = false ∧
    (Instr.buildRead 0).wf { bench with txCapacity := 8 } = true := by decide
theorem test_wf_decode : (Instr.decode txtFF 3 .endOfLine).wf bench = false ∧
    (Instr.decode txtFF 2 .endOfLine).wf bench = true := by decide
theorem test_wf_attempt : (Instr.attempt { readLatch 0 with op := .generic, text := [0x0D] }).wf bench = false ∧
    (Instr.attempt { readLatch 0 with node := 8 }).wf bench = false ∧ (Instr.attempt (readLatch 0)).wf bench = true := by decide
theorem test_wf_access :
    (Instr.access { readLatch 0 with op := .generic, text := List.replicate 32 0x41 } false).wf bench = false ∧
    (Instr.access { readLatch 0 with node := 8 } false).wf bench = false ∧
    (Instr.access { readLatch 0 with node := 7 } false).wf bench = true := by decide
theorem test_wf_slaveWrite : (Instr.slaveWrite txtW 11).wf bench = false ∧ (Instr.slaveWrite [0x0D] 0).wf bench = false ∧
    (Instr.slaveWrite txtW 5).wf bench = true := by decide
theorem test_wf_slaveRead : (Instr.slaveRead txtR 8).wf bench = false ∧ (Instr.slaveRead [0x0D] 0).wf bench = false ∧
    (Instr.slaveRead txtR 5).wf bench = true := by decide

/-! ### Lines written out from the encodings -/

/-- R102, vector F2: `AT$W=02,FF,FFFF`. -/
theorem test_decode_write : decoded (decodeLine bench .command
    [0x41, 0x54, 0x24, 0x57, 0x3D, 0x30, 0x32, 0x2C, 0x46, 0x46, 0x2C, 0x46, 0x46, 0x46, 0x46, 0x0D]) =
    .inr (.write [0x30, 0x32, 0x2C, 0x46, 0x46, 0x2C, 0x46, 0x46, 0x46, 0x46]) := by decide
/-- R103, vector F8: `AT$R=02`. -/
theorem test_decode_read : decoded (decodeLine bench .command [0x41, 0x54, 0x24, 0x52, 0x3D, 0x30, 0x32, 0x0D]) =
    .inr (.read [0x30, 0x32]) := by decide
/-- R104, vector F12: `AT`. -/
theorem test_decode_generic : decoded (decodeLine bench .command [0x41, 0x54, 0x0D]) = .inr (.generic [0x41, 0x54]) := by
  decide
/-- R107, vector B1: `OK`. -/
theorem test_decode_ok : decoded (decodeLine bench .reply [0x4F, 0x4B, 0x0D]) = .inr .ok := by decide
/-- R108, vector C8: `ERROR_12`. -/
theorem test_decode_error : decoded (decodeLine bench .reply [0x45, 0x52, 0x52, 0x4F, 0x52, 0x5F, 0x31, 0x32, 0x0D]) =
    .inr (.error [0x5F, 0x31, 0x32]) := by decide
/-- R109, vectors C6 and C16: `12345678` and `EE`. -/
theorem test_decode_value : decoded (decodeLine bench .reply [0x31, 0x32, 0x33, 0x34, 0x35, 0x36, 0x37, 0x38, 0x0D]) =
    .inr (.value [0x31, 0x32, 0x33, 0x34, 0x35, 0x36, 0x37, 0x38]) ∧
    decoded (decodeLine bench .reply [0x45, 0x45, 0x0D]) = .inr (.value [0x45, 0x45]) := by decide
/-- R112, vectors C9 and C13: `ERR`, and a line feed before `OK`. -/
theorem test_decode_noise : decoded (decodeLine bench .reply [0x45, 0x52, 0x52, 0x0D]) = .inr (.noise [0x45, 0x52, 0x52]) ∧
    decoded (decodeLine bench .reply [0x0A, 0x4F, 0x4B, 0x0D]) = .inr (.noise [0x0A, 0x4F, 0x4B]) := by decide
/-- R101: bytes that are no line are rejected by name. -/
theorem test_decode_reject : decoded (decodeLine bench .reply []) = .inl .empty ∧
    decoded (decodeLine bench .reply [0x4F, 0x4B]) = .inl .noEndMarker ∧
    decoded (decodeLine bench .reply [0x4F, 0x0D, 0x4B, 0x0D]) = .inl .endMarkerInside := by decide
/-- The patterns of spec/opcode_table.json. -/
theorem test_table : decodeTableWord 24 0x4F4B0D = some .ok ∧ decodeTableWord 40 0x415424573D = some (.write []) ∧
    decodeTableWord 40 0x415424523D = some (.read []) ∧ decodeTableWord 40 0x4552524F52 = some (.error []) := by decide
/-- The line of a table row runs as the first instruction after reset; the receiver is off, so it is dropped (R82). -/
theorem test_table_runs : answers (step (State.reset.withFetchWord 24 0x4F4B0D)) (fun t => decide (t = State.reset)) = true := by
  decide

/-! ### Vectors of spec/95_test_vectors.md -/

/-- Vector B4: `41 00 42 0D`. -/
theorem test_pushByte : answers (execAll ([0x41#8, 0x00#8, 0x42#8, 0x0D#8].map Instr.pushByte) (master [] [])) (fun t =>
    decide (t.ring.slot 0 = ⟨3, true, 0⟩) && decide (t.ring.writeCursor = 1) && decide (t.ring.line bench 0 = [0x41]) &&
    decide (Memory.read t.ring.mem 2 = 0x42)) = true := by decide
/-- Vector B7, `SLOT_CAPACITY = 4`: the fourth byte of a slot overflows. -/
theorem test_pushByte_overflow : faultOf (execAll ([0x41#8, 0x42#8, 0x43#8, 0x44#8].map Instr.pushByte)
    { master [] [] with params := { bench with slotCapacity := 4 } }) = some .slotOverflow := by decide
/-- Vectors B1 and B8: pending after a line, and still after FLUSH(0). -/
theorem test_hasPending : answers (execAll ([0x4F#8, 0x4B#8, 0x0D#8].map Instr.pushByte ++ [.hasPending]) (master [] []))
    (fun t => decide (t.ret = .flag true)) = true := by decide
theorem test_flush : answers (execAll ([0x4F#8, 0x4B#8, 0x0D#8].map Instr.pushByte ++ [.flush 0, .hasPending]) (master [] []))
    (fun t => decide (t.ring.slot 0 = ⟨0, false, 0⟩) && decide (Memory.read t.ring.mem 0 = 0x4F) &&
      decide (t.ring.writeCursor = 1) && decide (t.ring.readCursor = 0) && decide (t.ret = .flag true)) = true := by decide
/-- Vector B9: FLUSH_ALL after a partial line. -/
theorem test_flushAll : answers (execAll [.pushByte 0x46, .pushByte 0x46, .flushAll] (master [] []))
    (fun t => decide (t.ring.slots = List.replicate 4 ⟨0, false, 0⟩) && decide (t.ring.writeCursor = 0)) = true := by decide
/-- Vectors A9 and A14. -/
theorem test_encodeMinhex : answers (exec (.encodeMinhex 0x00FF00FF 4) (master [] [])) (fun t =>
    decide (t.ret = .bytes [0x46, 0x46, 0x30, 0x30, 0x46, 0x46])) = true := by decide
theorem test_encodeMinhex_zero : answers (exec (.encodeMinhex 0 1) (slave [] [])) (fun t =>
    decide (t.ret = .bytes [0x30, 0x30])) = true := by decide
/-- Vectors F1, F2, F8 and F12. -/
theorem test_buildWrite : answers (exec (.buildWrite 0x02 0xFF allBits) (master [] [])) (fun t =>
    decide (t.seq.txFrame = txtW ++ [0x0D])) = true := by decide
theorem test_buildWrite_mask : answers (exec (.buildWrite 0x02 0xFF 0xFFFF) (master [] [])) (fun t =>
    decide (t.seq.txFrame = txtW ++ [0x2C, 0x46, 0x46, 0x46, 0x46, 0x0D])) = true := by decide
theorem test_buildRead : answers (exec (.buildRead 0x02) (master [] [])) (fun t =>
    decide (t.seq.txFrame = txtR ++ [0x0D])) = true := by decide
theorem test_buildGeneric : answers (exec (.buildGeneric [0x41, 0x54]) (master [] [])) (fun t =>
    decide (t.seq.txFrame = [0x41, 0x54, 0x0D])) = true := by decide
/-- Part A: `Decode("0100") = ok(0x100)`, and nine digits are a parse error in the reference instance. -/
theorem test_decodeField : answers (exec (.decode [0x30, 0x31, 0x30, 0x30] 0 .endOfLine) (master [] [])) (fun t =>
    decide (t.ret = .field (some (0x100, 4)))) = true := by decide
theorem test_decodeField_long : answers (exec (.decode [0x31, 0x32, 0x33, 0x34, 0x35, 0x36, 0x37, 0x38, 0x39] 0 .endOfLine)
    (master [] [])) (fun t => decide (t.ret = .field none)) = true := by decide
/-- Vectors C10 and C8: an exact match fails on a trailing space, a header match ignores the rest. -/
theorem test_compare_exact : answers (exec (.compare [0x4F, 0x4B, 0x20] .exact txtOk) (master [] [])) (fun t =>
    decide (t.ret = .flag false)) = true := by decide
theorem test_compare_header : answers (exec (.compare txtError12 .header txtError) (master [] [])) (fun t =>
    decide (t.ret = .flag true)) = true := by decide
/-- Vector D3, timeout 0: the attempt ends in iteration 1, timers 20 and 20, no reply. -/
theorem test_attempt : answers (exec (.attempt (readLatch 0)) (master [true, true, true, true] [[], []])) (fun t =>
    decide (t.ret = .attempt ⟨true, false, false, false⟩) && decide (t.seq.replyTimer = 20) && decide (t.seq.seqTimer = 20) &&
    decide (t.env.deliveries = [[]]) && decide (t.seq.fsm = .idle)) = true := by decide
/-- Vector D6 with a timeout of 20: a noise line in Delay 1 restarts the reply-timer; then the parser rejected. -/
theorem test_attempt_noise : answers (exec (.attempt (writeLatch 20)) (master [true, true, true, true] [[0x48, 0x0D], [], []]))
    (fun t => decide (t.ret = .attempt ⟨false, false, true, false⟩) && decide (t.seq.replyTimer = 40) &&
      decide (t.seq.seqTimer = 60) && decide (t.seq.linesSeen = 1)) = true := by decide
/-- Program P3': a remote error in each of three attempts is the status of the last one. -/
theorem test_access : answers (exec (.access (readLatch 40) false) (master (List.replicate 12 true)
    (List.replicate 3 (txtError ++ [0x0D])))) (fun t => decide (t.seq.status = ⟨false, false, false, true⟩) &&
      decide (t.seq.attempt = 3) && decide (t.seq.fsm = .idle)) = true := by decide
/-- `one_attempt` makes the first failure the last (R201). -/
theorem test_access_one : answers (exec (.access (readLatch 40) true) (master (List.replicate 4 true)
    [txtError ++ [0x0D]])) (fun t => decide (t.seq.attempt = 1) && decide (t.seq.fsm = .idle)) = true := by decide
/-- Program P1: OK in Delay 2. -/
theorem test_writeRegister : answers (exec (.writeRegister 5 0x02 0xFF allBits (.kind .ok) 100 true)
    (master (List.replicate 4 true) [[], txtOk ++ [0x0D]])) (fun t => decide (t.ret = .call .callSuccess) &&
      decide (t.host.status = Status.zero) && decide (t.ring.slot 0 = ⟨2, true, 0⟩) && decide (t.ring.writeCursor = 1) &&
      decide (t.ring.readCursor = 0) && decide (t.seq.seqTimer = 40) && decide (t.seq.replyTimer = 0) &&
      decide (t.seq.linesSeen = 1) && decide (t.env.txDest = 5)) = true := by decide
/-- Vector D18: the send fails, and no second attempt is made. -/
theorem test_writeRegister_abort : answers (exec (.writeRegister 5 0x02 0xFF allBits (.kind .ok) 100 true)
    (master [true, false, true] [])) (fun t => decide (t.ret = .call .transportError) &&
      decide (t.events = [.fsm .idle, .tx .disableReceive true, .tx (.sendFrame (txtW ++ [0x0D])) false,
        .tx (.setDestination 5) true, .fsm .sending])) = true := by decide
/-- Program P2: a noise line in Delay 1, the value in Delay 3. -/
theorem test_readRegister : answers (exec (.readRegister 5 0x02 (.kind .value) 100 true true)
    (master (List.replicate 4 true) [[0x42, 0x4F, 0x4F, 0x54, 0x0D], [], txtFF ++ [0x0D]])) (fun t =>
      decide (t.host.value = 0xFF) && decide (t.host.status = Status.zero) && decide (t.ring.readCursor = 1) &&
      decide (t.ring.writeCursor = 2) && decide (t.seq.linesSeen = 2) && decide (t.seq.seqTimer = 60)) = true := by decide
/-- Vector D13 and program P6: after an overrun the newest line is the one that is read. -/
theorem test_readRegister_overrun : answers (exec (.readRegister 5 0x02 (.kind .value) 60 true true)
    (master (List.replicate 4 true) [[0x47, 0x31, 0x0D, 0x47, 0x32, 0x0D, 0x47, 0x33, 0x0D, 0x47, 0x34, 0x0D, 0x32, 0x41, 0x0D]]))
    (fun t => decide (t.host.value = 0x2A) && decide (t.ring.writeCursor = 1) && decide (t.ring.readCursor = 0)) = true := by
  decide
/-- Vectors F12 and D5 for a generic command, and R204: a text with an end marker is a caller error. -/
theorem test_sendCommand : answers (exec (.sendCommand 5 [0x41, 0x54] (.kind .ok) 100 true)
    (master (List.replicate 4 true) [txtOk ++ [0x0D]])) (fun t => decide (t.seq.txFrame = [0x41, 0x54, 0x0D]) &&
      decide (t.ret = .call .callSuccess)) = true := by decide
theorem test_sendCommand_caller : answers (exec (.sendCommand 5 [0x0D] (.kind .ok) 100 true) (master [] []))
    (fun t => decide (t.ret = .call .callerError) && decide (t.events = [])) = true := by decide
/-- Program P5 with the probes answered in Delay 1: address 0 an error, 1 consistent, 2 inconsistent, 3 an error. -/
theorem test_scan : answers (exec (.scan true 4) { master (List.replicate 16 true) [txtError ++ [0x0D],
    [0x30, 0x41, 0x30, 0x31, 0x0D], [0x30, 0x42, 0x30, 0x33, 0x0D], txtError ++ [0x0D]] with
      params := Params.reference .master }) (fun t => decide (t.host.list = [⟨1, 0x0A⟩]) && decide (t.host.found = 1) &&
      decide (t.ret = .call .callSuccess) && decide (t.env.txDest = 3)) = true := by decide
/-- Variant P5': with `capacity = 1` the scan stops after the first hit. -/
theorem test_scan_capacity : answers (exec (.scan true 1) { master (List.replicate 16 true) [txtError ++ [0x0D],
    [0x30, 0x41, 0x30, 0x31, 0x0D], [0x30, 0x42, 0x30, 0x33, 0x0D]] with params := Params.reference .master }) (fun t =>
      decide (t.host.found = 1) && decide (t.env.txDest = 1) && decide (t.env.deliveries.length = 1)) = true := by decide
/-- Vectors G1 and G2. -/
theorem test_initMaster : answers (exec (.initMaster [] 3 1000)
    { State.built bench with env := { Env.unsettled with txResults := [true] } }) (fun t =>
      decide (t.ret = .call .callSuccess) && t.initialized && decide (t.cfg = ⟨[], 3, 1000⟩)) = true := by decide
theorem test_initMaster_zero : answers (exec (.initMaster [] 0 1000) (State.built bench)) (fun t =>
    decide (t.ret = .call .callerError) && !t.initialized) = true := by decide
/-- Vectors G4 and G3. -/
theorem test_initSlave : answers (exec (.initSlave none none none) (State.built (Params.reference .slave))) (fun t =>
    decide (t.ret = .call .callSuccess) && t.slave.handlersRegistered) = true := by decide
theorem test_initSlave_twice : faultOf (exec (.initSlave none none none) (slave [] [])) = some .lifecycleViolation := by decide
/-- Vector G5. -/
theorem test_deinitMaster : faultOf (execAll [.deinitMaster, .readRegister 5 0x02 (.kind .value) 100 true true]
    (master [true] [])) = some .lifecycleViolation := by decide
theorem test_deinitSlave : answers (exec .deinitSlave (slave [] [])) (fun t =>
    !t.initialized && !t.slave.handlersRegistered && decide (t.events = [.unregisterHandlers])) = true := by decide
/-- Vector E2 (a mask field), and E6 (a fourth field makes the third one unreadable). -/
theorem test_slaveWrite : answers (exec (.slaveWrite (txtW ++ [0x2C, 0x46, 0x46, 0x46, 0x46]) 5) (slave [true] [])) (fun t =>
    decide (t.ret = .handler .success) && decide (t.events = [.cbWrite 1 0x02 0xFF 0xFFFF true, .turnaround false,
      .delay 10, .turnaround true])) = true := by decide
theorem test_slaveWrite_fields : answers (exec (.slaveWrite [0x41, 0x54, 0x24, 0x57, 0x3D, 0x32, 0x2C, 0x46, 0x46, 0x2C, 0x30,
    0x2C, 0x46, 0x46, 0x46, 0x46] 5) (slave [true] [])) (fun t => decide (t.ret = .handler .commandExecutionError) &&
      decide (t.env.cbWriteResults = [true])) = true := by decide
/-- Vectors E19 (with register 02) and E23. -/
theorem test_slaveRead : answers (exec (.slaveRead txtR 5) (slave [] [some 0x00010000])) (fun t =>
    decide (t.slave.replyPayload = [0x30, 0x31, 0x30, 0x30, 0x30, 0x30]) && decide (t.ret = .handler .success)) = true := by
  decide
theorem test_slaveRead_wide : answers (exec (.slaveRead [0x41, 0x54, 0x24, 0x52, 0x3D, 0x31, 0x46, 0x46] 5)
    (slave [] [some 0])) (fun t => decide (t.ret = .handler .commandExecutionError) &&
      decide (t.env.cbReadResults = [some 0])) = true := by decide
/-- Program P4, steps 1 and 2, from the wire: the dispatcher answers OK, and the payload `340000`. -/
theorem test_write : answers (exec (.write [0x30, 0x32, 0x2C, 0x31, 0x32, 0x33, 0x34, 0x35, 0x36, 0x37, 0x38, 0x2C, 0x46, 0x46,
    0x30, 0x30, 0x30, 0x30]) (slave [true] [])) (fun t => decide (t.events.take 2 = [.dispatcherLine [0x4F, 0x4B, 0x0D],
      .cbWrite 1 0x02 0x12345678 0x00FF0000 true])) = true := by decide
theorem test_read : answers (exec (.read [0x30, 0x32]) (slave [] [some 0x00340000])) (fun t =>
    decide (t.events.take 1 = [.dispatcherLine [0x33, 0x34, 0x30, 0x30, 0x30, 0x30, 0x0D]])) = true := by decide
/-- R113: another command line does not reach the block. -/
theorem test_generic : answers (exec (.generic [0x41, 0x54]) (slave [] [])) (fun t => decide (t = slave [] [])) = true := by
  decide
/-- Vectors C1, C7, C3 and C13: the reply lines at a master that waits. -/
theorem test_ok : answers (exec .ok (waiting (writeLatch 100) .writeRegister 1 [true])) (fun t =>
    decide (t.seq.status = Status.zero) && decide (t.seq.fsm = .idle) && decide (t.ret = .call .callSuccess)) = true := by decide
theorem test_error : answers (exec (.error [0x5F, 0x31]) (waiting (writeLatch 100) .writeRegister 3 [true])) (fun t =>
    decide (t.host.status = ⟨false, false, false, true⟩) && decide (t.seq.fsm = .idle)) = true := by decide
theorem test_value : answers (exec (.value txtFF) (waiting (readLatch 100) .readRegister 1 [true])) (fun t =>
    decide (t.host.value = 0xFF) && decide (t.seq.fsm = .idle)) = true := by decide
theorem test_noise : answers (exec (.noise [0x0A, 0x4F, 0x4B]) (waiting (writeLatch 100) .writeRegister 1 [])) (fun t =>
    decide (t.seq.fsm = .awaitingReply) && decide (t.ring.readCursor = 1) && decide (t.seq.replyTimer = 0) &&
    decide (t.seq.linesSeen = 1)) = true := by decide

/-- The stops by name: the other role (R274), a second access (R308), an index outside the ring (R148), bytes that are no line. -/
theorem test_refusals : refusalOf (exec .hasPending (slave [] [])) = some .otherRole ∧
    refusalOf (exec (.attempt (readLatch 0)) (waiting (writeLatch 0) .attempt 1 [])) = some .operationInProgress ∧
    refusalOf (exec (.flush 4) (master [] [])) = some .noSuchSlot ∧
    refusalOf (step { master [] [] with env := { Env.unsettled with inputs := [.line txtOk] } }) =
      some (.undecodable .noEndMarker) := by decide

/-- R119: the receiver goes by its role and the bytes. A slave that is handed `AT$W=02,FF` runs SLAVE_WRITE, whether the line
comes as an input or by another constructor. -/
theorem test_line_by_role :
    answers (step { slave [true] [] with env := { Env.unsettled with inputs := [.line (txtW ++ [0x0D])], cbWriteResults := [true] } })
      (fun t => decide (t.ret = .handler .success)) = true ∧
    answers (exec (.noise txtW) (slave [true] [])) (fun t => decide (t.ret = .handler .success) &&
      decide (t.events.take 2 = [.dispatcherLine [0x4F, 0x4B, 0x0D], .cbWrite 1 0x02 0xFF allBits true])) = true := by decide

/-- Parameters other than T's: with `;` and a line feed as separator and end marker the frame and the line follow (R10). -/
theorem test_other_markers :
    answers (exec (.buildWrite 0x02 0xFF 0xFFFF) { master [] [] with params := { bench with separator := 0x3B, endMarker := 0x0A } })
      (fun t => decide (t.seq.txFrame = [0x41, 0x54, 0x24, 0x57, 0x3D, 0x30, 0x32, 0x3B, 0x46, 0x46, 0x3B, 0x46, 0x46, 0x46, 0x46,
        0x0A])) = true ∧
    answers (execAll [.pushByte 0x0D, .pushByte 0x0A]
      { master [] [] with params := { bench with separator := 0x3B, endMarker := 0x0A } })
      (fun t => decide (t.ring.slot 0 = ⟨1, true, 0⟩)) = true := by decide

/-- Operands outside what a rule admits: R170 gives a parse error past the end, the rest are caller errors (R78, I13). -/
theorem test_odd_operands :
    answers (exec (.decode txtFF 3 .endOfLine) (master [] [])) (fun t => decide (t.ret = .field none)) = true ∧
    answers (exec (.slaveWrite txtW 11) (slave [true] [])) (fun t => decide (t.ret = .handler .commandExecutionError)) = true ∧
    answers (exec (.buildGeneric [0x0D]) (master [] [])) (fun t => decide (t.ret = .call .callerError)) = true ∧
    answers (exec (.access { readLatch 0 with node := 8 } true) (master [] [])) (fun t =>
      decide (t.ret = .call .callerError) && decide (t.events = [])) = true ∧
    answers (exec (.encodeMinhex 0x100 1) (master [] [])) (fun t => decide (t.seq = (master [] []).seq)) = true := by decide

/-- R263: a disable that fails at DEINIT_MASTER is a transport error. -/
theorem test_deinitMaster_abort : answers (exec .deinitMaster (master [false] [])) (fun t =>
    decide (t.ret = .call .transportError) && t.initialized && !t.seq.rxEnabled) = true := by decide

/-- Vector D20: the disable of the exit procedure fails after an accepted line. -/
theorem test_exit_disable_fails : answers (exec (.writeRegister 5 0x02 0xFF allBits (.kind .ok) 100 true)
    (master [true, true, true, false] [txtOk ++ [0x0D]])) (fun t => decide (t.ret = .call .transportError) &&
      decide (t.seq.fsm = .idle) && !t.seq.rxEnabled && decide (t.host = (master [] []).host)) = true := by decide

/-- Vector C2: an `OK` line at a master that waits for a value is noise. -/
theorem test_ok_when_value_expected : answers (exec .ok (waiting (readLatch 100) .readRegister 1 [])) (fun t =>
    decide (t.seq.fsm = .awaitingReply) && decide (t.seq.linesSeen = 1) && decide (t.seq.replyTimer = 0)) = true := by decide

/-! ### A state for every statement's hypotheses

Each theorem meets all hypotheses of the statement it is named after together; a statement with several clauses has one for
each, at the ends of their ranges. -/

/-- An instance with every parameter at the least value R10 allows. -/
def least : Params :=
  { bench with depth := 2, slotCapacity := 2, pollInterval := 1, txCapacity := 26, turnaroundDelay := 1, lastValidAddress := 0 }

def uninit (p : Params) (tx : List Bool) : State := { State.built p with env := { Env.unsettled with txResults := tx } }

/-- A master with some line in slot `i`, and with `n` bytes in its first slot. -/
def withSlot (i : Nat) (sl : Slot) : State :=
  { master [] [] with ring := { (master [] []).ring with slots := (master [] []).ring.slots.set i sl } }

theorem witness_InitLeavesTheResetValues :
    least.role = .master ∧ least.inDomain = true ∧ 1 ≤ 1 ∧ (Params.reference .slave).role = .slave ∧
      { Params.reference .slave with turnaroundDelay := 1 }.inDomain = true := by decide
theorem witness_InitMasterCases :
    (master [] []).initialized = true ∧ (master [] []).params.role = .master ∧
    ((uninit least []).initialized = false ∧ 0 < 1) ∧
    ((uninit { least with txCapacity := 25 } []).initialized = false ∧ { least with txCapacity := 25 }.inDomain = false) ∧
    (1 ≤ 1 ∧ least.inDomain = true ∧ (uninit least [false]).env.txResults = [false]) ∧
    (uninit least [true]).env.txResults = [true] := by decide
theorem witness_InitSlaveCases :
    (slave [] []).initialized = true ∧ (slave [] []).params.role = .slave ∧
    (State.built { Params.reference .slave with turnaroundDelay := 0 }).params.inDomain = false ∧
    (State.built { Params.reference .slave with depth := 1 }).params.inDomain = false ∧
    (State.built { least with role := .slave }).params.inDomain = true ∧
    (State.built (Params.reference .slave)).initialized = false := by decide
theorem witness_MasterIdle (tx : List Bool) (ds : List (List Byte)) : MasterIdle (master tx ds) := ⟨rfl, rfl, rfl⟩
theorem witness_SlaveReady (w : List Bool) (r : List (Option Word)) : SlaveReady (slave w r) := ⟨rfl, rfl⟩
theorem witness_DeinitClosesTheWindow :
    (MasterIdle (master [true] []) ∧ (master [true] []).env.txResults = true :: []) ∧
    (MasterIdle (master [false] []) ∧ (master [false] []).env.txResults = false :: []) ∧
    SlaveReady (slave [] []) ∧ ((uninit least []).params.role = .master ∧ (uninit least []).initialized = false) ∧
    (State.built (Params.reference .slave)).params.role = .slave ∧
    (State.built (Params.reference .slave)).initialized = false :=
  ⟨⟨witness_MasterIdle _ _, rfl⟩, ⟨witness_MasterIdle _ _, rfl⟩, witness_SlaveReady _ _, ⟨rfl, rfl⟩, rfl, rfl⟩
theorem witness_ConfigurationIsImmutable : isInit .hasPending = false ∧
    ∃ t, exec .hasPending (master [] []) = .next t := ⟨rfl, exists_next rfl⟩
theorem witness_OutsideTheWindowIsAFault :
    (isInit .hasPending = false ∧ isLine .hasPending = false ∧ isExternal .hasPending = false ∧
      roleOf .hasPending = some .master ∧ (uninit least []).params.role = .master ∧ (uninit least []).initialized = false) ∧
    (isInit (.initMaster [] 1 0) = true ∧ roleOf (.initMaster [] 1 0) = some (master [] []).params.role ∧
      (master [] []).initialized = true) := by decide
theorem witness_OtherRoleHasNoStep : roleOf .hasPending = some .master ∧ (slave [] []).params.role ≠ .master ∧
    roleOf .deinitSlave = some .slave ∧ (master [] []).params.role ≠ .slave := by decide
theorem witness_RolesDoNotShareState :
    ((∃ t, exec (.slaveRead txtR 5) (slave [] [some 1]) = .next t) ∧ (slave [] [some 1]).params.role = .slave) ∧
    (∃ t, exec .flushAll (master [] []) = .next t) ∧ (master [] []).params.role = .master := 
  ⟨⟨exists_next (by decide), rfl⟩, exists_next (by decide), rfl⟩
theorem witness_OnlyLifecycleOperationsMoveTheWindow :
    answers (exec (.initMaster [] 1 0) (uninit least [true])) (fun t => t.initialized) = true ∧
    answers (exec .deinitMaster (master [true] [])) (fun t => !t.initialized) = true ∧
    answers (exec .deinitSlave (slave [] [])) (fun t => !t.initialized) = true := by decide
theorem witness_PushByteStoresAnOrdinaryByte :
    (master [] []).params.role = .master ∧ (master [] []).initialized = true ∧ Memory.wf (master [] []).ring.mem = true ∧
    (withSlot 0 ⟨14, false, 0⟩).ring.slots[(withSlot 0 ⟨14, false, 0⟩).ring.writeCursor]? = some ⟨14, false, 0⟩ ∧
    (0x41#8 : Byte) ≠ bench.endMarker ∧ 14 < bench.slotCapacity - 1 := by decide
theorem witness_PushByteCompletesALine :
    (withSlot 0 ⟨15, false, 0⟩).ring.slots[(withSlot 0 ⟨15, false, 0⟩).ring.writeCursor]? = some ⟨15, false, 0⟩ ∧
    Memory.wf (withSlot 0 ⟨15, false, 0⟩).ring.mem = true ∧ (withSlot 0 ⟨15, false, 0⟩).initialized = true ∧
    (withSlot 0 ⟨15, false, 0⟩).params.role = .master ∧
    15 ≤ bench.slotCapacity - 1 ∧ 1 ≤ bench.slotCapacity := by decide
theorem witness_PushByteOverflowIsAFault :
    (withSlot 0 ⟨15, false, 0⟩).ring.slots[(withSlot 0 ⟨15, false, 0⟩).ring.writeCursor]? = some ⟨15, false, 0⟩ ∧
    (withSlot 0 ⟨15, false, 0⟩).initialized = true ∧ (withSlot 0 ⟨15, false, 0⟩).params.role = .master ∧
    15 = bench.slotCapacity - 1 ∧ (0x41#8 : Byte) ≠ bench.endMarker := by decide
theorem witness_PushByteOverwritesAnUnreadLine :
    (withSlot 0 ⟨2, true, 0⟩).ring.slots[(withSlot 0 ⟨2, true, 0⟩).ring.writeCursor]? = some ⟨2, true, 0⟩ ∧
    (withSlot 0 ⟨2, true, 0⟩).initialized = true ∧ (withSlot 0 ⟨2, true, 0⟩).params.role = .master := by decide
theorem witness_HasPendingComparesTheCursors : (master [] []).params.role = .master ∧ (master [] []).initialized = true := by
  decide
theorem witness_FlushClearsSlots : (master [] []).ring.slots.length = bench.depth ∧ 0 < bench.depth ∧ 3 < bench.depth ∧
    (master [] []).params.role = .master ∧ (master [] []).initialized = true := by decide
theorem witness_LineCompletesExactlyOneSlot :
    (master [] []).ring.slots[(master [] []).ring.writeCursor]? = some ⟨0, false, 0⟩ ∧
    Memory.wf (master [] []).ring.mem = true ∧ (master [] []).params.role = .master ∧ (master [] []).initialized = true ∧
    bench.endMarker ∉ List.replicate 15 (0x41#8 : Byte) ∧ (List.replicate 15 (0x41#8 : Byte)).length + 1 ≤ bench.slotCapacity := by
  decide
theorem witness_OverrunLosesExactlyTheOldestLine :
    (master [] []).params.role = .master ∧ (master [] []).initialized = true ∧ Memory.wf (master [] []).ring.mem = true ∧
    2 ≤ bench.depth ∧ (master [] []).ring.slots = List.replicate bench.depth ⟨0, false, 0⟩ ∧
    (master [] []).ring.writeCursor = 0 ∧ (master [] []).ring.readCursor = 0 ∧
    [txtOk, txtFF, txtError, [], txtFF].length = bench.depth + 1 ∧
    ∀ l ∈ [txtOk, txtFF, txtError, [], txtFF], PlainLine bench l ∧ l.length + 1 ≤ bench.slotCapacity := by
  unfold PlainLine; decide
theorem witness_FullRingIsInvisible :
    (master [] []).params.role = .master ∧ (master [] []).initialized = true ∧ 1 ≤ bench.depth ∧
    (master [] []).ring.slots = List.replicate bench.depth ⟨0, false, 0⟩ ∧
    (master [] []).ring.writeCursor = (master [] []).ring.readCursor ∧ (master [] []).ring.writeCursor < bench.depth ∧
    [txtOk, txtFF, txtError, []].length = bench.depth ∧
    ∀ l ∈ [txtOk, txtFF, txtError, []], bench.endMarker ∉ l ∧ l.length + 1 ≤ bench.slotCapacity := by decide

/-- A ring with one line pending. -/
def onePending : Ring := ⟨[⟨2, true, 0⟩, ⟨0, false, 0⟩, ⟨0, false, 0⟩, ⟨0, false, 0⟩], [], 1, 0⟩

theorem witness_RingDisciplineHolds :
    onePending.sound bench = true ∧ onePending.disciplined bench ∧ onePending.hasPending = true ∧
    onePending.reach bench + 1 < bench.depth ∧ (onePending.push bench bench.endMarker).isSome = true ∧
    (onePending.push bench 0x41#8).isSome = true := by
  unfold Ring.disciplined; decide
theorem witness_EncodeMinhexEmitsTheSignificantBytes :
    let digit : Nat → Byte := fun n => BitVec.ofNat 8 (if n ≤ 9 then 0x30 + n else 0x41 + n - 10)
    ((master [] []).initialized = true ∧ (0xFF#32 : Word).toNat < 2 ^ (8 * 1) ∧
      (0xFFFFFFFF#32 : Word).toNat < 2 ^ (8 * 4)) ∧
    [0x30#8, 0x30#8] = (List.range (if (0#32 : Word) = 0 then 1 else Nat.log2 (0#32 : Word).toNat / 8 + 1)).reverse.flatMap
      (fun k => [digit ((0#32 : Word).toNat / 2 ^ (8 * k + 4) % 16), digit ((0#32 : Word).toNat / 2 ^ (8 * k) % 16)]) ∧
    [0x30#8, 0x31#8, 0x41#8, 0x46#8] = (List.range (Nat.log2 (0x1AF#32 : Word).toNat / 8 + 1)).reverse.flatMap
      (fun k => [digit ((0x1AF#32 : Word).toNat / 2 ^ (8 * k + 4) % 16),
        digit ((0x1AF#32 : Word).toNat / 2 ^ (8 * k) % 16)]) := by decide
theorem witness_MinhexLaws :
    (1 ≤ 4 ∧ 4 ≤ 4 ∧ (0xFFFFFFFF#32 : Word).toNat < 2 ^ (8 * 4) ∧ 2 ^ (8 * (4 - 1)) ≤ (0xFFFFFFFF#32 : Word).toNat) ∧
    ((0xFF#32 : Word).toNat < 2 ^ (8 * 1) ∧ 2 ^ (8 * (1 - 1)) ≤ (0xFF#32 : Word).toNat) ∧
    (minhex 0 4).take 2 = [0x30#8, 0x30#8] ∧ minhex 0xFF 4 = minhex 0xFF 4 := by decide
theorem witness_BuildersWriteTheFrame :
    (master [] []).params.role = .master ∧ (master [] []).initialized = true ∧
    (bench.endMarker ∉ List.replicate 31 (0x41#8 : Byte) ∧ nul ∉ List.replicate 31 (0x41#8 : Byte) ∧
      (List.replicate 31 (0x41#8 : Byte)).length ≤ bench.txCapacity - 1 ∧ 1 ≤ bench.txCapacity) ∧
    (bench.writePrefix ++ minhex ((0xFF#8 : Byte).setWidth 32) 1 ++ [0x2C#8] ++ minhex allBits 4 ++
        (if (0xFFFFFFFE#32 : Word) ≠ 0xFFFFFFFF#32 then [0x2C#8] ++ minhex 0xFFFFFFFE 4 else []) ++ [0x0D#8]).length ≤
      bench.txCapacity ∧
    (bench.readPrefix ++ minhex ((0xFF#8 : Byte).setWidth 32) 1 ++ [0x0D#8]).length ≤ bench.txCapacity := by decide
theorem witness_RegisterFramesAlwaysFit : least.inDomain = true ∧ least.writePrefix.length = 5 ∧
    least.readPrefix.length = 5 := by decide
/-- A field before a comma and the same one at the end of a line, a field with no digit, the empty one, eight and nine digits,
an odd number of digits in lower case. -/
theorem witness_DecodeKeepsItsContract :
    bench.separator ∉ txtFF.drop 2 ∧ txtFF.drop 0 = txtFF ∧ bench.separator ∉ [0x30#8, 0x32#8] ∧
    txtW.drop 5 = [0x30#8, 0x32#8] ++ bench.separator :: txtFF ∧ txtFF = minhex 0xFF 4 ∧
    (∃ b ∈ txtOk, isHexDigit b = false) ∧ bench.tokenizer = .reference ∧
    List.Forall₂ (fun d b => d ≤ 9 ∧ b = BitVec.ofNat 8 (0x30 + d) ∨
        10 ≤ d ∧ d ≤ 15 ∧ (b = BitVec.ofNat 8 (0x41 + d - 10) ∨ b = BitVec.ofNat 8 (0x61 + d - 10)))
      [15, 0, 10] [0x66#8, 0x30#8, 0x41#8] ∧
    8 < (List.replicate 9 (0x30#8 : Byte)).length :=
  ⟨by decide, rfl, by decide, by decide, by decide, by decide, rfl,
    .cons (by decide) (.cons (by decide) (.cons (by decide) .nil)), by decide⟩
theorem witness_CompareIsBytewise : (master [] []).params.tokenizer = .reference := by decide

/-! The access machine. `busy` is a master that can run any access; `node` 7 is `LAST_VALID_ADDRESS` of the bench. -/

theorem witness_SendingOpensTheWait : MasterIdle (master [true, true, true] []) ∧ accessFits bench (readLatch 0) = true ∧
    (readLatch 0).expectation ≠ .none ∧ (master [true, true, true] []).env.txResults = true :: true :: true :: [] ∧
    (master [true, true, true] []).env.deliveries = [] := ⟨witness_MasterIdle _ _, by decide, by decide, rfl, rfl⟩
theorem witness_NoExpectationSucceedsAtOnce :
    MasterIdle (master [true, true, true] []) ∧ (master [true, true, true] []).env.txResults = true :: true :: true :: [] ∧
    7 ≤ bench.lastValidAddress ∧ (writeFrame bench 0xFF allBits 0xFFFFFFFE).length ≤ bench.txCapacity ∧
    (readFrame bench 0).length ≤ bench.txCapacity ∧ framable bench txtOk = true ∧
    (txtOk ++ [bench.endMarker]).length ≤ bench.txCapacity :=
  ⟨witness_MasterIdle _ _, rfl, by decide, by decide, by decide, by decide, by decide⟩
theorem witness_OkReplyEndsTheAccess :
    MasterIdle (master [true, true, true, true] [txtOk ++ [bench.endMarker]]) ∧
    (master [true, true, true, true] [txtOk ++ [bench.endMarker]]).env.txResults = true :: true :: true :: true :: [] ∧
    (master [true, true, true, true] [txtOk ++ [bench.endMarker]]).env.deliveries = (bench.okToken ++ [bench.endMarker]) :: [] ∧
    (master [] []).ring.sound bench = true ∧ Memory.wf (master [] []).ring.mem = true ∧ 2 ≤ bench.depth ∧
    PlainLine bench bench.okToken ∧ bench.okToken.length + 1 ≤ bench.slotCapacity ∧ 7 ≤ bench.lastValidAddress ∧
    (writeFrame bench 2 0xFF allBits).length ≤ bench.txCapacity ∧ (readFrame bench 0).length ≤ bench.txCapacity ∧
    framable bench txtFF = true ∧
    (txtFF ++ [bench.endMarker]).length ≤ bench.txCapacity :=
  ⟨witness_MasterIdle _ _, rfl, by decide, by decide, by decide, by decide, by unfold PlainLine; decide, by decide,
    by decide, by decide, by decide, by decide, by decide⟩
theorem witness_ReadDeliversTheValue :
    MasterIdle (master [true, true, true, true] [minhex allBits 4 ++ [bench.endMarker]]) ∧
    (master [true, true, true, true] [minhex allBits 4 ++ [bench.endMarker]]).env.txResults = true :: true :: true :: true :: [] ∧
    (master [true, true, true, true] [minhex allBits 4 ++ [bench.endMarker]]).env.deliveries = (minhex allBits 4 ++ [bench.endMarker]) :: [] ∧
    (master [] []).ring.sound bench = true ∧ Memory.wf (master [] []).ring.mem = true ∧ 2 ≤ bench.depth ∧
    9 ≤ bench.slotCapacity ∧ isHexDigit bench.endMarker = false ∧ 7 ≤ bench.lastValidAddress ∧
    (readFrame bench 0).length ≤ bench.txCapacity ∧ (writeFrame bench 2 0xFF allBits).length ≤ bench.txCapacity ∧
    framable bench txtFF = true ∧ (txtFF ++ [bench.endMarker]).length ≤ bench.txCapacity :=
  ⟨witness_MasterIdle _ _, rfl, rfl, by decide, by decide, by decide, by decide, by decide, by decide, by decide, by decide,
    by decide, by decide⟩
theorem witness_ValuePlaceIsWrittenOnlyOnAnAcceptedValue :
    answers (exec (.readRegister 5 2 (.kind .value) 100 true true)
      (master [true, true, true, true] [txtFF ++ [bench.endMarker]])) (fun t =>
        decide (t.host.value ≠ (master [true, true, true, true] [txtFF ++ [bench.endMarker]]).host.value)) = true := by decide
/-- Both cases of R208, with a partial line of 15 bytes that just fits its slot. -/
theorem witness_SilentPeerTimesOut :
    let ds := [List.replicate 15 0x41#8, [], []]
    let s := masterWith ⟨[], 1, 40⟩ [true, true, true, true] ds
    MasterIdle s ∧ accessFits s.params (readLatch 40) = true ∧ (readLatch 40).expectation ≠ .none ∧ 1 ≤ s.params.pollInterval ∧
    s.env.txResults = true :: true :: true :: true :: [] ∧
    3 = min (pollsUntil s.params (readLatch 40).timeout) (pollsUntil s.params s.cfg.sequenceCeiling) ∧
    s.env.deliveries = ds ∧ 3 ≤ ds.length ∧ bench.endMarker ∉ ds.flatten ∧ ds.flatten.length + 1 ≤ s.params.slotCapacity ∧
    ¬ pollsUntil s.params 40 < pollsUntil s.params s.cfg.sequenceCeiling ∧
    pollsUntil s.params 39 < pollsUntil s.params s.cfg.sequenceCeiling := by unfold MasterIdle; decide
theorem witness_EveryAccessTerminates :
    let s := { masterWith ⟨[], 1, 20⟩ [] [[], []] with params := { bench with lastValidAddress := 0 } }
    MasterIdle s ∧ 1 ≤ s.params.pollInterval ∧ 2 = pollsUntil s.params s.cfg.sequenceCeiling ∧
    2 ≤ s.env.deliveries.length ∧ runsAccess (.access (readLatch 40) false) = true ∧
    (∀ a, Instr.access (readLatch 40) false ≠ .attempt a) ∧ (∀ l c, Instr.access (readLatch 40) false ≠ .scan l c) ∧
    1 ≤ s.cfg.maxAttempts ∧ s.cfg.maxAttempts * 2 ≤ s.env.deliveries.length ∧
    (s.params.lastValidAddress + 1) * 2 ≤ s.env.deliveries.length :=
  ⟨⟨rfl, rfl, rfl⟩, by decide, by decide, by decide, rfl, fun _ => Instr.noConfusion, fun _ _ => Instr.noConfusion,
    by decide, by decide, by decide⟩
theorem witness_RetriesUntilTheFirstSuccess :
    MasterIdle (master (List.replicate 12 true) (List.replicate 2 (txtError12 ++ [bench.endMarker]) ++ [txtOk ++ [bench.endMarker]])) ∧
    (master [] []).ring.sound bench = true ∧ Memory.wf (master [] []).ring.mem = true ∧ 2 ≤ bench.depth ∧
    bench.tokenizer = .reference ∧ bench.errorToken.isPrefixOf bench.okToken = false ∧ PlainLine bench bench.okToken ∧
    bench.okToken.length + 1 ≤ bench.slotCapacity ∧ PlainLine bench (bench.errorToken ++ [0x5F, 0x31, 0x32]) ∧
    (bench.errorToken ++ [0x5F, 0x31, 0x32]).length + 1 ≤ bench.slotCapacity ∧ accessFits bench (writeLatch 40) = true ∧
    (writeLatch 40).expectation = .ok ∧ 2 + 1 ≤ (master [] []).cfg.maxAttempts ∧
    (master (List.replicate 12 true) []).env.txResults = List.replicate (4 * (2 + 1)) true ++ [] ∧
    List.replicate 2 (txtError12 ++ [bench.endMarker]) ++ [txtOk ++ [bench.endMarker]] =
      List.replicate 2 (bench.errorToken ++ [0x5F, 0x31, 0x32] ++ [bench.endMarker]) ++ (bench.okToken ++ [bench.endMarker]) :: [] := by
  unfold PlainLine MasterIdle; decide
/-- An error report, silence and an error report; and silence as the last cause. -/
theorem witness_ExhaustedAccessReportsTheLastStatus :
    let errors : List (List Byte) := [txtError12 ++ [bench.endMarker]]
    let s := masterWith ⟨[], 3, 40⟩ (List.replicate 12 true) (errors ++ [[], [], []] ++ [txtError ++ [bench.endMarker]])
    MasterIdle s ∧ s.ring.sound s.params = true ∧ Memory.wf s.ring.mem = true ∧ 2 ≤ s.params.depth ∧ 1 ≤ s.params.pollInterval ∧
    s.params.tokenizer = .reference ∧ s.params.errorToken.isPrefixOf s.params.okToken = false ∧
    (PlainLine s.params (s.params.errorToken ++ [0x5F, 0x31, 0x32]) ∧ PlainLine s.params (s.params.errorToken ++ [])) ∧
    (s.params.errorToken ++ [0x5F, 0x31, 0x32]).length + 1 ≤ s.params.slotCapacity ∧ 7 ≤ s.params.lastValidAddress ∧
    (writeFrame s.params 2 0xFF allBits).length ≤ s.params.txCapacity ∧
    s.cfg.maxAttempts = ([some [0x5F#8, 0x31#8, 0x32#8], none] ++ [some []]).length ∧
    3 = min (pollsUntil s.params 100) (pollsUntil s.params s.cfg.sequenceCeiling) ∧
    s.env.txResults = List.replicate (4 * s.cfg.maxAttempts) true ++ [] ∧
    s.env.deliveries = ([some [0x5F#8, 0x31#8, 0x32#8], none] ++ [some []]).flatMap (fun cause => match cause with
      | some tail => [s.params.errorToken ++ tail ++ [s.params.endMarker]]
      | none => List.replicate 3 []) ++ [] := by
  unfold PlainLine MasterIdle; decide
theorem test_last_status : answers (exec (.writeRegister 7 2 0xFF allBits (.kind .ok) 100 true)
    (masterWith ⟨[], 2, 40⟩ (List.replicate 8 true) [txtError ++ [0x0D], [], [], []])) (fun t =>
      decide (t.host.status = ⟨false, true, false, false⟩) && decide (t.env.deliveries = [])) = true := by decide
theorem witness_TransportFailureAborts :
    (MasterIdle (master [false, true] []) ∧ (master [false, true] []).env.txResults = false :: true :: []) ∧
    (MasterIdle (master [true, false, true] []) ∧ (master [true, false, true] []).env.txResults = true :: false :: true :: []) ∧
    ((master [true, true, false, false] []).env.txResults = true :: true :: false :: false :: [] ∧
      Expectation.ok ≠ Expectation.none) ∧
    (master [true, true, false] []).env.txResults = true :: true :: false :: [] ∧
    (PlainLine bench bench.okToken ∧ PlainLine bench (bench.errorToken ++ [0x5F]) ∧ bench.okToken.length + 1 ≤ bench.slotCapacity ∧
      (bench.errorToken ++ [0x5F]).length + 1 ≤ bench.slotCapacity ∧ 2 ≤ bench.depth ∧ (master [] []).ring.sound bench = true ∧
      Memory.wf (master [] []).ring.mem = true) ∧
    (master [true, true, true, false] [txtOk ++ [0x0D]]).env.txResults = true :: true :: true :: false :: [] ∧
    (master [true, true, true, false] [txtOk ++ [0x0D]]).env.deliveries = (bench.okToken ++ [bench.endMarker]) :: [] ∧
    (1 ≤ bench.pollInterval ∧ 1 = min (pollsUntil bench 0) (pollsUntil bench (master [] []).cfg.sequenceCeiling) ∧
      (master [true, true, true, false] [[]]).env.deliveries = List.replicate 1 [] ++ []) ∧
    7 ≤ bench.lastValidAddress ∧ (writeFrame bench 2 0xFF allBits).length ≤ bench.txCapacity := by
  unfold MasterIdle PlainLine; decide
theorem witness_CallerErrorsChangeNothing : MasterIdle (master [] []) ∧ (master [] []).params.lastValidAddress < 8 ∧
    bench.endMarker ∈ [bench.endMarker] ∧ nul ∈ [nul] ∧ bench.txCapacity < (List.replicate 32 (0x41#8 : Byte)).length + 1 ∧
    bench.lastValidAddress < { readLatch 0 with node := 8 }.node ∧
    (MasterIdle { master [] [] with params := { bench with txCapacity := 7 } } ∧
      7 < (writeFrame bench 2 0 0).length ∧ 7 < (readFrame bench 2).length ∧ 7 < (frameOf bench (readLatch 0)).length) := by
  unfold MasterIdle; decide
/-- An operation, and the step that ends a Delay. -/
theorem witness_StatusIsOneHot : (∃ t, exec (.attempt (readLatch 0)) (master [true, true, true, true] [[]]) = .next t) ∧
    (master [true, true, true, true] [[]]).seq.status.oneHot = true ∧
    (master [true, true, true, true] [[]]).host.status.oneHot = true ∧
    (let s := { waiting (readLatch 0) .attempt 1 [] with env := { Env.unsettled with txResults := [true], deliveries := [[]] } }
     (∃ t, step s = .next t) ∧ s.seq.status.oneHot = true ∧ s.host.status.oneHot = true) :=
  ⟨exists_next (by decide), rfl, rfl, exists_next (by decide), rfl, rfl⟩
theorem witness_AccessOperationsFrame : runsAccess (.attempt (readLatch 0)) = true ∧
    (∃ t, exec (.attempt (readLatch 0)) (master [true, true, true, true] [[]]) = .next t) ∧
    (∀ l c, Instr.attempt (readLatch 0) ≠ .scan l c) ∧ (master [] []).ring.sound bench = true ∧
    (∀ d ∈ (master [true, true, true, true] [[]]).env.deliveries, d = []) := 
  ⟨rfl, exists_next (by decide), fun _ _ h => Instr.noConfusion h, by decide, by decide⟩

/-! Lines on the bus. -/

theorem witness_LinesAreDroppedWhileTheReceiverIsOff : isLine (.generic txtOk) = true ∧
    (master [] []).params.role = .master ∧ (master [] []).seq.rxEnabled = false := by decide
/-- What the statements about a waiting master ask of its state. -/
def waits (s : State) : Bool :=
  decide (s.params.role = .master) && s.initialized && decide (s.seq.fsm = .awaitingReply) && s.seq.rxEnabled &&
    s.ring.sound s.params && Memory.wf s.ring.mem && decide (2 ≤ s.params.depth) &&
    decide (s.ring.readCursor = s.ring.writeCursor) && decide (s.ring.slots[s.ring.writeCursor]? = some ⟨0, false, 0⟩)
theorem witness_OkLineIsAccepted : waits (waiting (writeLatch 100) .writeRegister 1 [true]) = true ∧
    (waiting (writeLatch 100) .writeRegister 1 [true]).seq.caller = .writeRegister ∧ (writeLatch 100).expectation = .ok ∧
    PlainLine bench bench.okToken ∧ bench.okToken.length + 1 ≤ bench.slotCapacity ∧
    (waiting (writeLatch 100) .writeRegister 1 [true]).env.txResults = true :: [] := by unfold PlainLine; decide
theorem witness_ValueLineIsAccepted : waits (waiting (readLatch 100) .readRegister 1 [true]) = true ∧
    (waiting (readLatch 100) .readRegister 1 [true]).seq.caller = .readRegister ∧ (readLatch 100).expectation = .value ∧
    decodeText bench.tokenizer (List.replicate 8 0x46#8) = some allBits ∧ bench.endMarker ∉ List.replicate 8 (0x46#8 : Byte) ∧
    (List.replicate 8 (0x46#8 : Byte)).length + 1 ≤ bench.slotCapacity ∧
    (waiting (readLatch 100) .readRegister 1 [true]).env.txResults = true :: [] := by decide
theorem witness_ErrorLineIsReported : waits (waiting (readLatch 100) .readRegister 3 [true]) = true ∧
    (waiting (readLatch 100) .readRegister 3 [true]).cfg.maxAttempts ≤
      (waiting (readLatch 100) .readRegister 3 [true]).seq.attempt ∧
    bench.literalsDistinct = true ∧ PlainLine bench (bench.errorToken ++ List.replicate 10 0x41#8) ∧
    (bench.errorToken ++ List.replicate 10 (0x41#8 : Byte)).length + 1 ≤ bench.slotCapacity ∧
    (waiting (readLatch 100) .readRegister 3 [true]).env.txResults = true :: [] := by unfold PlainLine; decide
/-- Any line of 15 bytes at a master that waits for OK, an `OK` line at one that waits for a value (vector C2), and an attempt
that sees two noise lines. -/
theorem witness_NoiseLineKeepsTheWait :
    (waits (waiting (writeLatch 100) .writeRegister 1 []) = true ∧ waits (waiting (readLatch 100) .readRegister 1 []) = true) ∧
    lineText bench (.noise (List.replicate 15 0x41)) = some (List.replicate 15 0x41) ∧ lineText bench .ok = some txtOk ∧
    (writeLatch 100).expectation ≠ .none ∧ (readLatch 100).expectation ≠ .none ∧ bench.tokenizer = .reference ∧
    IsNoise bench .ok (List.replicate 15 0x41) ∧ IsNoise bench .value txtOk ∧
    PlainLine bench (List.replicate 15 0x41) ∧ PlainLine bench txtOk ∧
    (List.replicate 15 (0x41#8 : Byte)).length + 1 ≤ bench.slotCapacity ∧
    (waiting (writeLatch 100) .writeRegister 1 []).seq.seqTimer + bench.pollInterval ≤
      (waiting (writeLatch 100) .writeRegister 1 []).cfg.sequenceCeiling ∧
    (let s := masterWith ⟨[], 1, 60⟩ [true, true, true, true] [txtOk ++ [0x0D], txtOk ++ [0x0D], []]
     MasterIdle s ∧ accessFits s.params (readLatch 0) = true ∧ s.ring.sound s.params = true ∧ Memory.wf s.ring.mem = true ∧
     2 ≤ s.params.depth ∧ 1 ≤ s.params.pollInterval ∧ [txtOk, txtOk] ≠ [] ∧ 1 = pollsUntil s.params (readLatch 0).timeout ∧
     ([txtOk, txtOk].length + 1) * s.params.pollInterval ≤ s.cfg.sequenceCeiling ∧
     s.env.txResults = true :: true :: true :: true :: [] ∧
     s.env.deliveries = [txtOk, txtOk].map (· ++ [s.params.endMarker]) ++ List.replicate 1 [] ++ []) := by
  unfold PlainLine IsNoise MasterIdle; decide
theorem witness_CommandLinesReachTheHandlers :
    let s := slave [true] [some 1]
    SlaveReady s ∧ s.slave.handlersRegistered = true ∧ lineText s.params (.write txtFF) = some (s.params.writePrefix ++ txtFF) ∧
    lineText s.params (.noise txtW) = some txtW ∧ s.params.endMarker ∉ txtW ∧ s.params.writePrefix.isPrefixOf txtW = true ∧
    lineText s.params (.generic txtR) = some txtR ∧ s.params.endMarker ∉ txtR ∧
    s.params.writePrefix.isPrefixOf txtR = false ∧ s.params.readPrefix.isPrefixOf txtR = true := by
  unfold SlaveReady; decide
theorem witness_OtherLinesPassASlaveBy : lineText (slave [] []).params (.generic [0x41, 0x54]) = some [0x41, 0x54] ∧
    lineText (slave [] []).params .ok = some txtOk ∧ (slave [] []).params.endMarker ∉ [0x41#8, 0x54#8] ∧
    (slave [] []).params.endMarker ∉ txtOk ∧ isBuiltinText (slave [] []).params [0x41, 0x54] = false ∧
    isBuiltinText (slave [] []).params txtOk = false ∧ (slave [] []).params.role = .slave := by decide

/-! The slave handlers. -/

theorem witness_TurnaroundComesFirst : SlaveReady (slave [] []) ∧ Instr.slaveRead txtR 7 = .slaveRead txtR 7 := by
  unfold SlaveReady; decide
theorem witness_WriteFrameReachesTheCallback : SlaveReady (slave [false] []) ∧ (slave [false] []).slave.cbWrite = some 1 ∧
    (slave [false] []).env.cbWriteResults = false :: [] ∧ isHexDigit (slave [false] []).params.separator = false := by
  unfold SlaveReady; decide
/-- `02,FF,FFFF` (vector E2) and `02,FF` (E1). -/
theorem witness_SlaveWriteFollowsTheGrammar :
    let text := txtW ++ [0x2C#8, 0x46#8, 0x46#8, 0x46#8, 0x46#8]
    let s := slave [false] []
    SlaveReady s ∧ s.slave.cbWrite = some 1 ∧ s.env.cbWriteResults = false :: [] ∧
    decodeField s.params text 5 .separator = some (2, 8) ∧ (2#32 : Word).toNat ≤ 0xFF ∧
    decodeField s.params text 8 .separator = some (0xFF, 11) ∧
    decodeField s.params text 11 .endOfLine = some (0xFFFF, 15) ∧
    decodeField s.params txtW 5 .separator = some (2, 8) ∧
    decodeField s.params txtW 8 .separator = none ∧
    decodeField s.params txtW 8 .endOfLine = some (0xFF, 10) ∧ isHexDigit s.params.separator = false := by
  unfold SlaveReady; decide
theorem witness_ReadFrameReturnsTheValue : SlaveReady (slave [] [some 0]) ∧ (slave [] [some 0]).slave.cbRead = some 2 ∧
    (slave [] [some 0]).env.cbReadResults = some 0 :: [] := by
  unfold SlaveReady; decide
/-- `02` (vector E8), `100,FF` (E11), `02,` (E9), `02,FF,` (E7), a field with a comma (E21), `1FF` (E23), and the lines of
E16 and E25 with a failing callback. -/
theorem witness_HandlerFailures :
    let k := Params.reference .slave
    SlaveReady (slave [false] [none]) ∧
    decodeField k txtR 5 .separator = none ∧
    (decodeField k [0x31, 0x30, 0x30, 0x2C, 0x46, 0x46] 0 .separator = some (0x100, 4) ∧ 0xFF < (0x100#32 : Word).toNat) ∧
    (decodeField k [0x30, 0x32, 0x2C] 0 .separator = some (2, 3) ∧ decodeField k [0x30, 0x32, 0x2C] 3 .separator = none ∧
      decodeField k [0x30, 0x32, 0x2C] 3 .endOfLine = none) ∧
    (decodeField k (txtW ++ [0x2C]) 8 .separator = some (0xFF, 11) ∧ decodeField k (txtW ++ [0x2C]) 11 .endOfLine = none) ∧
    decodeField k [0x30, 0x32, 0x2C, 0x30, 0x33] 0 .endOfLine = none ∧
    decodeField k [0x31, 0x46, 0x46] 0 .endOfLine = some (0x1FF, 3) ∧
    ((slave [false] [none]).slave.cbRead = some 2 ∧ (slave [false] [none]).env.cbReadResults = none :: [] ∧
      decodeField k [0x46, 0x46] 0 .endOfLine = some (0xFF, 2)) ∧
    ((slave [false] [none]).slave.cbWrite = some 1 ∧ (slave [false] [none]).env.cbWriteResults = false :: [] ∧
      decodeField k txtW 5 .separator = some (2, 8) ∧ decodeField k txtW 8 .separator = none ∧
      decodeField k txtW 8 .endOfLine = some (0xFF, 10)) := by unfold SlaveReady; decide

/-! The scan. -/

theorem witness_ScanWithoutRoomSendsNothing : MasterIdle (master [] []) := witness_MasterIdle _ _
/-- Four nodes, of which the ones at 0, 1 and 3 report their own address. -/
theorem witness_ScanListsTheConsistentNodes :
    let s := { master (List.replicate 16 true) ([0x0A00, 0x0A01, 0x0B03, 0x0C03].map fun v => minhex v 4 ++ [bench.endMarker]) with
      params := Params.reference .master }
    MasterIdle s ∧ s.ring.sound s.params = true ∧ Memory.wf s.ring.mem = true ∧ 2 ≤ s.params.depth ∧
    9 ≤ s.params.slotCapacity ∧ isHexDigit s.params.endMarker = false ∧
    (readFrame s.params s.params.nodeIdReg).length ≤ s.params.txCapacity ∧ 4 = s.params.lastValidAddress + 1 ∧
    [0x0A00#32, 0x0A01#32, 0x0B03#32, 0x0C03#32].length = 4 ∧
    s.env.txResults = List.replicate (4 * 4) true ++ [] ∧
    s.env.deliveries = [0x0A00#32, 0x0A01#32, 0x0B03#32, 0x0C03#32].map (fun v => minhex v 4 ++ [bench.endMarker]) ++ [] := by
  unfold MasterIdle; decide
/-- One address, probed for one Delay: the ceiling 0 comes before the timeout 100. -/
theorem witness_ScanOfASilentBusFindsNothing :
    let s := { masterWith ⟨[], 3, 0⟩ (List.replicate 4 true) [[], []] with params := { bench with lastValidAddress := 0 } }
    MasterIdle s ∧ 1 ≤ s.params.pollInterval ∧ 1 ≤ 1 ∧
    (readFrame s.params s.params.nodeIdReg).length ≤ s.params.txCapacity ∧
    1 = min (pollsUntil s.params s.params.scanTimeout) (pollsUntil s.params s.cfg.sequenceCeiling) ∧
    s.env.txResults = List.replicate (4 * (s.params.lastValidAddress + 1)) true ++ [] ∧
    (s.params.lastValidAddress + 1) * 1 ≤ 2 ∧ s.env.deliveries = List.replicate 2 [] := by
  unfold MasterIdle; decide
/-- The first call of a scan, and the send of the probe of address 1, address 0 already listed. -/
theorem witness_ScanAbortsOnTransportFailure :
    (MasterIdle (master [false, false] []) ∧ 1 ≤ 1 ∧ (readFrame bench bench.nodeIdReg).length ≤ bench.txCapacity ∧
      (master [false, false] []).env.txResults = false :: false :: []) ∧
    (let s := master [true, true, true, true, true, false, true] [minhex 0x0A00 4 ++ [bench.endMarker]]
     MasterIdle s ∧ s.ring.sound s.params = true ∧ Memory.wf s.ring.mem = true ∧ 2 ≤ s.params.depth ∧
     9 ≤ s.params.slotCapacity ∧ isHexDigit s.params.endMarker = false ∧ [0x0A00#32].length ≤ s.params.lastValidAddress ∧
     (consistentNodes s.params [0x0A00] [0x0A00#32].length).length < 2 ∧ 1 < 3 ∧
     s.env.txResults = List.replicate (4 * [0x0A00#32].length + 1) true ++ false :: true :: [] ∧
     s.env.deliveries = [0x0A00#32].map (fun v => minhex v 4 ++ [s.params.endMarker]) ++ []) := by
  unfold MasterIdle; decide
theorem test_scan_abort : answers (exec (.scan true 2) (master [true, true, true, true, true, false, true]
    [[0x30, 0x41, 0x30, 0x30, 0x0D]])) (fun t => decide (t.host.list = [⟨0, 0x0A⟩]) && decide (t.host.found = 0) &&
      decide (t.ret = .call .transportError)) = true := by decide

/-! The machine. -/

/-- The state with these inputs to come. -/
def fed (s : State) (l : List Input) : State := { s with env := { s.env with inputs := l } }

theorem witness_StepRunsTheNextOperation :
    ((fed (master [] []) [.line (txtOk ++ [bench.endMarker])]).env.inputs = .line (txtOk ++ [bench.endMarker]) :: [] ∧
      decodeLine bench (sideOf bench.role) (txtOk ++ [bench.endMarker]) = .ok .ok) ∧
    decodeLine bench (sideOf bench.role) txtOk = .error .noEndMarker ∧
    ((fed (master [] []) [.call .hasPending]).env.inputs = .call .hasPending :: [] ∧ (master [] []).seq.fsm ≠ .awaitingReply) ∧
    ((waiting (writeLatch 0) .attempt 1 []).seq.fsm = .awaitingReply ∧ arrives (.pushByte 0) = true ∧
      arrives .hasPending = false) := ⟨⟨rfl, rfl⟩, rfl, ⟨rfl, by decide⟩, rfl, rfl, rfl⟩
/-- A waiting master with a settled delivery meets the clauses about the end of a Delay, with and without a call to come. -/
theorem witness_StepRunsTheNextOperation_delay :
    let s := { waiting (writeLatch 0) .attempt 1 [] with env := { Env.unsettled with deliveries := [txtOk] } }
    s.env.inputs = [] ∧ s.seq.fsm = .awaitingReply ∧ s.env.deliveries = txtOk :: [] ∧
    (fed s [.call .hasPending]).env.inputs = .call .hasPending :: [] ∧ (fed s [.call .hasPending]).seq.fsm = .awaitingReply := by
  decide
theorem witness_DecodeInvertsEncode : bench.literalsDistinct = true ∧ (Instr.write txtFF).wf bench = true ∧
    encode bench (.write txtFF) = some (bench.writePrefix ++ txtFF ++ [bench.endMarker]) ∧
    decodeLine bench .command (bench.writePrefix ++ txtFF ++ [bench.endMarker]) = .ok (.write txtFF) := ⟨by decide, by decide, rfl, rfl⟩
theorem witness_StepKeepsTheInvariant : (fed (master [true, true, true] []) [.call (.attempt (readLatch 0))]).inv = true ∧
    (∃ t, step (fed (master [true, true, true] []) [.call (.attempt (readLatch 0))]) = .next t) ∧
    (waiting (writeLatch 0) .attempt 1 []).inv = true := 
  ⟨by decide, exists_next (by decide), by decide⟩
theorem witness_StepKeepsMemoryCanonical :
    Memory.wf (fed (master [] []) [.call (.pushByte 0x41)]).ring.mem = true ∧
    ∃ t, step (fed (master [] []) [.call (.pushByte 0x41)]) = .next t := 
  ⟨rfl, exists_next (by decide)⟩

end Sys2Proof.Tests
end

section
/-! PROOFS. The reply ring buffer operations (spec/40_ring_buffer.md): what PUSH_BYTE answers in each case of the slot at the
write cursor, said once of the ring, then the obligations of the family. -/

namespace Sys2Proof.Machine

/-! ### One write of the slot byte store -/

/-- A write into a canonical store changes exactly the byte at its address. -/
theorem Memory.write_changes_one_byte {m : Memory} (a : Nat) (b : Byte) (h : Memory.wf m = true) :
    Memory.read (Memory.write m a b) a = b ∧ ∀ c, c ≠ a → Memory.read (Memory.write m a b) c = Memory.read m c :=
  ⟨Memory.read_write_same b h, fun _ hc => Memory.read_write_other m b hc⟩

/-! ### The slot PUSH_BYTE works on -/

section Target

variable {p : Params} {r : Ring} {sl : Slot} {b : Byte}

theorem Ring.slot_of_getElem? {i : Nat} (h : r.slots[i]? = some sl) : r.slot i = sl := by
  simp [Ring.slot, List.getD, h]

theorem Ring.target_of_incomplete (h : r.slots[r.writeCursor]? = some sl) (hc : sl.complete = false) : r.target = sl := by
  simp [Ring.target, Ring.slot_of_getElem? h, hc]

theorem Ring.target_of_complete (h : r.slots[r.writeCursor]? = some sl) (hc : sl.complete = true) :
    r.target = Slot.empty := by
  simp [Ring.target, Ring.slot_of_getElem? h, hc]

@[simp] theorem Ring.flush_mem (i : Nat) : (r.flush i).mem = r.mem := rfl
@[simp] theorem Ring.flush_writeCursor (i : Nat) : (r.flush i).writeCursor = r.writeCursor := rfl
@[simp] theorem Ring.flush_readCursor (i : Nat) : (r.flush i).readCursor = r.readCursor := rfl

/-- A flush of the slot at the write cursor leaves PUSH_BYTE an empty slot to work on. -/
theorem Ring.flush_target (h : r.writeCursor < r.slots.length) : (r.flush r.writeCursor).target = Slot.empty := by
  have hs : (r.flush r.writeCursor).slots[r.writeCursor]? = some Slot.empty := List.getElem?_set_self h
  exact Ring.target_of_incomplete hs rfl

/-! ### The answers of PUSH_BYTE on the ring -/

/-- R142: the terminator fits into any slot that is within its bounds. -/
theorem Ring.push_endMarker (h : r.target.len < p.slotCapacity) :
    r.push p p.endMarker = some { r with
      slots := r.slots.set r.writeCursor { r.target with complete := true }
      mem := Memory.write r.mem (slotByte p r.writeCursor r.target.len) nul
      writeCursor := (r.writeCursor + 1) % p.depth } := by
  simp [Ring.push, Nat.not_le.mpr h]

/-- R141: an ordinary byte fits while the NUL still has its place behind it. -/
theorem Ring.push_ordinary (hb : b ≠ p.endMarker) (h : r.target.len + 1 < p.slotCapacity) :
    r.push p b = some { r with
      slots := r.slots.set r.writeCursor { r.target with len := r.target.len + 1 }
      mem := Memory.write r.mem (slotByte p r.writeCursor r.target.len) b } := by
  simp [Ring.push, hb, Nat.not_le.mpr h]

/-- R143: an ordinary byte that would take the NUL's place is not stored. -/
theorem Ring.push_overflow (hb : b ≠ p.endMarker) (h : p.slotCapacity ≤ r.target.len + 1) : r.push p b = none := by
  simp [Ring.push, hb, h]

/-- R144: the reset of a complete slot inside PUSH_BYTE is a flush of that slot. Both rings offer an empty slot, and the slot
PUSH_BYTE writes replaces what the flush wrote. -/
theorem Ring.push_flush_of_complete (h : r.slots[r.writeCursor]? = some sl) (hc : sl.complete = true) :
    (r.flush r.writeCursor).push p b = r.push p b := by
  obtain ⟨hlt, -⟩ := List.getElem?_eq_some_iff.mp h
  have htarget : (r.flush r.writeCursor).target = r.target :=
    (Ring.flush_target hlt).trans (Ring.target_of_complete h hc).symm
  have hset (x : Slot) : (r.flush r.writeCursor).slots.set r.writeCursor x = r.slots.set r.writeCursor x := List.set_set ..
  simp only [Ring.push, htarget, hset, Ring.flush_mem, Ring.flush_writeCursor, Ring.flush_readCursor]

end Target

/-! ### The operations in a master inside its window -/

section Operations

variable {s : State} (hr : s.params.role = .master) (hi : s.initialized = true)
include hr hi

theorem exec_pushByte_of_some {b : Byte} {r : Ring} (h : s.ring.push s.params b = some r) :
    exec (.pushByte b) s = .next { s with ring := r } := by
  change s.asMaster _ = _
  rw [State.asMaster_of hr hi, h]

theorem exec_pushByte_of_none {b : Byte} (h : s.ring.push s.params b = none) :
    exec (.pushByte b) s = .fault .slotOverflow := by
  change s.asMaster _ = _
  rw [State.asMaster_of hr hi, h]

/-- Of the ring PUSH_BYTE uses only what the push answers: two rings that answer the byte alike lead to the same outcome. -/
theorem exec_pushByte_congr {b : Byte} {r : Ring} (h : r.push s.params b = s.ring.push s.params b) :
    exec (.pushByte b) { s with ring := r } = exec (.pushByte b) s := by
  cases hq : s.ring.push s.params b with
  | none =>
    rw [exec_pushByte_of_none hr hi hq]
    exact exec_pushByte_of_none (s := { s with ring := r }) hr hi (h.trans hq)
  | some q =>
    rw [exec_pushByte_of_some hr hi hq]
    exact exec_pushByte_of_some (s := { s with ring := r }) hr hi (h.trans hq)

theorem exec_hasPending : exec .hasPending s = .next (s.returns (.flag s.ring.hasPending)) :=
  State.asMaster_of hr hi

theorem exec_flush {i : Nat} (h : i < s.params.depth) :
    exec (.flush i) s = .next ({ s with ring := s.ring.flush i }.returns .done) :=
  (State.asMaster_of hr hi).trans (if_pos h)

theorem exec_flushAll : exec .flushAll s = .next ({ s with ring := s.ring.flushAll }.returns .done) :=
  State.asMaster_of hr hi

end Operations

/-! ### The obligations -/

/-- Settles O10 by the ordinary case of PUSH_BYTE: the slot has room for the byte and the NUL behind it. -/
theorem pushByteStoresAnOrdinaryByte : Obligations.PushByteStoresAnOrdinaryByte := by
  intro s b sl hr hi hwf hsl hb hc hlen
  have htarget := Ring.target_of_incomplete hsl hc
  have hpush := Ring.push_ordinary (r := s.ring) hb (by rw [htarget]; omega)
  rw [htarget] at hpush
  exact ⟨_, exec_pushByte_of_some hr hi hpush, Memory.write_changes_one_byte _ b hwf⟩

/-- Settles O11 by the terminator's case of PUSH_BYTE. -/
theorem pushByteCompletesALine : Obligations.PushByteCompletesALine := by
  intro s sl hr hi hwf hsl hc hlen hcap
  have htarget := Ring.target_of_incomplete hsl hc
  have hpush := Ring.push_endMarker (p := s.params) (r := s.ring) (by rw [htarget]; omega)
  rw [htarget] at hpush
  exact ⟨_, exec_pushByte_of_some hr hi hpush, Memory.write_changes_one_byte _ nul hwf⟩

/-- Settles O13: the ring with that slot flushed answers every byte alike. -/
theorem pushByteOverwritesAnUnreadLine : Obligations.PushByteOverwritesAnUnreadLine := by
  intro s b sl hr hi hsl hc
  exact ⟨_, rfl, (exec_pushByte_congr hr hi (Ring.push_flush_of_complete hsl hc)).symm⟩

/-- Settles O12: one byte more would leave the NUL no place. -/
theorem pushByteOverflowIsAFault : Obligations.PushByteOverflowIsAFault := by
  intro s b sl hr hi hsl hb hc hlen
  have htarget := Ring.target_of_incomplete hsl hc
  exact exec_pushByte_of_none hr hi (Ring.push_overflow hb (by rw [htarget]; omega))

/-- Settles O14: the model's test of the cursors is the decision of their inequality. -/
theorem hasPendingComparesTheCursors : Obligations.HasPendingComparesTheCursors := by
  intro s hr hi
  have hflag : s.ring.hasPending = decide (s.ring.writeCursor ≠ s.ring.readCursor) := by
    simp [Ring.hasPending, bne, beq_eq_decide]
  rw [exec_hasPending hr hi, hflag]
  rfl

/-- Settles O15 by what FLUSH and FLUSH_ALL leave as the list of slots. -/
theorem flushClearsSlots : Obligations.FlushClearsSlots := by
  intro s hr hi hl
  refine ⟨fun i hlt => ⟨s.ring.slots.set i Slot.empty, exec_flush hr hi hlt, ?_, ?_, fun j hj => ?_⟩,
    s.ring.flushAll.slots, exec_flushAll hr hi, ?_⟩
  · rw [List.length_set, hl]
  · exact List.getElem?_set_self (hl ▸ hlt)
  · exact List.getElem?_set_ne hj.symm
  · rw [Ring.flushAll_slots, hl]
    rfl

end Sys2Proof.Machine
end

section
/-! PROOFS. The frame codec (spec/41_frame_codec.md): the text of ENCODE_MINHEX in closed form, what a tokenizer reads from it,
then the obligations of the family. -/

namespace Sys2Proof.Machine

/-! ### The significant bytes of a value -/

/-- The number of bytes R160 emits for `v`, written as R162 (a) gives it. -/
def significantBytes (v : Word) : Nat := if v = 0 then 1 else Nat.log2 v.toNat / 8 + 1

@[simp] theorem significantBytes_zero : significantBytes 0 = 1 := rfl

theorem significantBytes_of_ne_zero {v : Word} (h : v ≠ 0) : significantBytes v = Nat.log2 v.toNat / 8 + 1 := if_neg h

theorem toNat_ne_zero_of_ne_zero {v : Word} (h : v ≠ 0) : v.toNat ≠ 0 := fun e => h (BitVec.eq_of_toNat_eq e)

/-- The significant bytes hold the whole value. -/
theorem toNat_lt_significantBytes (v : Word) : v.toNat < 2 ^ (8 * significantBytes v) := by
  by_cases hv : v = 0
  · subst hv; decide
  · rw [significantBytes_of_ne_zero hv, ← Nat.log2_lt (toNat_ne_zero_of_ne_zero hv)]
    omega

theorem significantBytes_le {v : Word} {w : Nat} (hw : 1 ≤ w) (h : v.toNat < 2 ^ (8 * w)) : significantBytes v ≤ w := by
  by_cases hv : v = 0
  · subst hv; exact hw
  · rw [← Nat.log2_lt (toNat_ne_zero_of_ne_zero hv)] at h
    rw [significantBytes_of_ne_zero hv]
    omega

theorem le_significantBytes {v : Word} {w : Nat} (h : 2 ^ (8 * (w - 1)) ≤ v.toNat) : w ≤ significantBytes v := by
  have hv : v.toNat ≠ 0 := (Nat.lt_of_lt_of_le (Nat.two_pow_pos _) h).ne'
  rw [← Nat.le_log2 hv] at h
  rw [significantBytes_of_ne_zero (fun e => hv (by simp [e]))]
  omega

theorem byteOf_eq_zero_of_lt {v : Word} {k : Nat} (h : v.toNat < 2 ^ (8 * k)) : byteOf v k = 0 :=
  BitVec.eq_of_toNat_eq (by simp [byteOf_toNat, Nat.div_eq_of_lt h])

/-- The most significant of the significant bytes of a value other than zero is not zero. -/
theorem byteOf_top_ne_zero {v : Word} (hv : v ≠ 0) : byteOf v (Nat.log2 v.toNat / 8) ≠ 0 := by
  intro hzero
  have hbyte := byteOf_toNat v (Nat.log2 v.toNat / 8)
  have hlow : 2 ^ (8 * (Nat.log2 v.toNat / 8)) ≤ v.toNat :=
    (Nat.le_log2 (toNat_ne_zero_of_ne_zero hv)).mp (by omega)
  have hpos := Nat.div_pos hlow (Nat.two_pow_pos _)
  have hhigh : v.toNat / 2 ^ (8 * (Nat.log2 v.toNat / 8)) < 256 := by
    rw [Nat.div_lt_iff_lt_mul (Nat.two_pow_pos _)]
    have h := toNat_lt_significantBytes v
    rwa [significantBytes_of_ne_zero hv, Nat.mul_succ, Nat.pow_add, Nat.mul_comm] at h
  rw [hzero, Nat.mod_eq_of_lt hhigh] at hbyte
  exact hpos.ne hbyte

/-! ### The text of ENCODE_MINHEX -/

/-- The tokens of the bytes `n - 1` down to 0. -/
def tokensBelow (v : Word) (n : Nat) : List Byte := (List.range n).reverse.flatMap (fun k => hexToken (byteOf v k))

theorem tokensBelow_succ (v : Word) (n : Nat) : tokensBelow v (n + 1) = hexToken (byteOf v n) ++ tokensBelow v n := by
  simp [tokensBelow, List.range_succ]

theorem tokensBelow_length (v : Word) (n : Nat) : (tokensBelow v n).length = 2 * n := by
  induction n with
  | zero => rfl
  | succ n ih => simp only [tokensBelow_succ, List.length_append, ih, hexToken, List.length_cons, List.length_nil]; omega

/-- Once a byte was emitted the loop of R160 emits every byte after it. -/
theorem minhexFrom_started (v : Word) (k : Nat) : minhexFrom v k true = tokensBelow v k := by
  induction k with
  | zero => rfl
  | succ k ih => simp [minhexFrom, tokensBelow_succ, ih]

theorem minhexFrom_of_zero_byte {v : Word} {k : Nat} (h : byteOf v k = 0) :
    minhexFrom v (k + 1) false = minhexFrom v k false := by
  simp only [minhexFrom, h]
  rfl

theorem minhexFrom_of_ne_zero_byte {v : Word} {k : Nat} (h : byteOf v k ≠ 0) :
    minhexFrom v (k + 1) false = tokensBelow v (k + 1) := by
  have hstart : (false || byteOf v k != 0) = true := bne_iff_ne.mpr h
  simp only [minhexFrom, hstart, if_true, minhexFrom_started, tokensBelow_succ]

/-- The loop of R160 skips the zero bytes above byte `top` and emits the bytes from there on. -/
theorem minhexFrom_of_top {v : Word} {top w : Nat} (htop : byteOf v top ≠ 0) (hzero : ∀ k, top < k → byteOf v k = 0)
    (hw : top < w) : minhexFrom v w false = tokensBelow v (top + 1) := by
  induction w with
  | zero => cases hw
  | succ w ih =>
    rcases Nat.lt_succ_iff_lt_or_eq.mp hw with h | rfl
    · rw [minhexFrom_of_zero_byte (hzero w h), ih h]
    · exact minhexFrom_of_ne_zero_byte htop

theorem minhexFrom_zero (w : Nat) : minhexFrom 0 w false = [] := by
  induction w with
  | zero => rfl
  | succ w ih => rw [minhexFrom_of_zero_byte (byteOf_eq_zero_of_lt (Nat.two_pow_pos _)), ih]

theorem minhex_zero (w : Nat) : minhex 0 w = [0x30#8, 0x30#8] := by
  rw [minhex, minhexFrom_zero]
  rfl

theorem minhex_ne_nil (v : Word) (w : Nat) : minhex v w ≠ [] := by
  simp only [minhex]
  split
  · decide
  · next h => simpa using h

/-- ENCODE_MINHEX in closed form (R160): the tokens of the significant bytes, of any width that holds the value. -/
theorem minhex_eq_tokensBelow {v : Word} {w : Nat} (hw : 1 ≤ w) (h : v.toNat < 2 ^ (8 * w)) :
    minhex v w = tokensBelow v (significantBytes v) := by
  by_cases hv : v = 0
  · subst hv; exact minhex_zero w
  · have hle := significantBytes_le hw h
    have hlt := toNat_lt_significantBytes v
    rw [significantBytes_of_ne_zero hv] at hle hlt ⊢
    have hloop : minhexFrom v w false = tokensBelow v (Nat.log2 v.toNat / 8 + 1) :=
      minhexFrom_of_top (byteOf_top_ne_zero hv)
        (fun k hk => byteOf_eq_zero_of_lt (hlt.trans_le (Nat.pow_le_pow_right (by decide) (by omega)))) hle
    simp [minhex, hloop, tokensBelow_succ, hexToken]

theorem minhex_length {v : Word} {w : Nat} (hw : 1 ≤ w) (h : v.toNat < 2 ^ (8 * w)) :
    (minhex v w).length = 2 * significantBytes v := by
  rw [minhex_eq_tokensBelow hw h, tokensBelow_length]

/-- R162 (c): a most significant byte that is not zero takes the whole width. -/
theorem minhex_length_of_full {v : Word} {w : Nat} (hw : 1 ≤ w) (h : v.toNat < 2 ^ (8 * w))
    (hfull : 2 ^ (8 * (w - 1)) ≤ v.toNat) : (minhex v w).length = 2 * w := by
  rw [minhex_length hw h, Nat.le_antisymm (significantBytes_le hw h) (le_significantBytes hfull)]

/-- R162 (d): the text of a value other than zero opens with the token of a byte that is not zero. -/
theorem eq_zero_of_minhex_take {v : Word} {w : Nat} (hw : 1 ≤ w) (h : v.toNat < 2 ^ (8 * w))
    (htake : (minhex v w).take 2 = [0x30#8, 0x30#8]) : v = 0 := by
  by_contra hv
  rw [minhex_eq_tokensBelow hw h, significantBytes_of_ne_zero hv, tokensBelow_succ] at htake
  have htoken : hexToken (byteOf v (Nat.log2 v.toNat / 8)) = [0x30#8, 0x30#8] := htake
  have hread := hexNumber_hexToken 0 (byteOf v (Nat.log2 v.toNat / 8))
  rw [htoken, Nat.mul_zero, Nat.zero_add] at hread
  exact byteOf_top_ne_zero hv (BitVec.eq_of_toNat_eq (Option.some.inj hread).symm)

/-! ### Reading the text back -/

/-- The tokens of the low `n` bytes are read as the number these bytes form. -/
theorem hexNumber_tokensBelow (v : Word) (n acc : Nat) :
    hexNumber acc (tokensBelow v n) = some (2 ^ (8 * n) * acc + v.toNat % 2 ^ (8 * n)) := by
  induction n generalizing acc with
  | zero => simp [tokensBelow, hexNumber, Nat.mod_one]
  | succ n ih =>
    have hsplit : v.toNat % 2 ^ (8 * (n + 1)) =
        v.toNat % 2 ^ (8 * n) + 2 ^ (8 * n) * (v.toNat / 2 ^ (8 * n) % 256) := by
      rw [Nat.mul_succ, Nat.pow_add, Nat.mod_mul]
    rw [tokensBelow_succ, hexNumber_hexToken_append, ih, byteOf_toNat, hsplit, Nat.mul_succ, Nat.pow_add]
    congr 1
    ring

/-- The minimal-hex text of a value is read as that value. -/
theorem hexNumber_minhex {v : Word} {w : Nat} (hw : 1 ≤ w) (h : v.toNat < 2 ^ (8 * w)) :
    hexNumber 0 (minhex v w) = some v.toNat := by
  rw [minhex_eq_tokensBelow hw h, hexNumber_tokensBelow, Nat.mod_eq_of_lt (toNat_lt_significantBytes v), Nat.mul_zero,
    Nat.zero_add]

/-- R162 (e): reading the text back tells two values apart. -/
theorem minhex_injective {v v' : Word} {w : Nat} (hw : 1 ≤ w) (h : v.toNat < 2 ^ (8 * w)) (h' : v'.toNat < 2 ^ (8 * w))
    (heq : minhex v w = minhex v' w) : v = v' := by
  have hread := hexNumber_minhex hw h
  rw [heq, hexNumber_minhex hw h'] at hread
  exact BitVec.eq_of_toNat_eq (Option.some.inj hread).symm

/-- Contract (a) of R170: every tokenizer decodes the minimal-hex text of a 32-bit value to that value, the reference one
because the text has at most eight digits, any other because it is a minimal-hex text. -/
theorem decodeText_minhex (t : Tokenizer) (v : Word) : decodeText t (minhex v 4) = some v := by
  have hread := hexNumber_minhex (w := 4) (by decide) v.isLt
  have hlen := minhex_length (w := 4) (by decide) v.isLt
  have hle := significantBytes_le (w := 4) (by decide) v.isLt
  have hnumber : fieldNumber (minhex v 4) = v := by simp [fieldNumber, hread]
  have hfield : isHexField (minhex v 4) = true := by simp [isHexField, hread, minhex_ne_nil]
  cases t with
  | reference => simp only [decodeText, hfield, hnumber, if_true]; rw [if_pos (by omega)]
  | other k => simp [decodeText, hfield, hnumber]

theorem decodeLineValue_minhex (p : Params) (v : Word) : decodeLineValue p (minhex v 4) = some v := by
  simp [decodeLineValue, decodeField, decodeText_minhex]

/-! ### The digits of R161 -/

/-- A nibble's digit by the formula of R161. -/
theorem hexDigit_eq (n : BitVec 4) :
    hexDigit n = BitVec.ofNat 8 (if n.toNat ≤ 9 then 0x30 + n.toNat else 0x41 + n.toNat - 10) := by
  unfold hexDigit
  split <;> rfl

/-- The token of byte `k` in terms of the value's nibbles, the high one first (R74). -/
theorem hexToken_byteOf {digit : Nat → Byte}
    (hdigit : ∀ n, digit n = BitVec.ofNat 8 (if n ≤ 9 then 0x30 + n else 0x41 + n - 10)) (v : Word) (k : Nat) :
    hexToken (byteOf v k) = [digit (v.toNat / 2 ^ (8 * k + 4) % 16), digit (v.toNat / 2 ^ (8 * k) % 16)] := by
  have hhigh : ((byteOf v k).extractLsb' 4 4).toNat = v.toNat / 2 ^ (8 * k + 4) % 16 := by
    rw [BitVec.extractLsb'_toNat, Nat.shiftRight_eq_div_pow, byteOf_toNat, Nat.pow_add, ← Nat.div_div_eq_div_mul]
    omega
  have hlow : ((byteOf v k).extractLsb' 0 4).toNat = v.toNat / 2 ^ (8 * k) % 16 := by
    rw [BitVec.extractLsb'_toNat, Nat.shiftRight_eq_div_pow, byteOf_toNat]
    omega
  rw [hexToken, hexDigit_eq, hexDigit_eq, hhigh, hlow, hdigit, hdigit]

/-! ### The operations inside the window -/

theorem State.asEither_of {s : State} {k : Answer} (hi : s.initialized = true) : s.asEither k = k := if_pos hi

theorem minhexDomain_of {v : Word} {w : Nat} (hw : 1 ≤ w) (hw4 : w ≤ 4) (h : v.toNat < 2 ^ (8 * w)) :
    minhexDomain v w = true := by
  simp [minhexDomain, hw, hw4, h]

theorem exec_encodeMinhex {s : State} {v : Word} {w : Nat} (hi : s.initialized = true) (h : minhexDomain v w = true) :
    exec (.encodeMinhex v w) s = .next { s with ret := .bytes (minhex v w) } := by
  rw [← minhexText_eq h]
  exact State.asEither_of hi

section Builders

variable {s : State} (hr : s.params.role = .master) (hi : s.initialized = true)
include hr hi

/-- What the three builders share: a frame that can be built is written, and nothing else changes. -/
theorem buildFrame_of_possible {possible : Bool} {frame : List Byte} (h : possible = true) :
    s.asMaster (.next (s.buildFrame possible frame)) =
      .next { s with seq := { s.seq with txFrame := frame }, ret := .done } := by
  rw [State.asMaster_of hr hi, h, State.buildFrame_true]

theorem exec_buildGeneric {text : List Byte} (h : (Instr.buildGeneric text).wf s.params = true) :
    exec (.buildGeneric text) s =
      .next { s with seq := { s.seq with txFrame := genericFrame s.params text }, ret := .done } :=
  buildFrame_of_possible hr hi h

theorem exec_buildWrite {reg : Byte} {value mask : Word}
    (h : (writeFrame s.params reg value mask).length ≤ s.params.txCapacity) :
    exec (.buildWrite reg value mask) s =
      .next { s with seq := { s.seq with txFrame := writeFrame s.params reg value mask }, ret := .done } :=
  buildFrame_of_possible hr hi (decide_eq_true h)

theorem exec_buildRead {reg : Byte} (h : (readFrame s.params reg).length ≤ s.params.txCapacity) :
    exec (.buildRead reg) s =
      .next { s with seq := { s.seq with txFrame := readFrame s.params reg }, ret := .done } :=
  buildFrame_of_possible hr hi (decide_eq_true h)

end Builders

/-- A text is framable exactly when neither the end marker nor NUL is one of its bytes (R104, R164). -/
theorem framable_iff {p : Params} {text : List Byte} : framable p text = true ↔ p.endMarker ∉ text ∧ nul ∉ text := by
  simp only [framable, List.all_eq_true, Bool.and_eq_true, bne_iff_ne]
  constructor
  · exact fun h => ⟨fun hm => (h _ hm).1 rfl, fun hm => (h _ hm).2 rfl⟩
  · exact fun ⟨hm, hn⟩ b hb => ⟨fun e => hm (e ▸ hb), fun e => hn (e ▸ hb)⟩

/-- The frame of BUILD_WRITE with its mask field as R165 words it: present unless the mask is all bits. -/
theorem writeFrame_eq (p : Params) (reg : Byte) (value mask : Word) :
    writeFrame p reg value mask = p.writePrefix ++ minhex (reg.setWidth 32) 1 ++ [p.separator] ++ minhex value 4 ++
      (if mask ≠ 0xFFFFFFFF#32 then [p.separator] ++ minhex mask 4 else []) ++ [p.endMarker] := by
  rw [ite_not]
  rfl

/-! ### The obligations -/

/-- Settles O21: each law by the closed form of the text or by reading it back. -/
theorem minhexLaws : Obligations.MinhexLaws :=
  ⟨fun _ _ hw _ hv => minhex_length hw hv,
    fun w _ _ => minhex_zero w,
    fun _ _ hw _ hv hfull => minhex_length_of_full hw hv hfull,
    fun _ w hw _ hv htake => by rw [eq_zero_of_minhex_take hw hv htake, minhex_zero],
    fun _ _ _ hw _ hv hv' heq => minhex_injective hw hv hv' heq,
    decodeLineValue_minhex⟩

/-- Settles O20 by the closed form of the text, token by token. -/
theorem encodeMinhexEmitsTheSignificantBytes : Obligations.EncodeMinhexEmitsTheSignificantBytes := by
  intro s v w digit text hi hw hw4 hv hdigit htext
  have hminhex : minhex v w = text := by
    simp only [minhex_eq_tokensBelow hw hv, tokensBelow, hexToken_byteOf hdigit, significantBytes, htext]
  rw [exec_encodeMinhex hi (minhexDomain_of hw hw4 hv), hminhex]

/-- Settles O22: under the stated conditions each frame can be built. -/
theorem buildersWriteTheFrame : Obligations.BuildersWriteTheFrame := by
  intro s hr hi
  refine ⟨fun text hend hnul hlen hcap => ?generic, fun reg value mask f hf hfit => ?write, fun reg f hf hfit => ?read⟩
  case generic =>
    have hframable : framable s.params text = true := framable_iff.mpr ⟨hend, hnul⟩
    have hfits : text.length + 1 ≤ s.params.txCapacity := by omega
    exact exec_buildGeneric hr hi (by simp [Instr.wf, hframable, hfits])
  case write =>
    rw [← writeFrame_eq] at hf
    subst hf
    exact exec_buildWrite hr hi hfit
  case read =>
    subst hf
    exact exec_buildRead hr hi hfit

end Sys2Proof.Machine
end

section
/-! PROOFS. The master access state machine (spec/42_master_access.md): the closed form of a host operation that expects
nothing, from the start of its attempt to its return, then the obligations of the family. -/

namespace Sys2Proof.Machine

variable {s : State}

/-- R183: the resynchronised ring as a whole. -/
theorem Ring.resync_eq (r : Ring) : r.resync =
    { slots := List.replicate r.slots.length Slot.empty, mem := r.mem
      writeCursor := r.writeCursor, readCursor := r.writeCursor } := by
  rw [← Ring.resync_slots]
  rfl

/-! ### An attempt without an expectation (R185) -/

/-- The end of `Sending` without an expectation, with the result of the disable settled as `ok`. -/
theorem State.afterSend_none_settled {rest : List Bool} (he : s.seq.latch.expectation = .none)
    (h : s.env.txResults = true :: rest) :
    s.afterSend = { s with
      seq := { s.seq with rxEnabled := false, fsm := .success }
      env := { s.env with txResults := rest }
      events := .fsm .success :: .tx .disableReceive true :: s.events } := by
  simp [State.afterSend, State.transport, Env.takeTx, Env.latchDest, State.goto, h, he]

/-- `Sending` without an expectation, with its three results settled as `ok` (R182 to R185). -/
theorem State.sending_none_settled {rest : List Bool} (he : s.seq.latch.expectation = .none)
    (h : s.env.txResults = true :: true :: true :: rest) :
    s.sending = { s with
      ring := s.ring.resync
      seq := { s.seq with
        fsm := .success, status := Status.zero, replyTimer := 0, seqTimer := 0, linesSeen := 0, rxEnabled := false
        rxValue := Config.freeRxValue s.env.freeCount, txFrame := frameOf s.params s.seq.latch }
      env := { s.env with txResults := rest, txDest := s.seq.latch.node, freeCount := s.env.freeCount + 1 }
      events := .fsm .success :: .tx .disableReceive true :: .tx (.sendFrame (frameOf s.params s.seq.latch)) true ::
        .tx (.setDestination s.seq.latch.node) true :: .fsm .sending :: s.events } := by
  have hsend := State.sendFrame_settled (s := (s.goto .sending).clearAttempt) h
  simp only [State.sending, hsend, if_true]
  exact State.afterSend_none_settled he rfl

/-! ### The return of a host operation (R202 to R204) -/

/-- The access machine runs for one of the three host operations. -/
def Caller.isHostCall : Caller → Bool
  | .writeRegister | .readRegister | .sendCommand => true
  | .none | .attempt | .access _ | .scan _ => false

/-- R203: without the expectation of a value the value place is left alone, whichever operation returns. -/
theorem State.writeOutputs_of_ne_value (isRead : Bool) (hv : s.seq.latch.expectation ≠ .value) :
    s.writeOutputs isRead =
      { s with host := { s.host with status := s.seq.status } }.finish (.call .callSuccess) := by
  simp [State.writeOutputs, hv]

theorem State.conclude_of_ne_value (hc : s.seq.caller.isHostCall = true) (hv : s.seq.latch.expectation ≠ .value) :
    s.conclude =
      { s.goto .idle with host := { s.host with status := s.seq.status } }.finish (.call .callSuccess) := by
  have houtputs (isRead : Bool) := State.writeOutputs_of_ne_value (s := s.goto .idle) isRead hv
  unfold State.conclude
  split
  case h_4 | h_6 => exact houtputs false
  case h_5 => exact houtputs true
  all_goals (next hcaller => rw [hcaller] at hc; cases hc)

/-- An operation that has returned takes no delivery. -/
theorem State.carryOn_of_not_waiting (h : s.seq.fsm ≠ .awaitingReply) : s.carryOn = .next s :=
  State.runDelays_idle _ h

/-! ### The host operations that pass their checks (R206) -/

theorem callerChecks_of_node_le {p : Params} {node : Nat} (e : Expectation) (h : node ≤ p.lastValidAddress) :
    callerChecks p node true (.kind e) = some e := by
  simp [callerChecks, h]

/-- An access can be made when its frame fits the transmit buffer, a text it sends is framable, and its node is an address. -/
theorem accessFits_iff {p : Params} {a : AccessParams} : accessFits p a = true ↔
    (frameOf p a).length ≤ p.txCapacity ∧ (a.op = .generic → framable p a.text = true) ∧ a.node ≤ p.lastValidAddress := by
  simp [accessFits, frameFits, and_assoc, imp_iff_not_or]

section HostOperations

variable (hs : MasterIdle s) {node : Nat} (hn : node ≤ s.params.lastValidAddress)
include hs hn

theorem exec_writeRegister_of_valid (reg : Byte) (value mask : Word) (e : Expectation) (timeout : Nat) :
    exec (.writeRegister node reg value mask (.kind e) timeout true) s =
      s.hostAccess .writeRegister ⟨.write, node, reg, e, timeout, value, mask, []⟩ := by
  change s.asMaster (s.whenIdle _) = _
  rw [State.asMaster_of_idle hs, callerChecks_of_node_le e hn]

theorem exec_readRegister_of_valid (reg : Byte) (e : Expectation) (timeout : Nat) :
    exec (.readRegister node reg (.kind e) timeout true true) s =
      s.hostAccess .readRegister ⟨.read, node, reg, e, timeout, 0, 0, []⟩ := by
  change s.asMaster (s.whenIdle _) = _
  rw [State.asMaster_of_idle hs, Bool.and_self, callerChecks_of_node_le e hn]

theorem exec_sendCommand_of_valid (text : List Byte) (e : Expectation) (timeout : Nat) :
    exec (.sendCommand node text (.kind e) timeout true) s =
      s.hostAccess .sendCommand ⟨.generic, node, 0, e, timeout, 0, 0, text⟩ := by
  change s.asMaster (s.whenIdle _) = _
  rw [State.asMaster_of_idle hs, callerChecks_of_node_le e hn]

/-- The three host operations as one: each runs the access that sends its frame to its node. -/
theorem exec_hostOperation {i : Instr} {frame : List Byte} {e : Expectation} (hlen : frame.length ≤ s.params.txCapacity)
    (hi : (∃ reg value mask timeout, i = .writeRegister node reg value mask (.kind e) timeout true ∧
        frame = writeFrame s.params reg value mask) ∨
      (∃ reg timeout, i = .readRegister node reg (.kind e) timeout true true ∧ frame = readFrame s.params reg) ∨
      (∃ text timeout, i = .sendCommand node text (.kind e) timeout true ∧ framable s.params text = true ∧
        frame = text ++ [s.params.endMarker])) :
    ∃ c a, exec i s = s.hostAccess c a ∧ c.isHostCall = true ∧ accessFits s.params a = true ∧ a.node = node ∧
      a.expectation = e ∧ frameOf s.params a = frame := by
  rcases hi with ⟨reg, value, mask, timeout, rfl, rfl⟩ | ⟨reg, timeout, rfl, rfl⟩ | ⟨text, timeout, rfl, htext, rfl⟩
  · exact ⟨_, _, exec_writeRegister_of_valid hs hn reg value mask e timeout, rfl,
      accessFits_iff.mpr ⟨hlen, nofun, hn⟩, rfl, rfl, rfl⟩
  · exact ⟨_, _, exec_readRegister_of_valid hs hn reg e timeout, rfl,
      accessFits_iff.mpr ⟨hlen, nofun, hn⟩, rfl, rfl, rfl⟩
  · exact ⟨_, _, exec_sendCommand_of_valid hs hn text e timeout, rfl,
      accessFits_iff.mpr ⟨hlen, fun _ => htext, hn⟩, rfl, rfl, rfl⟩

end HostOperations

/-- R185, R198, R209 (a): a host operation that expects nothing returns from its first attempt, before any Delay. -/
theorem State.hostAccess_none_settled {c : Caller} {a : AccessParams} {rest : List Bool} (hc : c.isHostCall = true)
    (hfits : accessFits s.params a = true) (he : a.expectation = .none)
    (h : s.env.txResults = true :: true :: true :: rest) :
    s.hostAccess c a = .next { s with
      ring := s.ring.resync
      seq := { s.seq with
        fsm := .idle, latch := a, caller := .none, attempt := 1, status := Status.zero, replyTimer := 0, seqTimer := 0
        linesSeen := 0, rxEnabled := false, rxValue := Config.freeRxValue s.env.freeCount, txFrame := frameOf s.params a }
      host := { s.host with status := Status.zero }
      env := { s.env with txResults := rest, txDest := a.node, freeCount := s.env.freeCount + 1 }
      events := .fsm .idle :: .fsm .success :: .tx .disableReceive true :: .tx (.sendFrame (frameOf s.params a)) true ::
        .tx (.setDestination a.node) true :: .fsm .sending :: s.events
      ret := .call .callSuccess } := by
  have hv : a.expectation ≠ .value := by simp [he]
  have hstart : s.startAccess c a = _ := State.sending_none_settled he h
  rw [State.hostAccess, State.runAccess, if_pos hfits, hstart, State.settle, if_pos rfl, State.conclude_of_ne_value hc hv]
  exact State.carryOn_of_not_waiting (by simp)

/-! ### The obligations -/

/-- Settles O27: each of the three operations is a host access, whose closed form without an expectation has every part the
statement names. -/
theorem noExpectationSucceedsAtOnce : Obligations.NoExpectationSucceedsAtOnce := by
  intro s rest i node frame hs htx hn hlen hi
  obtain ⟨c, a, hexec, hc, hfits, rfl, he, rfl⟩ := exec_hostOperation hs hn hlen hi
  exact ⟨_, hexec.trans (State.hostAccess_none_settled hc hfits he htx), rfl, rfl, rfl, rfl, rfl, rfl, rfl, rfl, rfl,
    Ring.resync_eq s.ring, rfl, rfl, hs.2.1, rfl, rfl⟩

end Sys2Proof.Machine
end

section
/-! PROOFS. The slave handlers (spec/43_slave_dispatch.md): the grammar of their arguments, what a callback does, what stands
after the turnaround delay, then the obligations of the family. -/

namespace Sys2Proof.Machine

variable {s t : State}

/-! ### The fields of a command (R224, R228, R232) -/

section Fields

variable {p : Params} {text : List Byte} {pos n : Nat} {a : Word} {reg : Byte}

theorem regField_of_le (h : a.toNat ≤ 0xFF) : regField (some (a, n)) = some (a.setWidth 8, n) := if_pos h

theorem regField_of_gt (h : 0xFF < a.toNat) : regField (some (a, n)) = none := if_neg (Nat.not_le.mpr h)

theorem parseWrite_of_no_register (h : regField (decodeField p text pos .separator) = none) :
    parseWrite p text pos = none := by
  simp only [parseWrite, h]

/-- The shape with two more fields: a value and a mask. -/
theorem parseWrite_masked {v : Word} {m : Nat} (h : regField (decodeField p text pos .separator) = some (reg, n))
    (hv : decodeField p text n .separator = some (v, m)) :
    parseWrite p text pos = (decodeField p text m .endOfLine).map fun f => (reg, v, f.1) := by
  simp only [parseWrite, h, hv]

/-- The shape with one more field: a value, the mask being all bits. -/
theorem parseWrite_unmasked (h : regField (decodeField p text pos .separator) = some (reg, n))
    (hv : decodeField p text n .separator = none) :
    parseWrite p text pos = (decodeField p text n .endOfLine).map fun f => (reg, f.1, allBits) := by
  simp only [parseWrite, h, hv]

/-- R226: an address field above 0xFF, and a remainder of neither shape, are no arguments of SLAVE_WRITE. -/
theorem parseWrite_eq_none (ha : decodeField p text pos .separator = some (a, n))
    (h : 0xFF < a.toNat ∨ (decodeField p text n .separator = none ∧ decodeField p text n .endOfLine = none) ∨
      ∃ v m, decodeField p text n .separator = some (v, m) ∧ decodeField p text m .endOfLine = none) :
    parseWrite p text pos = none := by
  rcases Nat.lt_or_ge 0xFF a.toNat with hgt | hle
  · exact parseWrite_of_no_register (ha ▸ regField_of_gt hgt)
  · have hreg := ha ▸ regField_of_le (n := n) hle
    rcases h with hgt | ⟨hsep, hend⟩ | ⟨v, m, hsep, hend⟩
    · omega
    · rw [parseWrite_unmasked hreg hsep, hend, Option.map_none]
    · rw [parseWrite_masked hreg hsep, hend, Option.map_none]

theorem parseRead_of_le (ha : decodeField p text pos .endOfLine = some (a, n)) (h : a.toNat ≤ 0xFF) :
    parseRead p text pos = some (a.setWidth 8) := by
  rw [parseRead, ha, regField_of_le h, Option.map_some]

theorem parseRead_of_gt (ha : decodeField p text pos .endOfLine = some (a, n)) (h : 0xFF < a.toNat) :
    parseRead p text pos = none := by
  rw [parseRead, ha, regField_of_gt h, Option.map_none]

theorem parseRead_of_no_field (h : decodeField p text pos .endOfLine = none) : parseRead p text pos = none := by
  rw [parseRead, h, regField, Option.map_none]

end Fields

/-! ### What a callback consumes, and what it leaves (R222) -/

@[simp] theorem Env.takeCbWrite_inputs (e : Env) : e.takeCbWrite.2.inputs = e.inputs := by
  unfold Env.takeCbWrite; split <;> rfl
@[simp] theorem Env.takeCbWrite_txResults (e : Env) : e.takeCbWrite.2.txResults = e.txResults := by
  unfold Env.takeCbWrite; split <;> rfl
@[simp] theorem Env.takeCbRead_inputs (e : Env) : e.takeCbRead.2.inputs = e.inputs := by
  unfold Env.takeCbRead; split <;> rfl
@[simp] theorem Env.takeCbRead_txResults (e : Env) : e.takeCbRead.2.txResults = e.txResults := by
  unfold Env.takeCbRead; split <;> rfl

theorem State.cbWrite_of_cons {b : Bool} {rest : List Bool} (callback : Nat) (reg : Byte) (value mask : Word)
    (h : s.env.cbWriteResults = b :: rest) :
    s.cbWrite callback reg value mask = (b, { s with
      env := { s.env with cbWriteResults := rest }, events := .cbWrite callback reg value mask b :: s.events }) := by
  simp only [State.cbWrite, Env.takeCbWrite, h, State.emit]

theorem State.cbRead_of_cons {r : Option Word} {rest : List (Option Word)} (callback : Nat) (reg : Byte)
    (h : s.env.cbReadResults = r :: rest) :
    s.cbRead callback reg = (r, { s with
      env := { s.env with cbReadResults := rest }, events := .cbRead callback reg r :: s.events }) := by
  simp only [State.cbRead, Env.takeCbRead, h, State.emit]

/-! ### SLAVE_READ after its callback (R229 to R231) -/

/-- `reply_payload` is written and `SendReply` signalled with it (R229, R230). -/
def State.replies (s : State) (v : Word) : State :=
  { s with
    slave := { s.slave with replyPayload := minhex v 4 }
    events := .sendReply (minhex v 4) :: s.events }

section ReadCallback

variable {text : List Byte} {pos callback : Nat} {reg : Byte} (hc : s.slave.cbRead = some callback)
  (hp : parseRead s.params text pos = some reg)
include hc hp

theorem State.handleRead_replies {v : Word} (h : (s.turnAround.cbRead callback reg).1 = some v) :
    s.handleRead text pos = ((s.turnAround.cbRead callback reg).2.replies v).handlerReturns .success := by
  simp only [State.handleRead, State.turnAround_slave, State.turnAround_params, hc, hp, h]
  rfl

theorem State.handleRead_callbackFails (h : (s.turnAround.cbRead callback reg).1 = none) :
    s.handleRead text pos = (s.turnAround.cbRead callback reg).2.handlerReturns .commandExecutionError := by
  simp only [State.handleRead, State.turnAround_slave, State.turnAround_params, hc, hp, h]

end ReadCallback

/-! ### What follows the turnaround delay (R221) -/

/-- `t` comes after the turnaround delay of `s`: since then the flag has stayed 0 and no second delay was made, and none of
the master's elements, the configuration, the inputs and the transport's results has moved. -/
structure State.SinceTurnaround (s t : State) : Prop where
  turnaround  : t.slave.turnaround = false
  events      : ∃ later, t.events = later ++ s.turnAround.events ∧ .turnaround true ∉ later ∧ ∀ n, .delay n ∉ later
  ring        : t.ring = s.ring
  seq         : t.seq = s.seq
  host        : t.host = s.host
  params      : t.params = s.params
  cfg         : t.cfg = s.cfg
  initialized : t.initialized = s.initialized
  inputs      : t.env.inputs = s.env.inputs
  txResults   : t.env.txResults = s.env.txResults

theorem State.turnAround_since (s : State) : s.SinceTurnaround s.turnAround :=
  ⟨rfl, ⟨[], rfl, by simp, by simp⟩, rfl, rfl, rfl, rfl, rfl, rfl, rfl, rfl⟩

namespace State.SinceTurnaround

theorem emit (h : s.SinceTurnaround t) {e : Event} (hturn : e ≠ .turnaround true) (hdelay : ∀ n, e ≠ .delay n) :
    s.SinceTurnaround (t.emit e) := by
  obtain ⟨later, hevents, hlater, hdelays⟩ := h.events
  exact { h with events := ⟨e :: later, by rw [State.emit_events, hevents, List.cons_append],
    by simp [hlater, hturn.symm], fun n => by simp [hdelays n, (hdelay n).symm]⟩ }

theorem withEnv (h : s.SinceTurnaround t) {e : Env} (hi : e.inputs = t.env.inputs)
    (htx : e.txResults = t.env.txResults) : s.SinceTurnaround { t with env := e } :=
  { h with inputs := hi.trans h.inputs, txResults := htx.trans h.txResults }

theorem cbWrite (h : s.SinceTurnaround t) (callback : Nat) (reg : Byte) (value mask : Word) :
    s.SinceTurnaround (t.cbWrite callback reg value mask).2 :=
  (h.withEnv t.env.takeCbWrite_inputs t.env.takeCbWrite_txResults).emit nofun nofun

theorem cbRead (h : s.SinceTurnaround t) (callback : Nat) (reg : Byte) :
    s.SinceTurnaround (t.cbRead callback reg).2 :=
  (h.withEnv t.env.takeCbRead_inputs t.env.takeCbRead_txResults).emit nofun nofun

theorem replies (h : s.SinceTurnaround t) (v : Word) : s.SinceTurnaround (t.replies v) :=
  { h.emit (e := .sendReply (minhex v 4)) nofun nofun with turnaround := h.turnaround }

theorem handlerReturns (h : s.SinceTurnaround t) (r : HandlerResult) : s.SinceTurnaround (t.handlerReturns r) :=
  { h with }

end State.SinceTurnaround

/-- SLAVE_WRITE returns after its turnaround delay, with its callback between the two or without. -/
theorem State.handleWrite_since (s : State) (text : List Byte) (pos : Nat) :
    ∃ t r, s.handleWrite text pos = t.handlerReturns r ∧ s.SinceTurnaround t := by
  cases hc : s.slave.cbWrite with
  | none => exact ⟨_, _, State.handleWrite_fails (.inl hc), s.turnAround_since⟩
  | some callback =>
    cases hp : parseWrite s.params text pos with
    | none => exact ⟨_, _, State.handleWrite_fails (.inr hp), s.turnAround_since⟩
    | some fields =>
      obtain ⟨reg, value, mask⟩ := fields
      exact ⟨_, _, State.handleWrite_calls hc hp, s.turnAround_since.cbWrite callback reg value mask⟩

/-- SLAVE_READ returns after its turnaround delay, with its callback between the two or without, and its reply after that. -/
theorem State.handleRead_since (s : State) (text : List Byte) (pos : Nat) :
    ∃ t r, s.handleRead text pos = t.handlerReturns r ∧ s.SinceTurnaround t := by
  cases hc : s.slave.cbRead with
  | none => exact ⟨_, _, State.handleRead_fails (.inl hc), s.turnAround_since⟩
  | some callback =>
    cases hp : parseRead s.params text pos with
    | none => exact ⟨_, _, State.handleRead_fails (.inr hp), s.turnAround_since⟩
    | some reg =>
      have hcalled := s.turnAround_since.cbRead callback reg
      cases hv : (s.turnAround.cbRead callback reg).1 with
      | none => exact ⟨_, _, State.handleRead_callbackFails hc hp hv, hcalled⟩
      | some v => exact ⟨_, _, State.handleRead_replies hc hp hv, hcalled.replies v⟩

/-! ### The operations in a slave inside its window -/

section Operations

variable (hs : SlaveReady s) {text : List Byte} {pos : Nat}
include hs

theorem exec_slaveWrite : exec (.slaveWrite text pos) s = .next (s.handleWrite text pos) := State.asSlave_of hs

theorem exec_slaveRead : exec (.slaveRead text pos) s = .next (s.handleRead text pos) := State.asSlave_of hs

theorem exec_slaveWrite_fails (h : s.slave.cbWrite = none ∨ parseWrite s.params text pos = none) :
    exec (.slaveWrite text pos) s = .next (s.turnAround.handlerReturns .commandExecutionError) := by
  rw [exec_slaveWrite hs, State.handleWrite_fails h]

theorem exec_slaveRead_fails (h : s.slave.cbRead = none ∨ parseRead s.params text pos = none) :
    exec (.slaveRead text pos) s = .next (s.turnAround.handlerReturns .commandExecutionError) := by
  rw [exec_slaveRead hs, State.handleRead_fails h]

/-- R225: SLAVE_WRITE with arguments invokes the callback once with these and returns what the callback says. -/
theorem exec_slaveWrite_calls {callback : Nat} {reg : Byte} {value mask : Word} {b : Bool} {rest : List Bool}
    (hc : s.slave.cbWrite = some callback) (hb : s.env.cbWriteResults = b :: rest)
    (hp : parseWrite s.params text pos = some (reg, value, mask)) :
    exec (.slaveWrite text pos) s = .next { s with
      slave := { s.slave with turnaround := false }
      env := { s.env with cbWriteResults := rest }
      events := .cbWrite callback reg value mask b :: s.turnAround.events
      ret := .handler (if b then .success else .commandExecutionError) } := by
  rw [exec_slaveWrite hs, State.handleWrite_calls hc hp, State.cbWrite_of_cons (s := s.turnAround) callback reg value mask hb]
  rfl

/-- R231: a callback that fails is invoked once, and nothing is replied. -/
theorem exec_slaveRead_callbackFails {callback : Nat} {reg : Byte} {rest : List (Option Word)}
    (hc : s.slave.cbRead = some callback) (hr : s.env.cbReadResults = none :: rest)
    (hp : parseRead s.params text pos = some reg) :
    exec (.slaveRead text pos) s = .next { s with
      slave := { s.slave with turnaround := false }
      env := { s.env with cbReadResults := rest }
      events := .cbRead callback reg none :: s.turnAround.events
      ret := .handler .commandExecutionError } := by
  have hcall := State.cbRead_of_cons (s := s.turnAround) callback reg hr
  rw [exec_slaveRead hs, State.handleRead_callbackFails hc hp (congrArg Prod.fst hcall), hcall]
  rfl

end Operations

/-! ### The obligations -/

/-- Settles O46: both handlers return a state that comes after their turnaround delay. -/
theorem turnaroundComesFirst : Obligations.TurnaroundComesFirst := by
  intro s text pos i hs hi
  have hrun : ∃ t r, exec i s = .next (t.handlerReturns r) ∧ s.SinceTurnaround t := by
    rcases hi with rfl | rfl
    · obtain ⟨t, r, hreturns, hsince⟩ := s.handleWrite_since text pos
      exact ⟨t, r, by rw [exec_slaveWrite hs, hreturns], hsince⟩
    · obtain ⟨t, r, hreturns, hsince⟩ := s.handleRead_since text pos
      exact ⟨t, r, by rw [exec_slaveRead hs, hreturns], hsince⟩
  obtain ⟨t, r, hexec, hsince⟩ := hrun
  obtain ⟨later, hevents, hlater, hdelays⟩ := hsince.events
  exact ⟨t.handlerReturns r, later, r, hexec, rfl, hsince.turnaround, hevents, hlater, hdelays, hsince.ring, hsince.seq,
    hsince.host, hsince.params, hsince.cfg, hsince.initialized, hsince.inputs, hsince.txResults⟩

/-- Settles O50: a handler without a callback or without arguments fails before any callback; with both, the settled result
of the callback decides. -/
theorem handlerFailures : Obligations.HandlerFailures := by
  intro s text pos hs
  refine ⟨fun h => ?write, fun h => ?read, fun callback f n rest hc hr hf hle => ?readCallback,
    fun callback n m e a v k rest hc hb ha hle hv hk => ?maskedCallback,
    fun callback n e a v rest hc hb ha hle hsep hv => ?unmaskedCallback⟩
  case write =>
    rcases h with hc | hfield | ⟨f, n, hf, hrest⟩
    · exact exec_slaveWrite_fails hs (.inl hc)
    · exact exec_slaveWrite_fails hs (.inr (parseWrite_of_no_register (hfield ▸ rfl)))
    · exact exec_slaveWrite_fails hs (.inr (parseWrite_eq_none hf hrest))
  case read =>
    rcases h with hc | hfield | ⟨f, n, hf, hgt⟩
    · exact exec_slaveRead_fails hs (.inl hc)
    · exact exec_slaveRead_fails hs (.inr (parseRead_of_no_field hfield))
    · exact exec_slaveRead_fails hs (.inr (parseRead_of_gt hf hgt))
  case readCallback => exact exec_slaveRead_callbackFails hs hc hr (parseRead_of_le hf hle)
  case maskedCallback =>
    have hp := parseWrite_masked (ha ▸ regField_of_le hle) hv
    rw [hk] at hp
    exact ⟨_, exec_slaveWrite_calls hs hc hb hp, rfl, rfl, rfl⟩
  case unmaskedCallback =>
    have hp := parseWrite_unmasked (ha ▸ regField_of_le hle) hsep
    rw [hv] at hp
    exact ⟨_, exec_slaveWrite_calls hs hc hb hp, rfl, rfl, rfl⟩

end Sys2Proof.Machine
end

section
/-! PROOFS. The configuration over the lifecycle (spec/45_lifecycle.md R254): what each kind of operation leaves of it, then
the obligation of the family. -/

namespace Sys2Proof.Machine

variable {s t : State}

/-! ### What every next state of an answer satisfies -/

/-- If the answer is a next state, that state satisfies `P`. -/
def Ensures (k : Answer) (P : State → Prop) : Prop := ∀ t, k = .next t → P t

namespace Ensures

variable {k : Answer} {P : State → Prop}

theorem next (h : P t) : Ensures (.next t) P := fun _ ht => Host.Outcome.next.inj ht ▸ h

theorem fault (f : Fault) : Ensures (.fault f) P := fun _ h => by cases h

theorem refused (r : Refusal) : Ensures (.refused r) P := fun _ h => by cases h

theorem asMaster (h : Ensures k P) : Ensures (s.asMaster k) P := fun t ht => h t (State.asMaster_next.mp ht).2.2

theorem asSlave (h : Ensures k P) : Ensures (s.asSlave k) P := fun t ht => h t (State.asSlave_next.mp ht).2.2

theorem asEither (h : Ensures k P) : Ensures (s.asEither k) P := fun t ht => h t (State.asEither_next.mp ht).2

theorem whenIdle (h : Ensures k P) : Ensures (s.whenIdle k) P := fun t ht => h t (State.whenIdle_next.mp ht).2

end Ensures

/-! ### The configuration (R10, R45, R49) -/

/-- The build parameters, the configuration registers and the three callbacks are the same in both states. -/
structure State.SameConfig (s t : State) : Prop where
  params    : t.params = s.params
  cfg       : t.cfg = s.cfg
  cbProcess : t.slave.cbProcess = s.slave.cbProcess
  cbWrite   : t.slave.cbWrite = s.slave.cbWrite
  cbRead    : t.slave.cbRead = s.slave.cbRead

namespace State.SameConfig

theorem refl (s : State) : s.SameConfig s := ⟨rfl, rfl, rfl, rfl, rfl⟩

theorem trans {u : State} (h : s.SameConfig t) (g : t.SameConfig u) : s.SameConfig u :=
  ⟨g.params.trans h.params, g.cfg.trans h.cfg, g.cbProcess.trans h.cbProcess, g.cbWrite.trans h.cbWrite,
    g.cbRead.trans h.cbRead⟩

end State.SameConfig

/-- The access machine has no business with the configuration. -/
theorem State.SameOutside.sameConfig (h : s.SameOutside t) : s.SameConfig t :=
  ⟨h.params, h.cfg, congrArg Turnaround.cbProcess h.slave, congrArg Turnaround.cbWrite h.slave,
    congrArg Turnaround.cbRead h.slave⟩

/-! ### The codec and the access machine -/

theorem State.buildFrame_sameConfig (s : State) (possible : Bool) (frame : List Byte) :
    s.SameConfig (s.buildFrame possible frame) := by
  constructor <;> simp

theorem State.carryOn_sameConfig (s : State) : Ensures s.carryOn s.SameConfig := fun _ h =>
  State.runDelays_keeps (P := s.SameConfig) (fun _ _ _ _ hpoll hu => hu.trans (State.poll_outside hpoll).sameConfig)
    (fun _ _ hu => { hu with }) h (.refl s)

/-- An access whose start leaves the configuration alone leaves it alone to its end. -/
theorem State.runAccess_sameConfig {a : AccessParams} {start : State} (hstart : s.SameOutside start) :
    Ensures (s.runAccess a start) s.SameConfig := by
  intro t h
  rcases State.runAccess_next h with ⟨-, rfl⟩ | ⟨-, hrun⟩
  · exact { State.SameConfig.refl s with }
  · exact (hstart.trans start.settle_outside).sameConfig.trans (start.settle.carryOn_sameConfig t hrun)

theorem State.hostAccess_sameConfig (s : State) (c : Caller) (a : AccessParams) :
    Ensures (s.hostAccess c a) s.SameConfig :=
  State.runAccess_sameConfig (s.startAccess_outside c a)

theorem State.startScan_outside (s : State) (capacity : Nat) : s.SameOutside (s.startScan capacity) :=
  (State.scanNext_outside _ capacity).after { State.SameOutside.refl s with }

theorem execScan_sameConfig (listOut : Bool) (capacity : Nat) (s : State) :
    Ensures (execScan listOut capacity s) s.SameConfig := by
  refine .asMaster (.whenIdle ?_)
  split
  · exact fun t h => (s.startScan_outside capacity).sameConfig.trans (State.carryOn_sameConfig _ t h)
  · exact .next { State.SameConfig.refl s with }

/-! ### The ring buffer -/

theorem execPushByte_sameConfig (b : Byte) (s : State) : Ensures (execPushByte b s) s.SameConfig := by
  refine .asMaster ?_
  split
  · exact .next { State.SameConfig.refl s with }
  · exact .fault _

theorem execFlush_sameConfig (n : Nat) (s : State) : Ensures (execFlush n s) s.SameConfig := by
  refine .asMaster ?_
  split
  · exact .next { State.SameConfig.refl s with }
  · exact .refused _

theorem State.deliver_sameConfig (s : State) (bytes : List Byte) : Ensures (s.deliver bytes) s.SameConfig := by
  rcases s.deliver_cases bytes with ⟨-, h⟩ | ⟨-, r, -, h⟩ | ⟨-, -, h⟩ <;> rw [h]
  · exact .next (.refl s)
  · exact .next { State.SameConfig.refl s with }
  · exact .fault _

/-! ### The handlers of a slave and its dispatcher -/

theorem State.handleWrite_sameConfig (s : State) (text : List Byte) (pos : Nat) :
    s.SameConfig (s.handleWrite text pos) := by
  unfold State.handleWrite
  dsimp only
  split
  · exact ⟨rfl, rfl, rfl, rfl, rfl⟩
  · exact ⟨rfl, rfl, rfl, rfl, rfl⟩

theorem State.handleRead_sameConfig (s : State) (text : List Byte) (pos : Nat) :
    s.SameConfig (s.handleRead text pos) := by
  unfold State.handleRead
  dsimp only
  split
  · split
    · exact ⟨rfl, rfl, rfl, rfl, rfl⟩
    · exact ⟨rfl, rfl, rfl, rfl, rfl⟩
  · exact ⟨rfl, rfl, rfl, rfl, rfl⟩

theorem State.dispatcherReplies_sameConfig (s : State) (payload : List Byte) :
    s.SameConfig (s.dispatcherReplies payload) := by
  unfold State.dispatcherReplies
  split <;> exact { State.SameConfig.refl s with }

theorem State.dispatch_sameConfig (s : State) (line : List Byte) : s.SameConfig (s.dispatch line) := by
  unfold State.dispatch
  split
  · exact (s.handleWrite_sameConfig line _).trans (State.dispatcherReplies_sameConfig _ _)
  · split
    · exact (s.handleRead_sameConfig line _).trans (State.dispatcherReplies_sameConfig _ _)
    · exact .refl s

theorem State.foldl_dispatch_sameConfig (s : State) (lines : List (List Byte)) :
    s.SameConfig (lines.foldl State.dispatch s) := by
  induction lines generalizing s with
  | nil => exact .refl s
  | cons line lines ih => exact (s.dispatch_sameConfig line).trans (ih _)

/-! ### Lines on the bus -/

theorem State.lineArrives_sameConfig (s : State) (text : List Byte) : Ensures (s.lineArrives text) s.SameConfig := by
  unfold State.lineArrives
  split
  · exact .next (.refl s)
  · split
    · exact fun _ h => (State.poll_outside h).sameConfig
    · exact s.deliver_sameConfig _

theorem State.onLine_sameConfig (s : State) (text : List Byte) : Ensures (s.onLine text) s.SameConfig := by
  unfold State.onLine
  split
  · exact s.lineArrives_sameConfig text
  · refine .next ?_
    split
    · exact s.foldl_dispatch_sameConfig _
    · exact .refl s

/-! ### Lifecycle -/

theorem execDeinitMaster_sameConfig (s : State) : Ensures (execDeinitMaster s) s.SameConfig := by
  refine .asMaster (.whenIdle (.next ?_))
  split <;> exact ⟨rfl, rfl, rfl, rfl, rfl⟩

/-- INIT_MASTER writes the configuration registers, but no build parameter (R250). -/
theorem execInitMaster_params (lineParams : List Byte) (maxAttempts sequenceCeiling : Nat) (s : State) :
    Ensures (execInitMaster lineParams maxAttempts sequenceCeiling s) (·.params = s.params) := by
  unfold execInitMaster
  dsimp only
  split
  · split
    · exact .fault _
    · split
      · exact .next rfl
      · split
        · exact .next rfl
        · exact .next rfl
  · exact .refused _

/-- INIT_SLAVE writes the callbacks, but no build parameter (R251). -/
theorem execInitSlave_params (process write read : Callback) (s : State) :
    Ensures (execInitSlave process write read s) (·.params = s.params) := by
  unfold execInitSlave
  split
  · split
    · exact .fault _
    · split
      · exact .next rfl
      · exact .next rfl
  · exact .refused _

/-! ### The obligation -/

/-- R254: every operation but INIT leaves the whole configuration alone. -/
theorem exec_sameConfig {i : Instr} (hi : isInit i = false) (s : State) : Ensures (exec i s) s.SameConfig := by
  cases i with
  | write | read | generic | ok | error | value | noise => exact s.onLine_sameConfig _
  | pushByte b => exact execPushByte_sameConfig b s
  | flush n => exact execFlush_sameConfig n s
  | hasPending | flushAll => exact .asMaster (.next { State.SameConfig.refl s with })
  | encodeMinhex => exact .asEither (.next { State.SameConfig.refl s with })
  | decode | compare => exact .next { State.SameConfig.refl s with }
  | buildGeneric | buildWrite | buildRead => exact .asMaster (.next (s.buildFrame_sameConfig _ _))
  | attempt a =>
    exact .asMaster (.whenIdle (State.runAccess_sameConfig
      ((State.sending_outside _).after { State.SameOutside.refl s with })))
  | access a oneAttempt => exact .asMaster (.whenIdle (State.runAccess_sameConfig (s.startAccess_outside _ a)))
  | writeRegister | readRegister | sendCommand =>
    refine .asMaster (.whenIdle ?_)
    split
    · exact .next { State.SameConfig.refl s with }
    · exact s.hostAccess_sameConfig _ _
  | scan listOut capacity => exact execScan_sameConfig listOut capacity s
  | initMaster | initSlave => cases hi
  | deinitMaster => exact execDeinitMaster_sameConfig s
  | deinitSlave => exact .asSlave (.next { State.SameConfig.refl s with })
  | slaveWrite text pos => exact .asSlave (.next (s.handleWrite_sameConfig text pos))
  | slaveRead text pos => exact .asSlave (.next (s.handleRead_sameConfig text pos))

/-- R10: no operation, INIT included, changes a build parameter. -/
theorem exec_params (i : Instr) (s : State) : Ensures (exec i s) (·.params = s.params) := by
  cases hi : isInit i with
  | false => exact fun t h => (exec_sameConfig hi s t h).params
  | true =>
    cases i with
    | initMaster lineParams maxAttempts sequenceCeiling =>
      exact execInitMaster_params lineParams maxAttempts sequenceCeiling s
    | initSlave process write read => exact execInitSlave_params process write read s
    | _ => cases hi

/-- Settles O5: the build parameters by `exec_params`, the rest of the configuration by `exec_sameConfig`. -/
theorem configurationIsImmutable : Obligations.ConfigurationIsImmutable := by
  intro i s t h
  refine ⟨exec_params i s t h, fun hi => ?_⟩
  have hsame := exec_sameConfig hi s t h
  exact ⟨hsame.cfg, hsame.cbProcess, hsame.cbWrite, hsame.cbRead⟩

end Sys2Proof.Machine
end

section
/-! PROOFS. The tokenizer (spec/41_frame_codec.md R170, R171) and the fields of a command frame as a slave reads them back
(spec/43_slave_dispatch.md R234). -/

namespace Sys2Proof.Machine

open Sys2Proof.Laws

/-! ### Hexadecimal digits -/

/-- The digits of R170 are the bytes that have a digit's value. -/
theorem digitValue_eq_none_iff {b : Byte} : digitValue b = none ↔ isHexDigit b = false := by
  unfold digitValue isHexDigit
  dsimp only
  split
  · next h => simp [h]
  · split
    · next h => simp [h]
    · split
      · next h => simp [h]
      · next h1 h2 h3 => simp only [true_iff, decide_eq_false_iff_not]; tauto

/-- The value of a digit written by its number, in either case (R170). -/
theorem digitValue_of_digit {d : Nat} {b : Byte} (h : d ≤ 9 ∧ b = BitVec.ofNat 8 (0x30 + d) ∨
    10 ≤ d ∧ d ≤ 15 ∧ (b = BitVec.ofNat 8 (0x41 + d - 10) ∨ b = BitVec.ofNat 8 (0x61 + d - 10))) :
    digitValue b = some d := by
  have key : ∀ d < 16, (d ≤ 9 → digitValue (BitVec.ofNat 8 (0x30 + d)) = some d) ∧
      (10 ≤ d → digitValue (BitVec.ofNat 8 (0x41 + d - 10)) = some d ∧
        digitValue (BitVec.ofNat 8 (0x61 + d - 10)) = some d) := by decide
  rcases h with ⟨hd, rfl⟩ | ⟨hd, hd', rfl | rfl⟩
  · exact (key d (by omega)).1 hd
  · exact ((key d (by omega)).2 hd).1
  · exact ((key d (by omega)).2 hd).2

/-- A text of digits is read as their big-endian number. -/
theorem hexNumber_of_digits {ds : List Nat} {field : List Byte} (acc : Nat)
    (h : List.Forall₂ (fun d b => d ≤ 9 ∧ b = BitVec.ofNat 8 (0x30 + d) ∨
      10 ≤ d ∧ d ≤ 15 ∧ (b = BitVec.ofNat 8 (0x41 + d - 10) ∨ b = BitVec.ofNat 8 (0x61 + d - 10))) ds field) :
    hexNumber acc field = some (ds.foldl (fun acc d => 16 * acc + d) acc) := by
  induction h generalizing acc with
  | nil => rfl
  | cons hd _ ih => simp only [hexNumber, digitValue_of_digit hd, List.foldl_cons, ih]

/-! ### The contract of the tokenizer (R170) -/

section Tokenizer

variable {t : Tokenizer} {field : List Byte}

/-- Contract (c): a field with a byte that is no digit is a parse error. -/
theorem decodeText_of_not_digit {b : Byte} (hb : b ∈ field) (hd : isHexDigit b = false) : decodeText t field = none := by
  by_contra h
  have hdigit := digit_of_decodeText (Option.isSome_iff_ne_none.mpr h) b hb
  simp [digitValue_eq_none_iff.mpr hd] at hdigit

/-- Contract (d): the empty field is a parse error. -/
theorem decodeText_nil : decodeText t [] = none := rfl

/-- A text a tokenizer decodes is a number. -/
theorem hexNumber_of_decodeText (h : (decodeText t field).isSome = true) : (hexNumber 0 field).isSome = true := by
  unfold decodeText at h
  split at h
  · next hf =>
    simp only [isHexField, Bool.and_eq_true] at hf
    exact hf.2
  · cases h

/-- A text that opens with something that is no number is none. -/
theorem decodeText_append_of_no_number {x : List Byte} (y : List Byte) (h : (hexNumber 0 x).isSome = false) :
    decodeText t (x ++ y) = none := by
  by_contra hsome
  have hnumber := hexNumber_of_decodeText (Option.isSome_iff_ne_none.mpr hsome)
  have hnone : hexNumber 0 x = none := by simpa using h
  rw [hexNumber_append, hnone] at hnumber
  cases hnumber

/-- The reference tokenizer reads one to eight digits as their number. -/
theorem decodeText_reference_of_number {n : Nat} (h : hexNumber 0 field = some n) (hpos : 1 ≤ field.length)
    (hlen : field.length ≤ 8) : decodeText .reference field = some (BitVec.ofNat 32 n) := by
  have hne : field ≠ [] := List.ne_nil_of_length_pos hpos
  have hfield : isHexField field = true := by simp [isHexField, h, hne]
  simp [decodeText, hfield, hlen, fieldNumber, h]

theorem decodeText_reference_of_long (h : 8 < field.length) : decodeText .reference field = none := by
  simp [decodeText, Nat.not_le.mpr h]

end Tokenizer

/-! ### Fields inside a text -/

section Fields

variable {p : Params} {text field rest : List Byte} {pos : Nat}

/-- Without a separator at or after the offset there is no separated field. -/
theorem decodeField_no_separator (h : p.separator ∉ text.drop pos) : decodeField p text pos .separator = none := by
  simp [decodeField, h]

/-- A field that a separator follows is what stands before it, and the offset goes on behind the separator. -/
theorem decodeField_separated (hsep : p.separator ∉ field) (h : text.drop pos = field ++ p.separator :: rest) :
    decodeField p text pos .separator =
      (decodeText p.tokenizer field).map (fun v => (v, pos + field.length + 1)) := by
  have hall : ∀ b ∈ field, (b != p.separator) = true := fun b hb => bne_iff_ne.mpr fun e => hsep (e ▸ hb)
  have hfield : (text.drop pos).takeWhile (· != p.separator) = field := by
    rw [h, List.takeWhile_append_of_pos hall]
    simp
  have hmem : (text.drop pos).contains p.separator = true := by simp [h]
  simp only [decodeField, hmem, hfield, if_true]

theorem decodeField_endOfLine (h : text.drop pos = field) :
    decodeField p text pos .endOfLine = (decodeText p.tokenizer field).map (fun v => (v, text.length)) := by
  simp only [decodeField, h]

/-- What stands behind a field and the byte after it. -/
theorem drop_past_field {b : Byte} (h : text.drop pos = field ++ b :: rest) :
    text.drop (pos + field.length + 1) = rest := by
  rw [Nat.add_assoc, ← List.drop_drop, h]
  simp

end Fields

/-! ### The frames of the master as a slave reads them (R234) -/

section Frames

variable {p : Params} {text : List Byte} {pos : Nat} {reg : Byte} {value mask : Word}

theorem setWidth_byte_toNat (reg : Byte) : (reg.setWidth 32).toNat = reg.toNat := by
  have := reg.isLt
  simp only [BitVec.toNat_setWidth]
  omega

/-- The text of a register address is the same whether it is taken as one byte or as four. -/
theorem minhex_register (reg : Byte) : minhex (reg.setWidth 32) 1 = minhex (reg.setWidth 32) 4 := by
  have hlt : (reg.setWidth 32).toNat < 2 ^ (8 * 1) := by rw [setWidth_byte_toNat]; exact reg.isLt
  rw [minhex_eq_tokensBelow (by decide) hlt, minhex_eq_tokensBelow (by decide) (BitVec.isLt _)]

theorem decodeText_register (t : Tokenizer) (reg : Byte) :
    decodeText t (minhex (reg.setWidth 32) 1) = some (reg.setWidth 32) := by
  rw [minhex_register, decodeText_minhex]

/-- A register address that was read fits its field, and is the register. -/
theorem regField_register (reg : Byte) (n : Nat) : regField (some (reg.setWidth 32, n)) = some (reg, n) := by
  rw [regField_of_le (by rw [setWidth_byte_toNat]; have := reg.isLt; omega), BitVec.setWidth_setWidth_of_le _ (by decide),
    BitVec.setWidth_eq]

/-- No separator stands in a minimal-hex text. -/
theorem separator_notMem_minhex (hs : isHexDigit p.separator = false) (v : Word) (w : Nat) : p.separator ∉ minhex v w :=
  minhex_plain v w (digitValue_eq_none_iff.mpr hs)

/-- The address field of a write frame (R224). -/
theorem regField_of_text {rest : List Byte} (hs : isHexDigit p.separator = false)
    (h : text.drop pos = minhex (reg.setWidth 32) 1 ++ p.separator :: rest) :
    regField (decodeField p text pos .separator) = some (reg, pos + (minhex (reg.setWidth 32) 1).length + 1) := by
  rw [decodeField_separated (separator_notMem_minhex hs _ _) h, decodeText_register, Option.map_some, regField_register]

/-- The shape with a mask field, read back. -/
theorem parseWrite_of_masked_text (hs : isHexDigit p.separator = false)
    (h : text.drop pos = minhex (reg.setWidth 32) 1 ++ p.separator :: (minhex value 4 ++ p.separator :: minhex mask 4)) :
    parseWrite p text pos = some (reg, value, mask) := by
  have hvalue := decodeField_separated (separator_notMem_minhex hs value 4) (drop_past_field h)
  rw [decodeText_minhex, Option.map_some] at hvalue
  rw [parseWrite_masked (regField_of_text hs h) hvalue, decodeField_endOfLine (drop_past_field (drop_past_field h)),
    decodeText_minhex]
  rfl

/-- The shape without a mask field, read back: the mask is all bits. -/
theorem parseWrite_of_unmasked_text (hs : isHexDigit p.separator = false)
    (h : text.drop pos = minhex (reg.setWidth 32) 1 ++ p.separator :: minhex value 4) :
    parseWrite p text pos = some (reg, value, allBits) := by
  have hnone : decodeField p text (pos + (minhex (reg.setWidth 32) 1).length + 1) .separator = none :=
    decodeField_no_separator (by rw [drop_past_field h]; exact separator_notMem_minhex hs value 4)
  rw [parseWrite_unmasked (regField_of_text hs h) hnone, decodeField_endOfLine (drop_past_field h), decodeText_minhex]
  rfl

theorem writeFrame_dropLast (p : Params) (reg : Byte) (value mask : Word) :
    (writeFrame p reg value mask).dropLast = p.writePrefix ++ minhex (reg.setWidth 32) 1 ++ [p.separator] ++
      minhex value 4 ++ (if mask = allBits then [] else p.separator :: minhex mask 4) := List.dropLast_concat

/-- The write frame without its end marker, behind the command literal. -/
theorem writeFrame_fields (p : Params) (reg : Byte) (value mask : Word) :
    (writeFrame p reg value mask).dropLast.drop p.writePrefix.length =
      minhex (reg.setWidth 32) 1 ++ p.separator :: (minhex value 4 ++
        if mask = allBits then [] else p.separator :: minhex mask 4) := by
  simp [writeFrame_dropLast]

theorem readFrame_field (p : Params) (reg : Byte) :
    (readFrame p reg).dropLast.drop p.readPrefix.length = minhex (reg.setWidth 32) 1 := by
  simp [readFrame]

/-- R234: the arguments of a write frame are read back, the omitted all-bits mask restored. -/
theorem parseWrite_writeFrame (hs : isHexDigit p.separator = false) (reg : Byte) (value mask : Word) :
    parseWrite p (writeFrame p reg value mask).dropLast p.writePrefix.length = some (reg, value, mask) := by
  have h := writeFrame_fields p reg value mask
  by_cases hmask : mask = allBits
  · rw [if_pos hmask, List.append_nil] at h
    rw [parseWrite_of_unmasked_text hs h, hmask]
  · rw [if_neg hmask] at h
    exact parseWrite_of_masked_text hs h

theorem minhex_allBits : minhex allBits 4 = List.replicate 8 0x46#8 := by decide

/-- R225: an explicit mask field of all bits is read as the omitted one is. -/
theorem parseWrite_explicit_allBits (hs : isHexDigit p.separator = false) (reg : Byte) (value : Word) :
    parseWrite p ((writeFrame p reg value allBits).dropLast ++ [p.separator] ++ List.replicate 8 0x46#8)
      p.writePrefix.length = some (reg, value, allBits) := by
  refine parseWrite_of_masked_text hs ?_
  rw [← minhex_allBits]
  simp [writeFrame_dropLast]

theorem parseRead_readFrame (p : Params) (reg : Byte) :
    parseRead p (readFrame p reg).dropLast p.readPrefix.length = some reg := by
  rw [parseRead, decodeField_endOfLine (readFrame_field p reg), decodeText_register, Option.map_some, regField_register]
  rfl

end Frames

/-! ### The lengths of register frames (R106) -/

theorem minhex_length_bounds (v : Word) : 2 ≤ (minhex v 4).length ∧ (minhex v 4).length ≤ 8 := by
  have hle := significantBytes_le (w := 4) (by decide) v.isLt
  have hpos : 1 ≤ significantBytes v := by unfold significantBytes; split <;> omega
  rw [minhex_length (by decide) v.isLt]
  omega

theorem minhex_register_length (reg : Byte) : (minhex (reg.setWidth 32) 1).length = 2 := by
  have hlt : (reg.setWidth 32).toNat < 2 ^ (8 * 1) := by rw [setWidth_byte_toNat]; exact reg.isLt
  have hle := significantBytes_le (w := 1) (by decide) hlt
  have hbounds := minhex_length_bounds (reg.setWidth 32)
  rw [← minhex_register, minhex_length (by decide) hlt] at hbounds
  rw [minhex_length (by decide) hlt]
  omega

theorem writeFrame_length (p : Params) (reg : Byte) (value mask : Word) :
    (writeFrame p reg value mask).length = p.writePrefix.length + 4 + (minhex value 4).length +
      if mask = allBits then 0 else 1 + (minhex mask 4).length := by
  have hreg := minhex_register_length reg
  unfold writeFrame
  split <;> simp only [List.length_append, List.length_cons, List.length_nil, hreg] <;> omega

theorem readFrame_length (p : Params) (reg : Byte) : (readFrame p reg).length = p.readPrefix.length + 3 := by
  simp only [readFrame, List.length_append, List.length_cons, List.length_nil, minhex_register_length]

/-! ### Comparing (R171) -/

theorem sameText_self (t : Tokenizer) (mode : CompareMode) (x : List Byte) : sameText t mode x x = true := if_pos rfl

theorem sameText_reference (mode : CompareMode) (x y : List Byte) : sameText .reference mode x y = decide (x = y) := by
  unfold sameText
  split
  · next h => simp [h]
  · next h => simp [h]

/-- A text opens every line it is a beginning of, whichever tokenizer compares. -/
theorem compareText_header_append (t : Tokenizer) (literal line : List Byte) :
    compareText t (literal ++ line) .header literal = true := by
  simp [compareText, sameText_self]

theorem compareText_exact_self (t : Tokenizer) (line : List Byte) : compareText t line .exact line = true :=
  sameText_self t .exact line

theorem compareText_reference_header (line literal : List Byte) :
    compareText .reference line .header literal = literal.isPrefixOf line := by
  rw [compareText, sameText_reference, Bool.eq_iff_iff, List.isPrefixOf_iff_prefix, List.prefix_iff_eq_take]
  simp only [Bool.and_eq_true, decide_eq_true_eq]
  constructor
  · exact fun h => h.2.symm
  · intro h
    refine ⟨?_, h.symm⟩
    rw [h, List.length_take]
    exact Nat.min_le_right _ _

/-! ### The obligations -/

/-- Settles O47: the slave reads the frame's three arguments back, and hands them to its callback. -/
theorem writeFrameReachesTheCallback : Obligations.WriteFrameReachesTheCallback :=
  fun _ reg value mask _ _ _ hs hc hb hsep => exec_slaveWrite_calls hs hc hb (parseWrite_writeFrame hsep reg value mask)

/-- Settles O48: each shape of the grammar gives its arguments, and both texts of the all-bits mask the same ones. -/
theorem slaveWriteFollowsTheGrammar : Obligations.SlaveWriteFollowsTheGrammar := by
  refine ⟨fun s text pos callback n m e a v k b rest hs hc hb ha hle hshape => ?_, fun s reg value hs hsep => ?_⟩
  · have hreg := ha ▸ regField_of_le (n := n) hle
    rcases hshape with ⟨hv, hk⟩ | ⟨hnone, hv, rfl⟩
    · exact exec_slaveWrite_calls hs hc hb (by rw [parseWrite_masked hreg hv, hk, Option.map_some])
    · exact exec_slaveWrite_calls hs hc hb (by rw [parseWrite_unmasked hreg hnone, hv, Option.map_some])
  · have hparse := (parseWrite_explicit_allBits hsep reg value).trans (parseWrite_writeFrame hsep reg value allBits).symm
    rw [exec_slaveWrite hs, exec_slaveWrite hs]
    unfold State.handleWrite
    simp only [State.turnAround_params, hparse]

/-- Settles O49: the slave reads the register back, and every tokenizer decodes the text of the value it replies with. -/
theorem readFrameReturnsTheValue : Obligations.ReadFrameReturnsTheValue := by
  intro s reg v callback rest hs hc hr
  refine ⟨?_, fun p => decodeLineValue_minhex p v⟩
  have hcall := State.cbRead_of_cons (s := s.turnAround) callback reg hr
  rw [exec_slaveRead hs, State.handleRead_replies hc (parseRead_readFrame s.params reg) (congrArg Prod.fst hcall), hcall]
  rfl

/-- Settles O23 by the lengths of the parts. -/
theorem registerFramesAlwaysFit : Obligations.RegisterFramesAlwaysFit := by
  intro p reg value mask hp hw hr
  have hcap : 26 ≤ p.txCapacity := by
    simp only [Params.inDomain, Bool.and_eq_true, decide_eq_true_eq] at hp
    exact hp.2
  have hlen := writeFrame_length p reg value mask
  have hrlen := readFrame_length p reg
  have hvalue := minhex_length_bounds value
  have hmask := minhex_length_bounds mask
  have hbounds : 11 ≤ (writeFrame p reg value mask).length ∧ (writeFrame p reg value mask).length ≤ 26 := by
    split at hlen <;> omega
  exact ⟨hbounds.1, hbounds.2, by omega, decide_eq_true (by omega), decide_eq_true (by omega)⟩

/-- Settles O24: the one result of a field is what the tokenizer makes of its bytes. -/
theorem decodeKeepsItsContract : Obligations.DecodeKeepsItsContract := by
  refine ⟨fun s text pos h => ?_, fun k field => ⟨decodeText k field, fun s text pos hk hfield => ?_,
    fun s text pos rest hk hsep htext => ?_, ?_, fun ⟨b, hb, hd⟩ => decodeText_of_not_digit hb hd, ?_,
    fun ds hk hpos hlen hds => ?_, ?_⟩⟩
  · change Host.Outcome.next (s.returns (.field (decodeField s.params text pos .separator))) = _
    rw [decodeField_no_separator h]
    rfl
  · change Host.Outcome.next (s.returns (.field (decodeField s.params text pos .endOfLine))) = _
    rw [decodeField_endOfLine hfield, hk]
    rfl
  · change Host.Outcome.next (s.returns (.field (decodeField s.params text pos .separator))) = _
    rw [decodeField_separated hsep htext, hk]
    rfl
  · rintro v rfl
    exact decodeText_minhex k v
  · rintro rfl
    exact decodeText_nil
  · have hcount := hds.length_eq
    rw [hk]
    exact decodeText_reference_of_number (hexNumber_of_digits 0 hds) (by omega) (by omega)
  · rintro rfl hlong
    exact decodeText_reference_of_long hlong

/-- Settles O25 by what a comparison is in the reference tokenizer, and by a text being itself in every one. -/
theorem compareIsBytewise : Obligations.CompareIsBytewise := by
  intro s line literal
  have hexec (l : List Byte) (mode : CompareMode) (x : List Byte) : exec (.compare l mode x) s =
      .next { s with ret := .flag (compareText s.params.tokenizer l mode x) } := rfl
  refine ⟨fun hk => ?_, ?_, ?_⟩
  · simp only [hexec, hk, compareText_reference_header]
    exact ⟨congrArg _ (by rw [compareText, sameText_reference]), trivial⟩
  · rw [hexec, compareText_exact_self]
  · rw [hexec, compareText_header_append]

end Sys2Proof.Machine
end

section
/-! PROOFS. Lines (spec/30_encoding.md R101 to R119): the decoder inverts the encoder, what a line does at each role's receiver,
and what a step makes of an input. -/

namespace Sys2Proof.Machine

open Sys2Proof.Laws

/-! ### The two sides of R119 -/

section Kinds

variable {p : Params} {body : List Byte}

/-- The operation the line with the inside `body` stands for on a side (R119). -/
def kindOn (p : Params) : Side → List Byte → Instr
  | .command, body => commandKind p body
  | .reply, body => replyKind p body

theorem decodeLine_kindOn (side : Side) (h : p.endMarker ∉ body) :
    decodeLine p side (body ++ [p.endMarker]) = .ok (kindOn p side body) := by
  cases side
  · exact decodeLine_line p .command h
  · exact decodeLine_line p .reply h

/-- What the literals being distinct says, one part each (R116, R119, R294). -/
theorem literalsDistinct_iff : p.literalsDistinct = true ↔
    (insideOfLine p p.writePrefix = true ∧ insideOfLine p p.readPrefix = true ∧ insideOfLine p p.okToken = true ∧
      insideOfLine p p.errorToken = true) ∧
    (p.writePrefix.isPrefixOf p.readPrefix = false ∧ p.readPrefix.isPrefixOf p.writePrefix = false) ∧
    ((hexNumber 0 p.okToken).isSome = false ∧ (hexNumber 0 p.errorToken).isSome = false) ∧
    p.errorToken.isPrefixOf p.okToken = false := by
  simp only [Params.literalsDistinct, Bool.and_eq_true, Bool.not_eq_true', and_assoc]

/-- A line opens with at most one of two literals of which neither opens the other. -/
theorem isPrefixOf_append_eq_false {x y : List Byte} (z : List Byte) (hxy : x.isPrefixOf y = false)
    (hyx : y.isPrefixOf x = false) : x.isPrefixOf (y ++ z) = false := by
  simp only [← Bool.not_eq_true, List.isPrefixOf_iff_prefix] at *
  exact fun h => (List.prefix_or_prefix_of_prefix h (List.prefix_append y z)).elim hxy hyx

theorem isPrefixOf_append_self (x y : List Byte) : x.isPrefixOf (x ++ y) = true :=
  List.isPrefixOf_iff_prefix.mpr (List.prefix_append x y)

/-- What is left behind a literal a line opens with. -/
theorem append_drop_of_isPrefixOf {x y : List Byte} (h : x.isPrefixOf y = true) : x ++ y.drop x.length = y := by
  obtain ⟨z, rfl⟩ := List.isPrefixOf_iff_prefix.mp h
  rw [List.drop_left]

theorem insideOfLine_drop {n : Nat} (h : insideOfLine p body = true) : insideOfLine p (body.drop n) = true :=
  List.all_eq_true.mpr fun b hb => List.all_eq_true.mp h b (List.mem_of_mem_drop hb)

theorem commandKind_write (rest : List Byte) : commandKind p (p.writePrefix ++ rest) = .write rest := by
  simp [commandKind, isPrefixOf_append_self]

theorem commandKind_read (hp : p.literalsDistinct = true) (rest : List Byte) :
    commandKind p (p.readPrefix ++ rest) = .read rest := by
  obtain ⟨-, ⟨hwr, hrw⟩, -⟩ := literalsDistinct_iff.mp hp
  simp [commandKind, isPrefixOf_append_self, isPrefixOf_append_eq_false rest hwr hrw]

theorem commandKind_other (h : isBuiltinText p body = false) :
    commandKind p body = if isGenericText p body then .generic body else .noise body := by
  simp only [isBuiltinText, Bool.or_eq_false_iff] at h
  simp [commandKind, h.1, h.2]

theorem replyKind_ok : replyKind p p.okToken = .ok := if_pos rfl

theorem replyKind_error (hp : p.literalsDistinct = true) (rest : List Byte) :
    replyKind p (p.errorToken ++ rest) = .error rest := by
  obtain ⟨-, -, ⟨-, hnumber⟩, hok⟩ := literalsDistinct_iff.mp hp
  have hne : p.errorToken ++ rest ≠ p.okToken := fun e => by simp [← e, isPrefixOf_append_self] at hok
  simp [replyKind, hne, decodeText_append_of_no_number rest hnumber, isPrefixOf_append_self]

theorem replyKind_value (hp : p.literalsDistinct = true) (h : (decodeText p.tokenizer body).isSome = true) :
    replyKind p body = .value body := by
  obtain ⟨-, -, ⟨hok, -⟩, -⟩ := literalsDistinct_iff.mp hp
  have hne : body ≠ p.okToken := fun e => by
    have := hexNumber_of_decodeText h
    simp [e, hok] at this
  simp [replyKind, hne, h]

theorem replyKind_noise (h : isReplyText p body = false) : replyKind p body = .noise body := by
  simp only [isReplyText, Bool.or_eq_false_iff, decide_eq_false_iff_not] at h
  simp [replyKind, h.1.1, h.1.2, h.2]

/-- The slave side reads a well-formed operation, with the body it read it from. -/
theorem commandKind_wf (h : insideOfLine p body = true) :
    isLine (commandKind p body) = true ∧ (commandKind p body).wf p = true ∧ lineText p (commandKind p body) = some body := by
  unfold commandKind
  split
  · next hw => exact ⟨rfl, insideOfLine_drop h, congrArg some (append_drop_of_isPrefixOf hw)⟩
  · next hw =>
    split
    · next hr => exact ⟨rfl, insideOfLine_drop h, congrArg some (append_drop_of_isPrefixOf hr)⟩
    · next hr =>
      split
      · next hg => exact ⟨rfl, hg, rfl⟩
      · next hg => exact ⟨rfl, by simp [Instr.wf, h, isBuiltinText, hw, hr, hg], rfl⟩

/-- The master side too. -/
theorem replyKind_wf (h : insideOfLine p body = true) :
    isLine (replyKind p body) = true ∧ (replyKind p body).wf p = true ∧ lineText p (replyKind p body) = some body := by
  unfold replyKind
  split
  · next hok => exact ⟨rfl, rfl, congrArg some hok.symm⟩
  · next hok =>
    split
    · next hv => exact ⟨rfl, by simp [Instr.wf, h, hv], rfl⟩
    · next hv =>
      split
      · next he => exact ⟨rfl, insideOfLine_drop h, congrArg some (append_drop_of_isPrefixOf he)⟩
      · next he => exact ⟨rfl, by simp [Instr.wf, h, isReplyText, hok, hv, he], rfl⟩

/-- A well-formed operation's text is the inside of one line (R101). -/
theorem endMarker_notMem_lineText {i : Instr} (hp : p.literalsDistinct = true) (hw : i.wf p = true)
    (ht : lineText p i = some body) : p.endMarker ∉ body := by
  have hline : EncodeIsLine.Statement i := by
    cases i with
    | write rest => exact EncodeIsLine.write rest
    | read rest => exact EncodeIsLine.read rest
    | generic text => exact EncodeIsLine.generic text
    | ok => exact EncodeIsLine.ok
    | error rest => exact EncodeIsLine.error rest
    | value text => exact EncodeIsLine.value text
    | noise text => exact EncodeIsLine.noise text
    | _ => cases ht
  obtain ⟨body', heq, hend⟩ := hline p hp hw (body ++ [p.endMarker]) (by rw [encode, ht]; rfl)
  rwa [(List.append_inj' heq rfl).1]

/-- The side that reads the line of a well-formed operation reads that operation (R119). -/
theorem kindOn_wireSide {i : Instr} (hp : p.literalsDistinct = true) (hw : i.wf p = true)
    (ht : lineText p i = some body) : kindOn p (wireSide p i) body = i := by
  cases i with
  | write rest => cases ht; exact commandKind_write rest
  | read rest => cases ht; exact commandKind_read hp rest
  | generic =>
    cases ht
    have hother : isBuiltinText p body = false := by
      simp only [Instr.wf, isGenericText, Bool.and_eq_true, Bool.not_eq_true'] at hw
      exact hw.1.1
    exact (commandKind_other hother).trans (if_pos hw)
  | ok => cases ht; exact replyKind_ok
  | error rest => cases ht; exact replyKind_error hp rest
  | value =>
    cases ht
    simp only [Instr.wf, Bool.and_eq_true] at hw
    exact replyKind_value hp hw.2
  | noise =>
    cases ht
    simp only [Instr.wf, Bool.and_eq_true, Bool.or_eq_true, Bool.not_eq_true', Bool.or_eq_false_iff] at hw
    cases hreply : isReplyText p body with
    | false => simp only [wireSide, hreply]; exact replyKind_noise hreply
    | true =>
      obtain ⟨hbuiltin, hgeneric⟩ := hw.2.resolve_left (by simp [hreply])
      simp only [wireSide, hreply, if_true]
      exact (commandKind_other hbuiltin).trans (by simp [hgeneric])
  | _ => cases ht

/-- Both sides read a well-formed line operation, whose text is the inside they read it from. -/
theorem kindOn_wf (side : Side) (h : insideOfLine p body = true) :
    isLine (kindOn p side body) = true ∧ (kindOn p side body).wf p = true ∧
      lineText p (kindOn p side body) = some body := by
  cases side
  · exact commandKind_wf h
  · exact replyKind_wf h

end Kinds

/-! ### Lines at a receiver -/

section Receivers

variable {s : State} {i : Instr} {text : List Byte}

/-- The bytes of a line, whichever operation carries them. -/
theorem exists_lineText (p : Params) (h : isLine i = true) : ∃ text, lineText p i = some text := by
  cases i with
  | write | read | generic | ok | error | value | noise => exact ⟨_, rfl⟩
  | _ => cases h

/-- R82: a disabled receiver drops a line. -/
theorem exec_line_receiver_off (h : isLine i = true) (hr : s.params.role = .master) (hrx : s.seq.rxEnabled = false) :
    exec i s = .next s := by
  obtain ⟨text, ht⟩ := exists_lineText s.params h
  rw [exec_line ht, State.onLine_master hr, State.lineArrives, if_pos (by simp [hrx])]

/-- R119: one line at a slave whose handlers are registered goes through the dispatcher. -/
theorem exec_line_dispatch (hs : SlaveReady s) (hh : s.slave.handlersRegistered = true)
    (ht : lineText s.params i = some text) (hend : s.params.endMarker ∉ text) : exec i s = .next (s.dispatch text) := by
  rw [exec_line ht, State.onLine_slave hs.1 hend, if_pos ⟨hs.2, hh⟩]

theorem State.dispatch_write (h : s.params.writePrefix.isPrefixOf text = true) :
    s.dispatch text = (s.handleWrite text s.params.writePrefix.length).dispatcherReplies s.params.okToken := if_pos h

theorem State.dispatch_read (hw : s.params.writePrefix.isPrefixOf text = false)
    (h : s.params.readPrefix.isPrefixOf text = true) :
    s.dispatch text = (s.handleRead text s.params.readPrefix.length).dispatcherReplies
      (s.handleRead text s.params.readPrefix.length).slave.replyPayload := by
  simp [State.dispatch, hw, h]

/-- R227, D25: the dispatcher puts one line on the bus for what a handler returned. -/
theorem State.dispatcherReplies_of_handler {r : HandlerResult} (payload : List Byte) (h : s.ret = .handler r) :
    s.dispatcherReplies payload = { s with events :=
      (if s.ret = .handler .success then .dispatcherLine (payload ++ [s.params.endMarker])
        else .dispatcherErrorLine) :: s.events } := by
  cases r <;> simp [State.dispatcherReplies, h, State.emit]

theorem State.handleWrite_ret (s : State) (text : List Byte) (pos : Nat) :
    ∃ r, (s.handleWrite text pos).ret = .handler r := by
  obtain ⟨t, r, h, -⟩ := s.handleWrite_since text pos
  exact ⟨r, by rw [h, State.handlerReturns_ret]⟩

theorem State.handleRead_ret (s : State) (text : List Byte) (pos : Nat) :
    ∃ r, (s.handleRead text pos).ret = .handler r := by
  obtain ⟨t, r, h, -⟩ := s.handleRead_since text pos
  exact ⟨r, by rw [h, State.handlerReturns_ret]⟩

end Receivers

/-! ### The moves of a step -/

section Moves

variable {s : State} {rest : List Input}

theorem step_of_line {bytes : List Byte} {i : Instr} (hin : s.env.inputs = .line bytes :: rest)
    (hd : decodeLine s.params (sideOf s.params.role) bytes = .ok i) : step s = exec i (s.withInputs rest) := by
  simp only [step, State.nextMove, hin, hd]

theorem step_of_no_line {bytes : List Byte} {e : DecodeError} (hin : s.env.inputs = .line bytes :: rest)
    (hd : decodeLine s.params (sideOf s.params.role) bytes = .error e) : step s = .refused (.undecodable e) := by
  simp only [step, State.nextMove, hin, hd]

theorem step_of_call {i : Instr} (hin : s.env.inputs = .call i :: rest)
    (h : s.seq.fsm ≠ .awaitingReply ∨ arrives i = true) : step s = exec i (s.withInputs rest) := by
  have hrun : ¬(s.seq.fsm = .awaitingReply ∧ ¬arrives i = true) := fun hn => h.elim (· hn.1) hn.2
  simp only [step, State.nextMove, hin, if_neg hrun]

theorem step_of_deferred_call {i : Instr} (hin : s.env.inputs = .call i :: rest) (hf : s.seq.fsm = .awaitingReply)
    (h : arrives i = false) : step s = s.endDelay := by
  simp [step, State.nextMove, hin, hf, h]

theorem step_of_wait (hin : s.env.inputs = []) (hf : s.seq.fsm = .awaitingReply) : step s = s.endDelay := by
  simp [step, State.nextMove, hin, hf]

/-- R291: with nothing to come and no access under way a step changes nothing. -/
theorem step_of_rest (hin : s.env.inputs = []) (hf : s.seq.fsm ≠ .awaitingReply) : step s = .next s := by
  simp [step, State.nextMove, hin, hf]

theorem State.endDelay_settled {d : List Byte} {ds : List (List Byte)} (h : s.env.deliveries = d :: ds) :
    s.endDelay = { s with env := { s.env with deliveries := ds } }.poll d := by
  simp only [State.endDelay, h]

end Moves

/-! ### The obligations -/

/-- Settles O57: the side that reads a line goes by its body, from the operation to the line and back. -/
theorem decodeInvertsEncode : Obligations.DecodeInvertsEncode := by
  refine fun p hp => ⟨fun i bytes hw he => ?_, fun side bytes i hd => ?_⟩
  · obtain ⟨body, ht, rfl⟩ := Option.map_eq_some_iff.mp he
    have hend := endMarker_notMem_lineText hp hw ht
    rw [decodeLine_kindOn _ hend, kindOn_wireSide hp hw ht]
  · obtain ⟨body, hbody⟩ : ∃ body, lineBody p bytes = .ok body := by
      unfold decodeLine at hd
      split at hd
      · cases hd
      · exact ⟨_, ‹_›⟩
    obtain ⟨rfl, hend⟩ := lineBody_ok.mp hbody
    rw [decodeLine_kindOn side hend] at hd
    obtain rfl := Except.ok.inj hd
    obtain ⟨hline, hwf, htext⟩ := kindOn_wf side (insideOfLine_iff.mpr hend)
    exact ⟨hline, hwf, by rw [encode, htext]; rfl⟩

/-- Settles O44: the dispatcher runs the handler of the literal the line opens with, and answers for what it returned. -/
theorem commandLinesReachTheHandlers : Obligations.CommandLinesReachTheHandlers := by
  intro s i text hs hh ht hend
  refine ⟨fun hw => ⟨_, exec_slaveWrite hs, ?_⟩, fun hw hr => ⟨_, exec_slaveRead hs, ?_⟩⟩
  · obtain ⟨r, hret⟩ := s.handleWrite_ret text s.params.writePrefix.length
    have hparams := (s.handleWrite_sameConfig text s.params.writePrefix.length).params
    rw [exec_line_dispatch hs hh ht hend, State.dispatch_write hw, State.dispatcherReplies_of_handler _ hret, hparams]
  · obtain ⟨r, hret⟩ := s.handleRead_ret text s.params.readPrefix.length
    have hparams := (s.handleRead_sameConfig text s.params.readPrefix.length).params
    rw [exec_line_dispatch hs hh ht hend, State.dispatch_read hw hr, State.dispatcherReplies_of_handler _ hret, hparams]

/-- Settles O45: the dispatcher leaves such a line alone, and without handlers no line is dispatched. -/
theorem otherLinesPassASlaveBy : Obligations.OtherLinesPassASlaveBy := by
  intro i s text ht hend hother hr
  rw [exec_line ht, State.onLine_slave hr hend, State.dispatch_other hother, ite_self]

/-- Settles O39 by what a disabled receiver does with a line. -/
theorem linesAreDroppedWhileTheReceiverIsOff : Obligations.LinesAreDroppedWhileTheReceiverIsOff :=
  fun _ _ h hr hrx => exec_line_receiver_off h hr hrx

/-- Settles O55: one move for each kind of first input, with and without an access under way. -/
theorem stepRunsTheNextOperation : Obligations.StepRunsTheNextOperation :=
  fun _ _ => ⟨fun _ _ hin hd => step_of_line hin hd, fun _ _ hin hd => step_of_no_line hin hd,
    fun _ hin h => step_of_call hin h,
    fun _ _ _ hin hf h hd => (step_of_deferred_call hin hf h).trans (State.endDelay_settled hd),
    fun _ _ hin hf hd => (step_of_wait hin hf).trans (State.endDelay_settled hd),
    fun hin hf => step_of_rest hin hf⟩

/-- Settles O56: the seven lines are read by their definitions. -/
theorem linesDecode : Obligations.LinesDecode :=
  ⟨rfl, rfl, rfl, rfl, rfl, rfl, rfl⟩

end Sys2Proof.Machine
end

section
/-! PROOFS. Lifecycle, guards and caller errors (spec/45_lifecycle.md, spec/60_exceptions.md): INIT and DEINIT case by case, what the
guards shut out, and the calls whose arguments fail their checks. -/

namespace Sys2Proof.Machine

/-! ### The guards that shut an operation out (R255, R274) -/

section Guards

variable {s : State} {k : Answer}

theorem State.asMaster_outside (hr : s.params.role = .master) (hi : s.initialized = false) :
    s.asMaster k = .fault .lifecycleViolation := by
  simp [State.asMaster, hr, hi]

theorem State.asSlave_outside (hr : s.params.role = .slave) (hi : s.initialized = false) :
    s.asSlave k = .fault .lifecycleViolation := by
  simp [State.asSlave, hr, hi]

theorem State.asEither_outside (hi : s.initialized = false) : s.asEither k = .fault .lifecycleViolation := by
  simp [State.asEither, hi]

theorem State.asMaster_otherRole (hr : s.params.role ≠ .master) : s.asMaster k = .refused .otherRole := if_neg hr

theorem State.asSlave_otherRole (hr : s.params.role ≠ .slave) : s.asSlave k = .refused .otherRole := if_neg hr

end Guards

/-! ### INIT (R250, R251) -/

section Init

variable {s : State} {lp : List Byte} {ma sc : Nat} {rest : List Bool}

theorem exec_initMaster_inside (hr : s.params.role = .master) (hi : s.initialized = true) :
    exec (.initMaster lp ma sc) s = .fault .lifecycleViolation := by
  simp [exec, execInitMaster, hr, hi]

theorem exec_initMaster_invalid (hr : s.params.role = .master) (hi : s.initialized = false)
    (h : ma < 1 ∨ s.params.inDomain = false) :
    exec (.initMaster lp ma sc) s = .next s.callerError := by
  have hguard : ma < 1 ∨ ¬s.params.inDomain = true := by simpa using h
  exact (if_pos hr).trans ((if_neg (by simp [hi])).trans (if_pos hguard))

/-- R250, I24: with valid parameters INIT_MASTER configures the transport, and the result decides. -/
theorem exec_initMaster_valid {b : Bool} (hr : s.params.role = .master) (hi : s.initialized = false) (hm : 1 ≤ ma)
    (hp : s.params.inDomain = true) (htx : s.env.txResults = b :: rest) :
    exec (.initMaster lp ma sc) s = .next
      (if b then (s.transport (.configure lp)).2.initAsMaster ⟨lp, ma, sc⟩
        else (s.transport (.configure lp)).2.returns (.call .transportError)) := by
  have hguard : ¬(ma < 1 ∨ ¬s.params.inDomain = true) := by simp [hp]; omega
  simp only [exec, execInitMaster, hr, hi, if_true, if_neg hguard, State.transport_fst_of_cons s _ htx]
  cases b <;> rfl

theorem exec_initSlave_inside {process write read : Callback} (hr : s.params.role = .slave) (hi : s.initialized = true) :
    exec (.initSlave process write read) s = .fault .lifecycleViolation := by
  simp [exec, execInitSlave, hr, hi]

theorem exec_initSlave_invalid {process write read : Callback} (hr : s.params.role = .slave) (hi : s.initialized = false)
    (hp : s.params.inDomain = false) :
    exec (.initSlave process write read) s = .next s.callerError := by
  simp [exec, execInitSlave, hr, hi, hp]

theorem exec_initSlave_valid {process write read : Callback} (hr : s.params.role = .slave) (hi : s.initialized = false)
    (hp : s.params.inDomain = true) :
    exec (.initSlave process write read) s = .next (s.initAsSlave process write read) := by
  simp [exec, execInitSlave, hr, hi, hp]

end Init

/-- R252, R263, R272: DEINIT_MASTER clears the receiver's mirror, and closes the window if the disable succeeded. -/
theorem exec_deinitMaster {s : State} {b : Bool} {rest : List Bool} (hs : MasterIdle s) (htx : s.env.txResults = b :: rest) :
    exec .deinitMaster s = .next { s with
      initialized := !b
      seq := { s.seq with rxEnabled := false }
      env := { s.env with txResults := rest }
      events := .tx .disableReceive b :: s.events
      ret := if b then .done else .call .transportError } := by
  change s.asMaster (s.whenIdle _) = _
  rw [State.asMaster_of_idle hs]
  cases b <;> simp [State.transport, Env.takeTx, Env.latchDest, State.returns, htx, hs.2.1]

/-! ### The obligations -/

/-- Settles O2: inside the window, with invalid arguments, and with either result of the transport. -/
theorem initMasterCases : Obligations.InitMasterCases := by
  intro lp ma sc s hr
  refine ⟨fun hi => exec_initMaster_inside hr hi, fun hi h => exec_initMaster_invalid hr hi h,
    fun rest hi hm hp htx => ?_, fun rest hi hm hp htx => ?_⟩
  all_goals
    rw [exec_initMaster_valid hr hi hm hp htx]
    simp [State.transport, Env.takeTx, Env.latchDest, htx, State.returns, State.initAsMaster, State.goto, State.emit,
      Slot.empty]

/-- Settles O3. -/
theorem initSlaveCases : Obligations.InitSlaveCases :=
  fun _ _ _ _ hr => ⟨fun hi => exec_initSlave_inside hr hi, fun hi hp => exec_initSlave_invalid hr hi hp,
    fun hi hp => exec_initSlave_valid hr hi hp⟩

/-- Settles O4: DEINIT_MASTER by the result of its disable, DEINIT_SLAVE without a condition, and the guards outside. -/
theorem deinitClosesTheWindow : Obligations.DeinitClosesTheWindow := by
  refine ⟨fun s rest hs htx => exec_deinitMaster hs htx, fun s rest hs htx => ?_,
    fun s hr hi => State.asMaster_outside hr hi, fun s hs => State.asSlave_of hs, fun s hr hi => State.asSlave_outside hr hi⟩
  have hopen := hs.2.1
  rw [exec_deinitMaster hs htx]
  simp [hopen]

/-- Settles O6: outside the window every guard answers the fault, and inside it INIT does. -/
theorem outsideTheWindowIsAFault : Obligations.OutsideTheWindowIsAFault := by
  refine ⟨fun i s hinit hline hext hrole hi => ?_, fun i s hinit hrole hi => ?_⟩
  · cases i with
    | write | read | generic | ok | error | value | noise => cases hline
    | decode | compare => cases hext
    | initMaster | initSlave => cases hinit
    | encodeMinhex => exact State.asEither_outside hi
    | deinitSlave | slaveWrite | slaveRead => exact State.asSlave_outside (hrole _ rfl) hi
    | _ => exact State.asMaster_outside (hrole _ rfl) hi
  · cases i with
    | initMaster => exact exec_initMaster_inside (Option.some.inj hrole).symm hi
    | initSlave => exact exec_initSlave_inside (Option.some.inj hrole).symm hi
    | _ => cases hinit

/-- Settles O7: the guard of the role comes first in every operation that has one. -/
theorem otherRoleHasNoStep : Obligations.OtherRoleHasNoStep := by
  intro i r s hrole hne
  cases i with
  | write | read | generic | ok | error | value | noise | encodeMinhex | decode | compare => cases hrole
  | initMaster | initSlave => cases hrole; exact if_neg hne
  | deinitSlave | slaveWrite | slaveRead => cases hrole; exact State.asSlave_otherRole hne
  | _ => cases hrole; exact State.asMaster_otherRole hne

/-- Settles O1: the values are those of the successful cases of INIT, and State.reset has nothing to do. -/
theorem initLeavesTheResetValues : Obligations.InitLeavesTheResetValues := by
  refine ⟨fun p lp ma sc rest hr hp hm => ?_, fun p process write read hr hp => ?_, step_of_rest rfl (by decide), by decide⟩
  · refine ⟨_, exec_initMaster_valid hr rfl hm hp rfl, List.length_replicate, fun i hi => ?_, rfl, rfl, rfl, rfl, rfl, rfl, rfl⟩
    change (List.replicate p.depth Slot.empty).getD i Slot.empty = _
    simp [List.getD, hi, Slot.empty]
  · exact ⟨_, exec_initSlave_valid hr rfl hp, rfl, rfl⟩

/-- Settles O59 by what a machine is built with. -/
theorem resetMeetsTheInvariant : Obligations.ResetMeetsTheInvariant := by
  refine ⟨by decide, fun p => ?_⟩
  simp [State.inv, State.built, Ring.init, Memory.wf, Memory.wfFrom, Sequencer.init, Sequencer.resting, Turnaround.init,
    Status.oneHot, Status.isZero]

/-! ### Calls whose arguments fail their checks (R206, R262) -/

section CallerErrors

variable {s : State} {node : Nat}

theorem callerChecks_of_no_place {p : Params} {e : ExpectArg} : callerChecks p node false e = none := by
  cases e <;> simp [callerChecks]

theorem callerChecks_of_outOfRange {p : Params} {places : Bool} {e : ExpectArg} (h : ∃ c, e = .outOfRange c) :
    callerChecks p node places e = none := by
  obtain ⟨c, rfl⟩ := h
  rfl

theorem callerChecks_of_bad_node {p : Params} {places : Bool} {e : ExpectArg} (h : p.lastValidAddress < node) :
    callerChecks p node places e = none := by
  cases e <;> simp [callerChecks, Nat.not_le.mpr h]

/-- A host operation whose checks fail answers a caller error, whatever its access would be. -/
theorem hostOperation_of_failed_checks {places : Bool} {e : ExpectArg} {access : Expectation → Answer} (hs : MasterIdle s)
    (h : callerChecks s.params node places e = none) :
    s.asMaster (s.whenIdle (match callerChecks s.params node places e with
      | none => .next s.callerError
      | some e => access e)) = .next s.callerError := by
  rw [State.asMaster_of_idle hs, h]

theorem State.runAccess_of_not_fits {a : AccessParams} {start : State} (h : ¬accessFits s.params a = true) :
    s.runAccess a start = .next s.callerError := if_neg h

theorem not_accessFits {p : Params} {a : AccessParams} (h : p.lastValidAddress < a.node ∨
    p.txCapacity < (frameOf p a).length ∨ a.op = .generic ∧ (p.endMarker ∈ a.text ∨ nul ∈ a.text)) :
    ¬accessFits p a = true := by
  rw [accessFits_iff]
  rintro ⟨hlen, htext, hnode⟩
  rcases h with h | h | ⟨hop, h⟩
  · omega
  · omega
  · obtain ⟨hend, hnul⟩ := framable_iff.mp (htext hop)
    exact h.elim hend hnul

theorem exec_buildGeneric_invalid {text : List Byte} (hr : s.params.role = .master) (hi : s.initialized = true)
    (h : (Instr.buildGeneric text).wf s.params = false) : exec (.buildGeneric text) s = .next s.callerError := by
  change s.asMaster (.next (s.buildFrame ((Instr.buildGeneric text).wf s.params) _)) = _
  rw [State.asMaster_of hr hi, h, State.buildFrame_false]

theorem exec_buildWrite_invalid {reg : Byte} {value mask : Word} (hr : s.params.role = .master) (hi : s.initialized = true)
    (h : s.params.txCapacity < (writeFrame s.params reg value mask).length) :
    exec (.buildWrite reg value mask) s = .next s.callerError := by
  change s.asMaster (.next (s.buildFrame (decide _) _)) = _
  rw [State.asMaster_of hr hi, decide_eq_false (Nat.not_le.mpr h), State.buildFrame_false]

theorem exec_buildRead_invalid {reg : Byte} (hr : s.params.role = .master) (hi : s.initialized = true)
    (h : s.params.txCapacity < (readFrame s.params reg).length) : exec (.buildRead reg) s = .next s.callerError := by
  change s.asMaster (.next (s.buildFrame (decide _) _)) = _
  rw [State.asMaster_of hr hi, decide_eq_false (Nat.not_le.mpr h), State.buildFrame_false]

/-- A command whose text cannot be framed is a caller error even when its checks pass (R204). -/
theorem exec_sendCommand_of_bad_text {text : List Byte} {e : ExpectArg} {timeout : Nat} {statusOut : Bool}
    (hs : MasterIdle s)
    (h : s.params.endMarker ∈ text ∨ nul ∈ text ∨ s.params.txCapacity < text.length + 1) :
    exec (.sendCommand node text e timeout statusOut) s = .next s.callerError := by
  change s.asMaster (s.whenIdle _) = _
  rw [State.asMaster_of_idle hs]
  split
  · rfl
  · refine State.runAccess_of_not_fits (not_accessFits ?_)
    rcases h with h | h | h
    · exact .inr (.inr ⟨rfl, .inl h⟩)
    · exact .inr (.inr ⟨rfl, .inr h⟩)
    · exact .inr (.inl (by simpa [frameOf, genericFrame] using h))

end CallerErrors

/-- Settles O36: each failed check ends in the same answer, which writes the returned value alone. -/
theorem callerErrorsChangeNothing : Obligations.CallerErrorsChangeNothing := by
  intro s hs
  refine ⟨fun node reg value mask e timeout statusOut h => ?write,
    fun node reg e timeout statusOut valueOut h => ?read, fun node text e timeout statusOut h => ?command,
    fun capacity => ?scan, fun text h => ?generic, fun reg value mask h => exec_buildWrite_invalid hs.1 hs.2.1 h,
    fun reg h => exec_buildRead_invalid hs.1 hs.2.1 h, fun a one h => ?access⟩
  case write =>
    refine hostOperation_of_failed_checks hs ?_
    rcases h with rfl | h | h
    · exact callerChecks_of_no_place
    · exact callerChecks_of_outOfRange h
    · exact callerChecks_of_bad_node h
  case read =>
    refine hostOperation_of_failed_checks hs ?_
    rcases h with rfl | rfl | h | h
    · exact callerChecks_of_no_place
    · rw [Bool.and_false]; exact callerChecks_of_no_place
    · exact callerChecks_of_outOfRange h
    · exact callerChecks_of_bad_node h
  case command =>
    rcases h with rfl | h | h | h
    · exact hostOperation_of_failed_checks hs callerChecks_of_no_place
    · exact hostOperation_of_failed_checks hs (callerChecks_of_outOfRange h)
    · exact hostOperation_of_failed_checks hs (callerChecks_of_bad_node h)
    · exact exec_sendCommand_of_bad_text hs h
  case scan => exact (State.asMaster_of_idle hs).trans (if_neg (by simp))
  case generic =>
    refine exec_buildGeneric_invalid hs.1 hs.2.1 ?_
    by_contra hwf
    simp only [Instr.wf, Bool.not_eq_false, Bool.and_eq_true, decide_eq_true_eq, framable_iff] at hwf
    obtain ⟨⟨hend, hnul⟩, hlen⟩ := hwf
    rcases h with h | h | h
    · exact hend h
    · exact hnul h
    · omega
  case access =>
    have hrun (start : State) := State.runAccess_of_not_fits (start := start) (not_accessFits h)
    exact ⟨(State.asMaster_of_idle hs).trans (hrun _), (State.asMaster_of_idle hs).trans (hrun _)⟩

/-- Settles O51: the list is full before the first probe. -/
theorem scanWithoutRoomSendsNothing : Obligations.ScanWithoutRoomSendsNothing := by
  intro s hs
  have hnext : (s.startScan 0).carryOn = .next (s.startScan 0) :=
    State.carryOn_of_not_waiting (by simp [State.startScan, State.scanNext, hs.2.2])
  refine ⟨s.startScan 0, ((State.asMaster_of_idle hs).trans (if_pos (by simp))).trans hnext, rfl, rfl, rfl, rfl, rfl, hs.2.2,
    rfl, rfl, rfl, rfl, rfl, rfl⟩

end Sys2Proof.Machine
end

section
/-! PROOFS. Whole lines in the reply ring buffer (spec/40_ring_buffer.md R147, R151, R153): what the bytes of one line leave, what
several lines leave, and the discipline of the ring. -/

namespace Sys2Proof.Machine

/-! ### A text and its NUL in the slot byte store -/

/-- The store after the bytes of a text and a NUL were written from address `a` on. -/
def Memory.writeText : Memory → Nat → List Byte → Memory
  | m, a, [] => Memory.write m a nul
  | m, a, b :: text => Memory.writeText (Memory.write m a b) (a + 1) text

section WriteText

variable {m m' : Memory} {text : List Byte}

theorem Memory.writeText_wf (a : Nat) (h : Memory.wf m = true) : Memory.wf (Memory.writeText m a text) = true := by
  induction text generalizing m a with
  | nil => exact Memory.write_wf a nul h
  | cons b text ih => exact ih (a + 1) (Memory.write_wf a b h)

/-- Only the bytes of the text and its NUL are written. -/
theorem Memory.read_writeText_other {a c : Nat} (h : c < a ∨ a + text.length < c) :
    Memory.read (Memory.writeText m a text) c = Memory.read m c := by
  induction text generalizing m a with
  | nil => exact Memory.read_write_other m nul (by simp only [List.length_nil] at h; omega)
  | cons b text ih =>
    simp only [List.length_cons] at h
    rw [Memory.writeText, ih (by omega), Memory.read_write_other m b (by omega)]

theorem Memory.read_writeText_byte {a j : Nat} (h : Memory.wf m = true) (hj : j < text.length) :
    Memory.read (Memory.writeText m a text) (a + j) = text[j] := by
  induction text generalizing m a j with
  | nil => cases hj
  | cons b text ih =>
    have hm := Memory.write_wf a b h
    cases j with
    | zero => rw [Memory.writeText, Memory.read_writeText_other (by omega), Nat.add_zero, Memory.read_write_same b h]; rfl
    | succ j =>
      have htail := ih (a := a + 1) hm (Nat.lt_of_succ_lt_succ hj)
      rwa [Nat.add_assoc, Nat.add_comm 1] at htail

theorem Memory.read_writeText_nul {a : Nat} (h : Memory.wf m = true) :
    Memory.read (Memory.writeText m a text) (a + text.length) = nul := by
  induction text generalizing m a with
  | nil => exact Memory.read_write_same nul h
  | cons b text ih =>
    rw [List.length_cons, Nat.add_comm text.length 1, ← Nat.add_assoc]
    exact ih (Memory.write_wf a b h)

/-- A text without a NUL is read back whole. -/
theorem Memory.text_writeText {a n : Nat} (h : Memory.wf m = true) (hnul : nul ∉ text) (hn : text.length < n) :
    Memory.text (Memory.writeText m a text) a n = text :=
  Memory.text_eq (fun _ hj => Memory.read_writeText_byte h hj) hnul (Memory.read_writeText_nul h) hn

/-- A line is read from the bytes of its slot alone. -/
theorem Memory.text_congr {a n : Nat} (h : ∀ c, a ≤ c → c < a + n → Memory.read m c = Memory.read m' c) :
    Memory.text m a n = Memory.text m' a n := by
  induction n generalizing a with
  | zero => rfl
  | succ n ih =>
    have htail : Memory.text m (a + 1) n = Memory.text m' (a + 1) n := ih fun c hc hc' => h c (by omega) (by omega)
    simp only [Memory.text, h a (by omega) (by omega), htail]

end WriteText

/-! ### One line -/

/-- The ring after one line was pushed: its slot complete, its bytes stored, the write cursor one on (R142). -/
def Ring.withLine (p : Params) (r : Ring) (text : List Byte) : Ring where
  slots := r.slots.set r.writeCursor ⟨text.length, true, 0⟩
  mem := Memory.writeText r.mem (slotByte p r.writeCursor 0) text
  writeCursor := (r.writeCursor + 1) % p.depth
  readCursor := r.readCursor

section OneLine

variable {p : Params} {r : Ring} {text : List Byte} {sl : Slot}

theorem Ring.slot_set (r : Ring) (i j : Nat) (x : Slot) (h : i < r.slots.length) :
    (r.slots.set i x).getD j Slot.empty = if i = j then x else r.slot j := by
  rw [Ring.slot, List.getD_eq_getElem?_getD, List.getD_eq_getElem?_getD, List.getElem?_set]
  split <;> simp_all

@[simp] theorem Ring.withLine_length : (r.withLine p text).slots.length = r.slots.length := List.length_set ..

theorem Ring.withLine_slot (j : Nat) (h : r.writeCursor < r.slots.length) :
    (r.withLine p text).slot j = if r.writeCursor = j then ⟨text.length, true, 0⟩ else r.slot j :=
  Ring.slot_set r r.writeCursor j _ h

theorem Ring.withLine_wf (h : Memory.wf r.mem = true) : Memory.wf (r.withLine p text).mem = true :=
  Memory.writeText_wf _ h

/-- The line is found in its slot again (R15). -/
theorem Ring.withLine_line (hm : Memory.wf r.mem = true) (hnul : nul ∉ text) (hfit : text.length + 1 ≤ p.slotCapacity) :
    (r.withLine p text).line p r.writeCursor = text :=
  Memory.text_writeText hm hnul hfit

/-- The line in any other slot stays. -/
theorem Ring.withLine_line_other {j : Nat} (hj : j ≠ r.writeCursor) (hfit : text.length + 1 ≤ p.slotCapacity) :
    (r.withLine p text).line p j = r.line p j := by
  refine Memory.text_congr fun c hc hc' => Memory.read_writeText_other ?_
  simp only [slotByte, Nat.add_zero] at hc hc' ⊢
  rcases Nat.lt_or_gt_of_ne hj with h | h
  · have := Nat.mul_le_mul_right p.slotCapacity h
    rw [Nat.succ_mul] at this
    omega
  · have := Nat.mul_le_mul_right p.slotCapacity h
    rw [Nat.succ_mul] at this
    omega

/-- The rest of a line into a slot that holds its beginning (R141, R142). -/
theorem Ring.pushAll_rest_of_line (hsl : r.slots[r.writeCursor]? = some sl) (hc : sl.complete = false)
    (hend : p.endMarker ∉ text) (hfit : sl.len + text.length + 1 ≤ p.slotCapacity) :
    r.pushAll p (text ++ [p.endMarker]) = some
      { slots := r.slots.set r.writeCursor { sl with len := sl.len + text.length, complete := true }
        mem := Memory.writeText r.mem (slotByte p r.writeCursor sl.len) text
        writeCursor := (r.writeCursor + 1) % p.depth, readCursor := r.readCursor } := by
  induction text generalizing r sl with
  | nil =>
    have htarget := Ring.target_of_incomplete hsl hc
    have hpush := Ring.push_endMarker (p := p) (r := r) (by rw [htarget]; simp only [List.length_nil] at hfit; omega)
    rw [htarget] at hpush
    simp only [List.nil_append, Ring.pushAll, hpush, Memory.writeText, List.length_nil, Nat.add_zero]
  | cons b text ih =>
    have htarget := Ring.target_of_incomplete hsl hc
    have hb : b ≠ p.endMarker := fun e => hend (by simp [e])
    simp only [List.length_cons] at hfit
    have hpush := Ring.push_ordinary (r := r) hb (by rw [htarget]; omega)
    rw [htarget] at hpush
    obtain ⟨hlt, -⟩ := List.getElem?_eq_some_iff.mp hsl
    simp only [List.cons_append, Ring.pushAll, hpush]
    rw [ih (sl := { sl with len := sl.len + 1 }) (List.getElem?_set_self hlt) hc
      (fun hm => hend (List.mem_cons_of_mem _ hm)) (by simp only; omega)]
    simp only [List.set_set, Memory.writeText, List.length_cons, slotByte, Nat.add_assoc, Nat.add_comm 1]

/-- R153 (a), R144: a line that fits, into a slot that is empty or holds an unread line. -/
theorem Ring.pushAll_line (hw : r.writeCursor < r.slots.length) (ht : r.target = Slot.empty) (hend : p.endMarker ∉ text)
    (hfit : text.length + 1 ≤ p.slotCapacity) : r.pushAll p (text ++ [p.endMarker]) = some (r.withLine p text) := by
  have hsl : r.slots[r.writeCursor]? = some (r.slots[r.writeCursor]) := List.getElem?_eq_getElem hw
  have hfit' : Slot.empty.len + text.length + 1 ≤ p.slotCapacity := by simp only [Slot.empty]; omega
  cases hc : (r.slots[r.writeCursor]).complete with
  | false =>
    rw [Ring.target_of_incomplete hsl hc] at ht
    rw [ht] at hsl
    simpa [Ring.withLine, Slot.empty] using Ring.pushAll_rest_of_line hsl rfl hend hfit'
  | true =>
    have hflush : (r.flush r.writeCursor).slots[r.writeCursor]? = some Slot.empty := List.getElem?_set_self hw
    have hline := Ring.pushAll_rest_of_line hflush rfl hend hfit'
    have hsame : (r.flush r.writeCursor).pushAll p (text ++ [p.endMarker]) = r.pushAll p (text ++ [p.endMarker]) := by
      cases text <;> simp only [List.nil_append, List.cons_append, Ring.pushAll, Ring.push_flush_of_complete hsl hc]
    rw [← hsame, hline]
    simp [Ring.withLine, Ring.flush, Slot.empty]

end OneLine

/-! ### Several lines -/

section Lines

variable {p : Params} {r : Ring} {lines : List (List Byte)}

/-- Every slot is empty or holds a complete line, so that a line can begin in each. -/
def Ring.betweenLines (r : Ring) : Prop := ∀ sl ∈ r.slots, sl = Slot.empty ∨ sl.complete = true

/-- The ring after these lines were pushed, one after the other. -/
def Ring.withLines (p : Params) (r : Ring) (lines : List (List Byte)) : Ring := lines.foldl (Ring.withLine p) r

theorem Ring.withLines_concat (l : List Byte) : r.withLines p (lines ++ [l]) = (r.withLines p lines).withLine p l := by
  simp [Ring.withLines]

@[simp] theorem Ring.withLines_length : (r.withLines p lines).slots.length = r.slots.length := by
  induction lines using List.reverseRecOn with
  | nil => rfl
  | append_singleton lines l ih => rw [Ring.withLines_concat, Ring.withLine_length, ih]

@[simp] theorem Ring.withLines_readCursor : (r.withLines p lines).readCursor = r.readCursor := by
  induction lines using List.reverseRecOn with
  | nil => rfl
  | append_singleton lines l ih => rw [Ring.withLines_concat]; exact ih

theorem Ring.withLines_writeCursor (hw : r.writeCursor < p.depth) :
    (r.withLines p lines).writeCursor = (r.writeCursor + lines.length) % p.depth := by
  induction lines using List.reverseRecOn with
  | nil => exact (Nat.mod_eq_of_lt hw).symm
  | append_singleton lines l ih =>
    rw [Ring.withLines_concat, Ring.withLine, ih, Nat.mod_add_mod, List.length_append, List.length_singleton, Nat.add_assoc]

theorem Ring.withLines_wf (h : Memory.wf r.mem = true) : Memory.wf (r.withLines p lines).mem = true := by
  induction lines using List.reverseRecOn with
  | nil => exact h
  | append_singleton lines l ih => rw [Ring.withLines_concat]; exact Ring.withLine_wf ih

theorem Ring.target_of_betweenLines (h : r.betweenLines) (hw : r.writeCursor < r.slots.length) :
    r.target = Slot.empty := by
  have hsl : r.slots[r.writeCursor]? = some (r.slots[r.writeCursor]) := List.getElem?_eq_getElem hw
  rcases h _ (List.getElem_mem hw) with he | hc
  · rw [Ring.target_of_incomplete hsl (by rw [he]; rfl), he]
  · exact Ring.target_of_complete hsl hc

theorem Ring.withLine_betweenLines (h : r.betweenLines) (text : List Byte) : (r.withLine p text).betweenLines := by
  intro sl hm
  rcases List.mem_or_eq_of_mem_set hm with hm | rfl
  · exact h sl hm
  · exact .inr rfl

/-- Lines that fit are pushed one after the other, whatever they overwrite. -/
theorem Ring.pushAll_lines (hlen : r.slots.length = p.depth) (hw : r.writeCursor < p.depth) (hr : r.betweenLines)
    (hl : ∀ l ∈ lines, p.endMarker ∉ l ∧ l.length + 1 ≤ p.slotCapacity) :
    r.pushAll p (lines.flatMap (fun l => l ++ [p.endMarker])) = some (r.withLines p lines) := by
  induction lines generalizing r with
  | nil => rfl
  | cons l lines ih =>
    have hw' : r.writeCursor < r.slots.length := by omega
    obtain ⟨hend, hfit⟩ := hl l List.mem_cons_self
    rw [List.flatMap_cons, Ring.pushAll_append, Ring.pushAll_line hw' (Ring.target_of_betweenLines hr hw') hend hfit,
      Option.bind_some]
    exact ih (r.withLine_length.trans hlen) (Nat.mod_lt _ (by omega)) (r.withLine_betweenLines hr l)
      fun l hm => hl l (List.mem_cons_of_mem _ hm)

/-- Two lines fewer than `DEPTH` apart do not share a slot. -/
theorem add_mod_ne {n c j k : Nat} (hjk : j < k) (hk : k < j + n) : (c + j) % n ≠ (c + k) % n := by
  intro h
  have hdvd : n ∣ (c + k) - (c + j) := (Nat.modEq_iff_dvd' (by omega)).mp h
  have := Nat.le_of_dvd (by omega) hdvd
  omega

/-- R153 (b): each of the last `DEPTH` lines has its slot, complete. -/
theorem Ring.withLines_slot {j : Nat} (hlen : r.slots.length = p.depth) (hw : r.writeCursor < p.depth)
    (hj : j < lines.length) (hk : lines.length ≤ j + p.depth) :
    ((r.withLines p lines).slot ((r.writeCursor + j) % p.depth)).complete = true := by
  induction lines using List.reverseRecOn with
  | nil => cases hj
  | append_singleton lines l ih =>
    rw [List.length_append, List.length_singleton] at hj hk
    have hwc := Ring.withLines_writeCursor (lines := lines) hw
    rw [Ring.withLines_concat, Ring.withLine_slot _ (by rw [hwc, r.withLines_length, hlen]; exact Nat.mod_lt _ (by omega)), hwc]
    rcases Nat.lt_succ_iff_lt_or_eq.mp hj with hlt | rfl
    · rw [if_neg (add_mod_ne hlt (by omega)).symm]
      exact ih hlt (by omega)
    · rw [if_pos rfl]

/-- R153 (b): and it holds that line. -/
theorem Ring.withLines_line {j : Nat} (hw : r.writeCursor < p.depth)
    (hm : Memory.wf r.mem = true) (hl : ∀ l ∈ lines, nul ∉ l ∧ l.length + 1 ≤ p.slotCapacity) (hj : j < lines.length)
    (hk : lines.length ≤ j + p.depth) :
    (r.withLines p lines).line p ((r.writeCursor + j) % p.depth) = lines[j] := by
  induction lines using List.reverseRecOn with
  | nil => cases hj
  | append_singleton lines l ih =>
    rw [List.length_append, List.length_singleton] at hk
    have hwc := Ring.withLines_writeCursor (lines := lines) hw
    obtain ⟨hnul, hfit⟩ := hl l (by simp)
    rw [Ring.withLines_concat]
    rcases Nat.lt_succ_iff_lt_or_eq.mp (by simpa using hj) with hlt | rfl
    · rw [Ring.withLine_line_other (hwc ▸ add_mod_ne hlt (by omega)) hfit,
        ih (fun l hm => hl l (List.mem_append_left _ hm)) hlt (by omega), List.getElem_append_left hlt]
    · rw [← hwc, Ring.withLine_line (Ring.withLines_wf hm) hnul hfit, List.getElem_concat_length rfl]

end Lines

/-! ### Bytes pushed by the host -/

section PushBytes

variable {s t : State} {is js : List Instr}

theorem execAll_append (h : execAll is s = .next t) : execAll (is ++ js) s = execAll js t := by
  induction is generalizing s with
  | nil => cases h; rfl
  | cons i is ih =>
    simp only [execAll, List.cons_append] at h ⊢
    split at h
    · exact ih h
    · cases h
    · cases h

/-- PUSH_BYTE of each byte is the push of all of them. -/
theorem execAll_pushByte {bytes : List Byte} {r : Ring} (hr : s.params.role = .master) (hi : s.initialized = true)
    (h : s.ring.pushAll s.params bytes = some r) : execAll (bytes.map Instr.pushByte) s = .next { s with ring := r } := by
  induction bytes generalizing s with
  | nil => cases h; rfl
  | cons b bytes ih =>
    simp only [Ring.pushAll] at h
    split at h
    · next q hq =>
      simp only [List.map_cons, execAll, exec_pushByte_of_some hr hi hq]
      exact ih (s := { s with ring := q }) hr hi h
    · cases h

end PushBytes

/-! ### The discipline (R151) -/

section Discipline

variable {p : Params} {r : Ring}

theorem mod_of_lt_double {a n : Nat} (h : a < 2 * n) : a % n = if a < n then a else a - n := by
  split
  · next hlt => exact Nat.mod_eq_of_lt hlt
  · rw [Nat.mod_eq_sub_mod (by omega), Nat.mod_eq_of_lt (by omega)]

theorem Ring.reach_eq (hw : r.writeCursor < p.depth) (hr : r.readCursor < p.depth) :
    r.reach p = if r.readCursor ≤ r.writeCursor then r.writeCursor - r.readCursor
      else r.writeCursor + p.depth - r.readCursor := by
  rw [Ring.reach, mod_of_lt_double (by omega)]
  split <;> split <;> omega

theorem Ring.reach_lt (h : r.readCursor < p.depth) : r.reach p < p.depth := Nat.mod_lt _ (by omega)

/-- The slot at the write cursor is the one `reach` steps behind the read cursor. -/
theorem Ring.offset_eq_writeCursor_iff {d : Nat} (hw : r.writeCursor < p.depth) (hr : r.readCursor < p.depth)
    (hd : d < p.depth) : r.writeCursor = (r.readCursor + d) % p.depth ↔ d = r.reach p := by
  rw [Ring.reach_eq hw hr, mod_of_lt_double (by omega)]
  split <;> split <;> omega

/-- A change of the slot at the write cursor, seen from the read cursor. -/
theorem Ring.slot_set_writeCursor {d : Nat} (x : Slot) (hs : r.sound p = true) (hd : d < p.depth) :
    (r.slots.set r.writeCursor x).getD ((r.readCursor + d) % p.depth) Slot.empty =
      if d = r.reach p then x else r.slot ((r.readCursor + d) % p.depth) := by
  obtain ⟨hl, hw, hr, -⟩ := Ring.sound_iff.mp hs
  rw [Ring.slot_set r _ _ x (by omega)]
  simp only [Ring.offset_eq_writeCursor_iff hw hr hd]

theorem Ring.slot_writeCursor (hs : r.sound p = true) :
    r.slot ((r.readCursor + r.reach p) % p.depth) = r.slot r.writeCursor := by
  obtain ⟨-, hw, hr, -⟩ := Ring.sound_iff.mp hs
  rw [← (Ring.offset_eq_writeCursor_iff hw hr (Ring.reach_lt hr)).mpr rfl]

/-- R150: the terminator of a line that does not fill the ring makes one more line reachable. -/
theorem reach_of_rotated {r' : Ring} (hs : r.sound p = true) (hroom : r.reach p + 1 < p.depth)
    (hw' : r'.writeCursor = (r.writeCursor + 1) % p.depth) (hr' : r'.readCursor = r.readCursor) :
    r'.reach p = r.reach p + 1 := by
  obtain ⟨-, hw, hr, -⟩ := Ring.sound_iff.mp hs
  rw [mod_of_lt_double (by omega)] at hw'
  rw [Ring.reach_eq hw hr] at hroom ⊢
  rw [Ring.reach_eq (by rw [hw']; split <;> omega) (by omega), hw', hr']
  split at hroom <;> split <;> split <;> omega

/-- R142: completing the slot at the write cursor and rotating keeps the discipline of a ring with room. -/
theorem Ring.disciplined_of_completed {r' : Ring} {x : Slot} (hs : r.sound p = true) (hd : r.disciplined p)
    (hroom : r.reach p + 1 < p.depth) (hx : x.complete = true) (hslots : r'.slots = r.slots.set r.writeCursor x)
    (hw' : r'.writeCursor = (r.writeCursor + 1) % p.depth) (hr' : r'.readCursor = r.readCursor) : r'.disciplined p := by
  intro d hlt
  obtain ⟨hbelow, -, habove⟩ := hd d hlt
  have hslot := Ring.slot_set_writeCursor x hs hlt
  rw [← hslots, ← hr'] at hslot
  rw [reach_of_rotated hs hroom hw' hr', Ring.slot, hslot, hr']
  refine ⟨fun h => ?_, fun h => ?_, fun h => ?_⟩
  · split
    · exact hx
    · exact hbelow (by omega)
  · rw [if_neg (by omega)]
    exact (habove (by omega)).2
  · rw [if_neg (by omega)]
    exact habove (by omega)

/-- R141: a longer slot at the write cursor that is not complete keeps the discipline. -/
theorem Ring.disciplined_of_extended {r' : Ring} {x : Slot} (hs : r.sound p = true) (hd : r.disciplined p)
    (hx : x.complete = false) (hslots : r'.slots = r.slots.set r.writeCursor x)
    (hw' : r'.writeCursor = r.writeCursor) (hr' : r'.readCursor = r.readCursor) : r'.disciplined p := by
  intro d hlt
  obtain ⟨hbelow, -, habove⟩ := hd d hlt
  have hslot := Ring.slot_set_writeCursor x hs hlt
  have hreach : r'.reach p = r.reach p := by rw [Ring.reach, Ring.reach, hw', hr']
  rw [← hslots, ← hr'] at hslot
  rw [hreach, Ring.slot, hslot, hr']
  refine ⟨fun h => ?_, fun h => ?_, fun h => ?_⟩
  · rw [if_neg (by omega)]
    exact hbelow h
  · rw [if_pos h]
    exact hx
  · rw [if_neg (by omega)]
    exact habove h

/-- The producer's byte keeps the discipline as long as it does not fill the ring. -/
theorem Ring.push_disciplined {b : Byte} {r' : Ring} (hs : r.sound p = true) (hd : r.disciplined p)
    (hroom : b = p.endMarker → r.reach p + 1 < p.depth) (h : r.push p b = some r') : r'.disciplined p := by
  obtain ⟨-, -, hr, -⟩ := Ring.sound_iff.mp hs
  have hopen : r.target.complete = false := by
    have hslot := (hd _ (Ring.reach_lt hr)).2.1 rfl
    rw [Ring.slot_writeCursor hs] at hslot
    rwa [Ring.target, if_neg (by simp [hslot])]
  obtain ⟨hb, -, rfl⟩ | ⟨hb, -, rfl⟩ := Ring.push_cases h
  · exact Ring.disciplined_of_completed hs hd (hroom hb) rfl rfl rfl rfl
  · exact Ring.disciplined_of_extended (x := { r.target with len := r.target.len + 1 }) hs hd hopen rfl rfl rfl

theorem Ring.reach_pos_of_hasPending (hs : r.sound p = true) (h : r.hasPending = true) : 0 < r.reach p := by
  obtain ⟨-, hw, hr, -⟩ := Ring.sound_iff.mp hs
  have hne : r.writeCursor ≠ r.readCursor := by simpa [Ring.hasPending] using h
  rw [Ring.reach_eq hw hr]
  split <;> omega

/-- R147: the discard of a pending line makes one line fewer reachable. -/
theorem Ring.reach_discard (hs : r.sound p = true) (h : r.hasPending = true) : (r.discard p).reach p + 1 = r.reach p := by
  obtain ⟨-, hw, hr, -⟩ := Ring.sound_iff.mp hs
  have hpos := Ring.reach_pos_of_hasPending hs h
  have hcursor : (r.discard p).readCursor = if r.readCursor + 1 < p.depth then r.readCursor + 1 else 0 := by
    change (r.readCursor + 1) % p.depth = _
    rw [mod_of_lt_double (by omega)]
    split <;> omega
  rw [Ring.reach_eq hw hr] at hpos ⊢
  rw [Ring.reach_eq (r := r.discard p) hw (by rw [hcursor]; split <;> omega), hcursor, Ring.discard_writeCursor]
  split at hpos <;> split <;> split <;> omega

/-- R151: under the discipline a pending slot is complete. -/
theorem Ring.pending_complete (hs : r.sound p = true) (hd : r.disciplined p) (h : r.hasPending = true) :
    (r.slot r.readCursor).complete = true := by
  obtain ⟨-, -, hr, -⟩ := Ring.sound_iff.mp hs
  have hfirst := (hd 0 (by omega)).1 (Ring.reach_pos_of_hasPending hs h)
  rwa [Nat.add_zero, Nat.mod_eq_of_lt hr] at hfirst

/-- The consumer's discard keeps the discipline: what lay `d + 1` slots ahead now lies `d` ahead, and the slot left behind is
empty. -/
theorem Ring.discard_disciplined (hs : r.sound p = true) (hd : r.disciplined p) (h : r.hasPending = true) :
    (r.discard p).disciplined p := by
  obtain ⟨hl, hw, hr, -⟩ := Ring.sound_iff.mp hs
  have hreach := Ring.reach_discard hs h
  have hlt := Ring.reach_lt (r := r) hr
  intro d hdepth
  have hoffset : ((r.discard p).readCursor + d) % p.depth = (r.readCursor + (d + 1)) % p.depth := by
    change ((r.readCursor + 1) % p.depth + d) % p.depth = _
    rw [Nat.mod_add_mod, Nat.add_assoc, Nat.add_comm 1]
  have hslot : (r.discard p).slot ((r.readCursor + (d + 1)) % p.depth) =
      if r.readCursor = (r.readCursor + (d + 1)) % p.depth then Slot.empty else r.slot ((r.readCursor + (d + 1)) % p.depth) :=
    Ring.slot_set r _ _ _ (by omega)
  rw [hoffset, hslot]
  rcases Nat.lt_or_ge (d + 1) p.depth with hnext | hlast
  · have hne : r.readCursor ≠ (r.readCursor + (d + 1)) % p.depth := by
      simpa [Nat.mod_eq_of_lt hr] using add_mod_ne (c := r.readCursor) (Nat.succ_pos d) (by omega : d + 1 < 0 + p.depth)
    obtain ⟨hbelow, hat, habove⟩ := hd (d + 1) hnext
    rw [if_neg hne]
    exact ⟨fun h => hbelow (by omega), fun h => hat (by omega), fun h => habove (by omega)⟩
  · have hsame : r.readCursor = (r.readCursor + (d + 1)) % p.depth := by
      rw [show d + 1 = p.depth by omega, Nat.add_mod_right, Nat.mod_eq_of_lt hr]
    rw [if_pos hsame]
    exact ⟨fun h => by omega, fun _ => rfl, fun _ => ⟨rfl, rfl⟩⟩

/-- R183: the flush before a send establishes the discipline. -/
theorem Ring.resync_disciplined (r : Ring) : r.resync.disciplined p := by
  intro d hd
  have hslot (i : Nat) : r.resync.slot i = Slot.empty := by
    rw [Ring.slot, Ring.resync_slots]
    simp [List.getD, List.getElem?_replicate]
    split <;> rfl
  have hreach : r.resync.reach p = 0 := by simp [Ring.reach]
  rw [hslot, hreach]
  exact ⟨fun h => absurd h (Nat.not_lt_zero d), fun _ => rfl, fun _ => ⟨rfl, rfl⟩⟩

end Discipline

/-! ### The obligations -/

/-- Settles O16 by the push of one line into an empty slot. -/
theorem lineCompletesExactlyOneSlot : Obligations.LineCompletesExactlyOneSlot := by
  intro s text hr hi hm hsl hend hfit
  obtain ⟨hw, -⟩ := List.getElem?_eq_some_iff.mp hsl
  have hpush := Ring.pushAll_line hw (Ring.target_of_incomplete hsl rfl) hend hfit
  refine ⟨_, execAll_pushByte hr hi hpush, fun j hj => ?_, Memory.read_writeText_nul hm, fun a ha =>
    Memory.read_writeText_other ha⟩
  rw [List.getD_eq_getElem _ _ hj]
  exact Memory.read_writeText_byte hm hj

/-- Settles O17: of `DEPTH + 1` lines the last `DEPTH` have their slots. -/
theorem overrunLosesExactlyTheOldestLine : Obligations.OverrunLosesExactlyTheOldestLine := by
  intro s lines hr hi hm hdepth hslots hw hrc hcount hl
  have hlen : s.ring.slots.length = s.params.depth := by simp [hslots]
  have hready : s.ring.betweenLines := fun sl hsl => .inl (List.eq_of_mem_replicate (hslots ▸ hsl))
  have hcursor : s.ring.writeCursor < s.params.depth := by omega
  have hpush := Ring.pushAll_lines hlen hcursor hready fun l hmem => ⟨(hl l hmem).1.1, (hl l hmem).2⟩
  have hslot (j : Nat) := Ring.withLines_slot (lines := lines) (j := j) hlen hcursor
  have hline (j : Nat) := Ring.withLines_line (lines := lines) (j := j) hcursor hm
    fun l hmem => ⟨(hl l hmem).1.2, (hl l hmem).2⟩
  simp only [hw, Nat.zero_add] at hslot hline
  refine ⟨_, execAll_pushByte hr hi hpush, ?_, ?_, fun i hlt => ?_, ?_, fun k hk hlt => ?_⟩
  · change (s.ring.withLines s.params lines).writeCursor = 1
    rw [Ring.withLines_writeCursor hcursor, hw, hcount, Nat.zero_add, Nat.add_mod_left, Nat.mod_eq_of_lt (by omega)]
  · exact Ring.withLines_readCursor.trans hrc
  · rcases Nat.eq_zero_or_pos i with rfl | hpos
    · simpa using hslot s.params.depth (by omega) (by omega)
    · simpa [Nat.mod_eq_of_lt hlt] using hslot i (by omega) (by omega)
  · rw [List.getD_eq_getElem _ _ (by omega)]
    simpa using hline s.params.depth (by omega) (by omega)
  · rw [List.getD_eq_getElem _ _ (by omega)]
    simpa [Nat.mod_eq_of_lt hlt] using hline k (by omega) (by omega)

/-- Settles O18: `DEPTH` lines complete every slot and bring the write cursor back to where it stood. -/
theorem fullRingIsInvisible : Obligations.FullRingIsInvisible := by
  intro s lines hr hi hdepth hslots heq hcursor hcount hl
  have hlen : s.ring.slots.length = s.params.depth := by simp [hslots]
  have hready : s.ring.betweenLines := fun sl hsl => .inl (List.eq_of_mem_replicate (hslots ▸ hsl))
  have hpush := Ring.pushAll_lines hlen hcursor hready hl
  have hasked : execAll [.hasPending] { s with ring := s.ring.withLines s.params lines } =
      .next ({ s with ring := s.ring.withLines s.params lines }.returns
        (.flag (s.ring.withLines s.params lines).hasPending)) := by
    simp only [execAll]
    rw [exec_hasPending (s := { s with ring := s.ring.withLines s.params lines }) hr hi]
  refine ⟨_, (execAll_append (execAll_pushByte hr hi hpush)).trans hasked, ?_, fun i hlt => ?_⟩
  · have hback : (s.ring.withLines s.params lines).writeCursor = s.ring.writeCursor := by
      rw [Ring.withLines_writeCursor hcursor, hcount, Nat.add_mod_right, Nat.mod_eq_of_lt hcursor]
    simp [Ring.hasPending, hback, heq]
  · have hslot := Ring.withLines_slot (lines := lines) (j := (i + s.params.depth - s.ring.writeCursor) % s.params.depth)
      hlen hcursor (by rw [hcount]; exact Nat.mod_lt _ hdepth) (by omega)
    rwa [Nat.add_mod_mod, show s.ring.writeCursor + (i + s.params.depth - s.ring.writeCursor) = i + s.params.depth by omega,
      Nat.add_mod_right, Nat.mod_eq_of_lt hlt] at hslot

/-- Settles O19: the producer, the consumer and the flush before a send each keep the discipline. -/
theorem ringDisciplineHolds : Obligations.RingDisciplineHolds :=
  fun _ r hs => ⟨fun _ _ hd hroom h => Ring.push_disciplined hs hd hroom h,
    fun hd h => ⟨Ring.pending_complete hs hd h, Ring.discard_disciplined hs hd h, Ring.reach_discard hs h⟩,
    r.resync_disciplined, r.resync_hasPending⟩

end Sys2Proof.Machine
end

section
/-! PROOFS. The access machine as phases (spec/42_master_access.md): what each phase can lead to is walked through once, so that
what an access keeps is one small proof for each move; and what an operation can do at all, one case for each kind. -/

namespace Sys2Proof.Machine

variable {s t : State}

/-! ### The moves between two Delays -/

/-- An attempt that was sent, up to the transport's part in it (R182, R183, R184). -/
def State.sent (s : State) (e : Env) (ev : List Event) : State :=
  { s with
    ring := s.ring.resync
    seq := { s.seq with
      status := Status.zero, replyTimer := 0, seqTimer := 0, linesSeen := 0
      rxValue := Config.freeRxValue s.env.freeCount, txFrame := frameOf s.params s.seq.latch }
    env := e, events := ev }

/-- The receiver is switched, and the state register written. -/
def State.switched (s : State) (on : Bool) (f : Fsm) : State :=
  { s with seq := { s.seq with rxEnabled := on, fsm := f }, events := .fsm f :: s.events }

/-- The register of the wait after a line was examined (R189, R190). -/
def State.examined (s : State) (lines timer : Nat) (v : Word) (f : Fsm) (ev : List Event) : State :=
  { s with seq := { s.seq with linesSeen := lines, replyTimer := timer, rxValue := v, fsm := f }, events := ev }

/-- An attempt that ended with a status, its receiver disabled (R197). -/
def State.ended (s : State) (st : Status) (e : Env) (ev : List Event) : State :=
  { s with seq := { s.seq with status := st, rxEnabled := false }, env := e, events := ev }

/-- An access is latched on behalf of an operation, its first attempt still to be sent (R181, R201). -/
def State.started (s : State) (c : Caller) (a : AccessParams) (n : Nat) : State :=
  { s with seq := { s.seq with latch := a, caller := c, attempt := n }, ret := .pending }

theorem State.startAccess_eq (s : State) (c : Caller) (a : AccessParams) :
    s.startAccess c a = (s.started c a 1).sending := rfl

/-- `Sending` up to the frame: only the transport's part is open (R182 to R184). -/
theorem State.sendFrame_sent (s : State) : ∃ e ev, e.deliveries = s.env.deliveries ∧
    (s.goto .sending).clearAttempt.sendFrame.2 = { s.sent e ev with seq := { (s.sent e ev).seq with fsm := .sending } } := by
  refine ⟨(s.goto .sending).clearAttempt.sendFrame.2.env, (s.goto .sending).clearAttempt.sendFrame.2.events, ?_, ?_⟩
  all_goals
    unfold State.sendFrame
    dsimp only
    split
  · simp [State.clearAttempt]
  · simp [State.clearAttempt]
  · rfl
  · rfl

/-- The end of `Sending` (R185, R186, R205). -/
theorem State.afterSend_cases (s : State) : ∃ e ev, e.deliveries = s.env.deliveries ∧
    (s.afterSend = { s with env := e, events := ev }.abortAccess false ∨
    (s.seq.latch.expectation = .none ∧ s.afterSend = { s with env := e, events := ev }.switched false .success) ∨
    (s.seq.latch.expectation ≠ .none ∧ s.afterSend = { s with env := e, events := ev }.switched true .awaitingReply)) := by
  unfold State.afterSend
  split <;> dsimp only <;> split
  · next hx _ =>
    exact ⟨(s.transport .disableReceive).2.env, (s.transport .disableReceive).2.events, State.transport_deliveries _ _,
      .inr (.inl ⟨hx, rfl⟩)⟩
  · exact ⟨(s.transport .disableReceive).2.env, (s.transport .disableReceive).2.events, State.transport_deliveries _ _,
      .inl rfl⟩
  · next hx _ =>
    exact ⟨(s.transport .enableReceive).2.env, (s.transport .enableReceive).2.events, State.transport_deliveries _ _,
      .inr (.inr ⟨hx, rfl⟩)⟩
  · exact ⟨((s.transport .enableReceive).2.transport .disableReceive).2.env,
      ((s.transport .enableReceive).2.transport .disableReceive).2.events, by simp, .inl rfl⟩

/-- What `Sending` can come to. The transport's results are consumed, no delivery is. -/
theorem State.sending_cases (s : State) : ∃ e ev, e.deliveries = s.env.deliveries ∧
    (s.sending = (s.sent e ev).abortAccess false ∨
    (s.seq.latch.expectation = .none ∧ s.sending = (s.sent e ev).switched false .success) ∨
    (s.seq.latch.expectation ≠ .none ∧ s.sending = (s.sent e ev).switched true .awaitingReply)) := by
  obtain ⟨e, ev, he, hsend⟩ := s.sendFrame_sent
  unfold State.sending
  dsimp only
  rw [hsend]
  split
  · obtain ⟨e', ev', he', h⟩ :=
      State.afterSend_cases { s.sent e ev with seq := { (s.sent e ev).seq with fsm := .sending } }
    exact ⟨e', ev', he'.trans he, h⟩
  · exact ⟨((s.sent e ev).transport .disableReceive).2.env, ((s.sent e ev).transport .disableReceive).2.events,
      (State.transport_deliveries _ _).trans he, .inl rfl⟩

/-- What the exit procedure can come to (R197, R205). -/
theorem State.exitAttempt_cases (s : State) (st : Status) : ∃ e ev, e.deliveries = s.env.deliveries ∧
    (s.exitAttempt st = (s.ended st e ev).abortAccess false ∨ s.exitAttempt st = (s.ended st e ev).attemptOver) := by
  refine ⟨(s.transport .disableReceive).2.env, (s.transport .disableReceive).2.events, State.transport_deliveries _ _, ?_⟩
  unfold State.exitAttempt
  dsimp only
  split
  · exact .inr rfl
  · exact .inl rfl

/-- What an operation writes into the host's places when it returns (R202 to R204), and what it returns. -/
structure State.Returned (s : State) (h : Places) (r : Ret) : Prop where
  found  : h.found = s.host.found
  list   : h.list = s.host.list
  status : h.status = s.host.status ∨ h.status = s.seq.status
  value  : h.value = s.host.value ∨ (s.seq.caller = .readRegister ∧ s.seq.status.isZero = true ∧
    s.seq.latch.expectation = .value ∧ h.value = s.seq.rxValue ∧ r = .call .callSuccess)
  ret    : ∀ st, (r = .attempt st ∨ ∃ c v, r = .access c st v) → r = s.ret ∨ st = s.seq.status

/-- The machine is Idle again and the operation has returned. -/
def State.returned (s : State) (h : Places) (r : Ret) : State :=
  { s with seq := { s.seq with fsm := .idle, caller := .none }, host := h, events := .fsm .idle :: s.events, ret := r }

theorem State.writeOutputs_returned (s : State) (isRead : Bool) (hr : isRead = true → s.seq.caller = .readRegister) :
    ∃ h r, (s.goto .idle).writeOutputs isRead = s.returned h r ∧ s.Returned h r := by
  refine ⟨_, _, rfl, rfl, rfl, .inr rfl, ?_, fun _ h => by simp at h⟩
  dsimp only
  split
  · next h => exact .inr ⟨hr h.1, h.2.1, h.2.2, rfl, rfl⟩
  · exact .inl rfl

/-- R198, R200: an access that is over returns to its operation, or goes on with the scan. -/
theorem State.conclude_cases (s : State) :
    (∃ h r, s.conclude = s.returned h r ∧ s.Returned h r) ∨
      ∃ c, s.seq.caller = .scan c ∧ s.conclude = (s.goto .idle).scanRecord.scanNext c := by
  unfold State.conclude
  dsimp only
  split
  case h_1 hc => exact .inl ⟨s.host, s.ret, by simp [State.goto, State.returned, hc], rfl, rfl, .inl rfl, .inl rfl,
    fun _ _ => .inl rfl⟩
  case h_2 => exact .inl ⟨_, _, rfl, rfl, rfl, .inl rfl, .inl rfl, fun _ h => .inr (by simpa [eq_comm] using h)⟩
  case h_3 => exact .inl ⟨_, _, rfl, rfl, rfl, .inl rfl, .inl rfl, fun _ h => .inr (by simpa [eq_comm] using h)⟩
  case h_4 | h_6 => exact .inl (s.writeOutputs_returned false nofun)
  case h_5 hc => exact .inl (s.writeOutputs_returned true fun _ => hc)
  case h_7 c hc => exact .inr ⟨c, hc, rfl⟩

/-- R240, R244: a scan is over, or probes its next candidate. -/
theorem State.scanNext_cases (s : State) (c : Nat) :
    ((c ≤ s.seq.found ∨ s.params.lastValidAddress < s.seq.scanAddr) ∧
      s.scanNext c = { s with host := { s.host with found := s.seq.found } }.finish (.call .callSuccess)) ∨
    (s.seq.found < c ∧ s.seq.scanAddr ≤ s.params.lastValidAddress ∧
      s.scanNext c = (s.started (.scan c) (probeParams s.params s.seq.scanAddr) 1).sending) := by
  unfold State.scanNext
  split
  · next h => exact .inl ⟨h, rfl⟩
  · next h => exact .inr ⟨by omega, by omega, rfl⟩

/-- A probe may append a descriptor; it always steps on (R242, R243, R245). -/
theorem State.scanRecord_cases (s : State) : ∃ l n,
    s.scanRecord = { s with
      host := { s.host with list := l }, seq := { s.seq with found := n, scanAddr := s.seq.scanAddr + 1 } } ∧
    s.seq.found ≤ n := by
  unfold State.scanRecord
  dsimp only
  split
  · exact ⟨_, _, rfl, Nat.le_succ _⟩
  · exact ⟨s.host.list, s.seq.found, rfl, le_refl _⟩

theorem timeoutStatus_oneHot {c : Cfg} {q : Sequencer} {st : Status} (h : timeoutStatus c q = some st) :
    st.oneHot = true := by
  unfold timeoutStatus at h
  split at h
  · cases h; rfl
  · split at h
    · cases h; split <;> rfl
    · cases h

/-! ### The phases of an access -/

/-- What is claimed of a state in each phase: an attempt is to be sent, the ring is looked at after a Delay, the machine waits
in a Delay, the attempt is over, the scan is between two probes, the operation is over. -/
structure Phases where
  sends : State → Prop
  looks : State → Prop
  waits : State → Prop
  ends  : State → Prop
  scans : Nat → State → Prop
  finished : State → Prop

/-- The same claim in every phase. -/
def Phases.const (P : State → Prop) : Phases := ⟨P, P, P, P, fun _ => P, P⟩

/-- What is claimed when the machine is at rest. -/
def Phases.rest (φ : Phases) (s : State) : Prop := φ.waits s ∨ φ.finished s

/-- Each move from one phase leads to the claim of the next one. -/
structure Phases.Closed (φ : Phases) : Prop where
  abandons : ∀ {s} e ev, e.deliveries = s.env.deliveries → φ.sends s → φ.finished ((s.sent e ev).abortAccess false)
  succeeds : ∀ {s} e ev, e.deliveries = s.env.deliveries → φ.sends s → s.seq.latch.expectation = .none →
    φ.ends ((s.sent e ev).switched false .success)
  opens    : ∀ {s} e ev, e.deliveries = s.env.deliveries → φ.sends s → s.seq.latch.expectation ≠ .none →
    φ.waits ((s.sent e ev).switched true .awaitingReply)
  examines : ∀ {s} n m v f ev, φ.looks s → φ.looks (s.examined n m v f ev)
  discards : ∀ {s}, φ.looks s → φ.looks s.discardLine
  remains  : ∀ {s}, φ.looks s → s.seq.fsm = .awaitingReply → timeoutStatus s.cfg s.seq = none → φ.waits s
  aborts   : ∀ {s st} e ev, e.deliveries = s.env.deliveries → φ.looks s → st.oneHot = true →
    φ.finished ((s.ended st e ev).abortAccess false)
  settles  : ∀ {s st} e ev f, e.deliveries = s.env.deliveries → φ.looks s → st.oneHot = true →
    φ.ends ((s.ended st e ev).goto f)
  retries  : ∀ {s st} e ev, e.deliveries = s.env.deliveries → φ.looks s → st.oneHot = true → s.lastAttempt = false →
    φ.sends { (s.ended st e ev).goto .retry with
      seq := { ((s.ended st e ev).goto .retry).seq with attempt := s.seq.attempt + 1 } }
  returns  : ∀ {s h r}, φ.ends s → s.Returned h r → φ.finished (s.returned h r)
  records  : ∀ {s c}, φ.ends s → s.seq.caller = .scan c → φ.scans c (s.goto .idle).scanRecord
  finishes : ∀ {s c}, φ.scans c s →
    φ.finished ({ s with host := { s.host with found := s.seq.found } }.finish (.call .callSuccess))
  probes   : ∀ {s c}, φ.scans c s → s.seq.found < c → s.seq.scanAddr ≤ s.params.lastValidAddress →
    φ.sends (s.started (.scan c) (probeParams s.params s.seq.scanAddr) 1)

namespace Phases.Closed

variable {φ : Phases} (hφ : φ.Closed)
include hφ

theorem scanNext {c : Nat} (h : φ.scans c s) : φ.rest (s.scanNext c) := by
  rcases s.scanNext_cases c with ⟨-, heq⟩ | ⟨hroom, haddr, heq⟩ <;> rw [heq]
  · exact .inr (hφ.finishes h)
  · have hsends := hφ.probes h hroom haddr
    obtain ⟨e, ev, he, heq | ⟨hx, -⟩ | ⟨hx, heq⟩⟩ := (s.started (.scan c) (probeParams s.params s.seq.scanAddr) 1).sending_cases
    · exact heq ▸ .inr (hφ.abandons e ev he hsends)
    · cases hx
    · exact heq ▸ .inl (hφ.opens e ev he hsends hx)

theorem conclude (h : φ.ends s) : φ.rest s.conclude := by
  rcases s.conclude_cases with ⟨_, _, heq, hr⟩ | ⟨c, hc, heq⟩ <;> rw [heq]
  · exact .inr (hφ.returns h hr)
  · exact hφ.scanNext (hφ.records h hc)

/-- From the start of an attempt to the next rest. -/
theorem sending_settle (h : φ.sends s) : φ.rest s.sending.settle := by
  obtain ⟨e, ev, he, heq | ⟨hx, heq⟩ | ⟨hx, heq⟩⟩ := s.sending_cases <;> rw [heq]
  · exact .inr (hφ.abandons e ev he h)
  · exact hφ.conclude (hφ.succeeds e ev he h hx)
  · exact .inl (hφ.opens e ev he h hx)

theorem exitAttempt {st : Status} (h : φ.looks s) (hst : st.oneHot = true) : φ.rest (s.exitAttempt st) := by
  obtain ⟨e, ev, he, heq | heq⟩ := s.exitAttempt_cases st <;> rw [heq]
  · exact .inr (hφ.aborts e ev he h hst)
  · unfold State.attemptOver
    split
    · exact hφ.conclude (hφ.settles e ev .success he h hst)
    · split
      · exact hφ.conclude (hφ.settles e ev .exhausted he h hst)
      · next hlast => exact hφ.sending_settle (hφ.retries e ev he h hst (Bool.eq_false_iff.mpr hlast))

theorem checkTimeouts (h : φ.looks s) (hf : s.seq.fsm = .awaitingReply) : φ.rest s.checkTimeouts := by
  unfold State.checkTimeouts
  split
  · next hst => exact hφ.exitAttempt h (timeoutStatus_oneHot hst)
  · next hnone => exact .inl (hφ.remains h hf hnone)

/-- From the end of a Delay to the next rest. -/
theorem look (h : φ.looks s) (hf : s.seq.fsm = .awaitingReply) : φ.rest s.look := by
  have hread := fun n m v ev => hφ.examines n m v .classifying ev h
  unfold State.look
  split
  · unfold State.classifySlot
    dsimp only
    split
    · split
      · exact hφ.exitAttempt (hread _ _ _ _) rfl
      · exact hφ.exitAttempt (hread _ _ _ _) rfl
      · exact hφ.exitAttempt (hread _ _ _ _) rfl
      · exact hφ.checkTimeouts (hφ.discards (hread _ _ _ _)) rfl
    · exact hφ.checkTimeouts (hφ.discards (hread _ _ _ _)) rfl
  · exact hφ.checkTimeouts h hf

end Phases.Closed

/-- The state after a Delay that left the ring `r`, its timers advanced (R187). -/
def State.delayed (s : State) (r : Ring) : State :=
  ({ s.emit (.delay s.params.pollInterval) with ring := r }).advanceTimers

/-- The rings a Delay with this delivery can leave (R82). -/
def State.Hears (s : State) (d : List Byte) (r : Ring) : Prop := r = s.ring ∨ s.ring.pushAll s.params d = some r

/-- A poll iteration looks at some ring after its Delay, or a line overflowed its slot. -/
theorem State.poll_cases (s : State) (d : List Byte) :
    s.poll d = .fault .slotOverflow ∨ ∃ r, s.Hears d r ∧ s.poll d = .next (s.delayed r).look := by
  unfold State.poll
  rcases State.deliver_cases (s.emit (.delay s.params.pollInterval)) d with ⟨-, h⟩ | ⟨-, r, hr, h⟩ | ⟨-, -, h⟩ <;> rw [h]
  · exact .inr ⟨s.ring, .inl rfl, rfl⟩
  · exact .inr ⟨r, .inr hr, rfl⟩
  · exact .inl rfl

/-- A claim that also survives each Delay holds after every run, whose deliveries may be known to be of some kind. -/
theorem Phases.Closed.runDelays {φ : Phases} (hφ : φ.Closed) {D : List Byte → Prop}
    (hdelay : ∀ s d r, φ.rest s → s.seq.fsm = .awaitingReply → D d → s.Hears d r → φ.looks (s.delayed r))
    (henv : ∀ s e, φ.rest s → φ.rest { s with env := e })
    {ds : List (List Byte)} (hds : ∀ d ∈ ds, D d) (h : s.runDelays ds = .next t) (h0 : φ.rest s) : φ.rest t := by
  induction ds generalizing s with
  | nil => exact Host.Outcome.next.inj h ▸ henv s _ h0
  | cons d ds ih =>
    by_cases hf : s.seq.fsm = .awaitingReply
    · rcases s.poll_cases d with hp | ⟨r, hr, hp⟩
      · simp only [State.runDelays, if_pos hf, hp] at h
        cases h
      · rw [State.runDelays_wait hf hp] at h
        exact ih (fun d hd => hds d (List.mem_cons_of_mem _ hd)) h
          (hφ.look (hdelay s d r h0 hf (hds d List.mem_cons_self) hr) hf)
    · rw [State.runDelays_idle _ hf] at h
      exact Host.Outcome.next.inj h ▸ henv s _ h0

/-- The same for one Delay. -/
theorem Phases.Closed.poll {φ : Phases} (hφ : φ.Closed) {d : List Byte} (hf : s.seq.fsm = .awaitingReply)
    (hdelay : ∀ r, s.Hears d r → φ.looks (s.delayed r)) (h : s.poll d = .next t) : φ.rest t := by
  rcases s.poll_cases d with hp | ⟨r, hr, hp⟩
  · rw [hp] at h; cases h
  · exact Host.Outcome.next.inj (hp.symm.trans h) ▸ hφ.look (hdelay r hr) hf

end Sys2Proof.Machine
end

section
/-! PROOFS. What an operation can do (spec/30_encoding.md R100), one case for each kind of effect; then the claims that hold of every
operation: the roles' elements, the window, the canonical store, the status bits, the value place and the machine's invariant. -/

namespace Sys2Proof.Machine

variable {s t : State} {i : Instr}

/-! ### What a line can do at a slave -/

/-- What the handlers and the dispatcher of a slave leave: the master's elements, and a payload and a flag within their bounds. -/
structure State.Handled (s t : State) : Prop where
  params      : t.params = s.params
  cfg         : t.cfg = s.cfg
  initialized : t.initialized = s.initialized
  ring        : t.ring = s.ring
  seq         : t.seq = s.seq
  host        : t.host = s.host
  turnaround  : t.slave.turnaround = s.slave.turnaround ∨ t.slave.turnaround = false
  payload     : t.slave.replyPayload = s.slave.replyPayload ∨ t.slave.replyPayload.length ≤ 8
  ret         : t.ret = s.ret ∨ ∃ r, t.ret = .handler r

namespace State.Handled

theorem refl (s : State) : s.Handled s := ⟨rfl, rfl, rfl, rfl, rfl, rfl, .inl rfl, .inl rfl, .inl rfl⟩

theorem trans {u : State} (h : s.Handled t) (g : t.Handled u) : s.Handled u where
  params      := g.params.trans h.params
  cfg         := g.cfg.trans h.cfg
  initialized := g.initialized.trans h.initialized
  ring        := g.ring.trans h.ring
  seq         := g.seq.trans h.seq
  host        := g.host.trans h.host
  turnaround  := g.turnaround.elim (fun e => h.turnaround.imp e.trans e.trans) .inr
  payload     := g.payload.elim (fun e => h.payload.imp e.trans fun hl => e ▸ hl) .inr
  ret         := g.ret.elim (fun e => h.ret.imp e.trans fun ⟨r, hr⟩ => ⟨r, e.trans hr⟩) .inr

/-- A state after the turnaround delay, its payload the old one or that of a value, that a handler returns. -/
theorem of_since {u : State} (h : s.SinceTurnaround u)
    (hp : u.slave.replyPayload = s.slave.replyPayload ∨ u.slave.replyPayload.length ≤ 8) (r : HandlerResult) :
    s.Handled (u.handlerReturns r) :=
  ⟨h.params, h.cfg, h.initialized, h.ring, h.seq, h.host, .inr h.turnaround, hp, .inr ⟨r, rfl⟩⟩

end State.Handled

theorem State.handleWrite_handled (s : State) (text : List Byte) (pos : Nat) : s.Handled (s.handleWrite text pos) := by
  have hpayload : (s.handleWrite text pos).slave.replyPayload = s.slave.replyPayload := by
    unfold State.handleWrite
    dsimp only
    split <;> rfl
  obtain ⟨u, r, heq, hsince⟩ := s.handleWrite_since text pos
  rw [heq] at hpayload ⊢
  exact .of_since hsince (.inl hpayload) r

theorem State.handleRead_handled (s : State) (text : List Byte) (pos : Nat) : s.Handled (s.handleRead text pos) := by
  have hpayload : (s.handleRead text pos).slave.replyPayload = s.slave.replyPayload ∨
      (s.handleRead text pos).slave.replyPayload.length ≤ 8 := by
    unfold State.handleRead
    dsimp only
    split
    · split
      · exact .inr (minhex_length_bounds _).2
      · exact .inl rfl
    · exact .inl rfl
  obtain ⟨u, r, heq, hsince⟩ := s.handleRead_since text pos
  rw [heq] at hpayload ⊢
  exact .of_since hsince hpayload r

theorem State.dispatcherReplies_handled (s : State) (payload : List Byte) : s.Handled (s.dispatcherReplies payload) := by
  unfold State.dispatcherReplies
  split <;> exact { State.Handled.refl s with }

theorem State.dispatch_handled (s : State) (line : List Byte) : s.Handled (s.dispatch line) := by
  unfold State.dispatch
  split
  · exact (s.handleWrite_handled line _).trans (State.dispatcherReplies_handled _ _)
  · split
    · exact (s.handleRead_handled line _).trans (State.dispatcherReplies_handled _ _)
    · exact .refl s

theorem State.foldl_dispatch_handled (s : State) (lines : List (List Byte)) :
    s.Handled (lines.foldl State.dispatch s) := by
  induction lines generalizing s with
  | nil => exact .refl s
  | cons line lines ih => exact (s.dispatch_handled line).trans (ih _)

/-! ### The kinds of effects -/

/-- A result that holds no status. -/
def Ret.plain : Ret → Bool
  | .attempt _ | .access _ _ _ => false
  | .nothing | .pending | .done | .flag _ | .bytes _ | .field _ | .call _ | .handler _ => true

/-- The operation an access runs on behalf of; `none` where no access runs. -/
def callerOf : Instr → Caller
  | .attempt _ => .attempt
  | .access _ oneAttempt => .access oneAttempt
  | .writeRegister _ _ _ _ _ _ _ => .writeRegister
  | .readRegister _ _ _ _ _ _ => .readRegister
  | .sendCommand _ _ _ _ _ => .sendCommand
  | .scan _ capacity => .scan capacity
  | _ => .none

theorem callerOf_ne_none (hi : runsAccess i = true) : callerOf i ≠ .none := by
  cases i with
  | attempt | access | writeRegister | readRegister | sendCommand | scan => nofun
  | _ => cases hi

theorem callerOf_scan {c : Nat} (h : callerOf i = .scan c) : ∃ l, i = .scan l c := by
  cases i with
  | scan l _ => cases h; exact ⟨l, rfl⟩
  | _ => cases h

theorem callerOf_readRegister (h : callerOf i = .readRegister) :
    ∃ node reg e timeout statusOut valueOut, i = .readRegister node reg e timeout statusOut valueOut := by
  cases i with
  | readRegister => exact ⟨_, _, _, _, _, _, rfl⟩
  | _ => cases h

/-- What an operation does when it answers a next state. -/
inductive State.Effect (i : Instr) (s : State) : State → Prop
  /-- nothing: a line passes by, or is dropped -/
  | passes : State.Effect i s s
  /-- the returned value alone -/
  | answers (r : Ret) (hr : r.plain = true) : State.Effect i s (s.returns r)
  /-- `tx_frame` (R164 to R166) -/
  | builds (f : List Byte) (hrole : s.params.role = .master) (hf : f.length ≤ s.params.txCapacity) :
    State.Effect i s { s with seq := { s.seq with txFrame := f }, ret := .done }
  /-- bytes are pushed into the ring (R145, R84) -/
  | receives (bytes : List Byte) (r : Ring) (hrole : s.params.role = .master) (hinit : s.initialized = true)
    (hr : s.ring.pushAll s.params bytes = some r) : State.Effect i s { s with ring := r }
  /-- one slot is flushed (R148) -/
  | flushes (n : Nat) (hrole : s.params.role = .master) (hinit : s.initialized = true) :
    State.Effect i s ({ s with ring := s.ring.flush n }.returns .done)
  /-- every slot is flushed (R149) -/
  | flushesAll (hrole : s.params.role = .master) (hinit : s.initialized = true) :
    State.Effect i s ({ s with ring := s.ring.flushAll }.returns .done)
  /-- an access runs (R201 to R204) -/
  | runs (a : AccessParams) (n : Nat) (t : State) (hs : MasterIdle s) (hfits : accessFits s.params a = true)
    (hi : runsAccess i = true) (hscan : ∀ l c, i ≠ .scan l c)
    (ht : ((s.started (callerOf i) a n).sending.settle).carryOn = .next t) : State.Effect i s t
  /-- a scan runs (R240) -/
  | scans (capacity : Nat) (t : State) (hs : MasterIdle s) (hi : ∃ l, i = .scan l capacity)
    (hfits : capacity = 0 ∨ frameFits s.params (probeParams s.params 0) = true)
    (ht : (s.startScan capacity).carryOn = .next t) : State.Effect i s t
  /-- a line ends the Delay of a waiting access (R187) -/
  | hears (d : List Byte) (t : State) (hi : isLine i = true) (hrole : s.params.role = .master)
    (hinit : s.initialized = true) (hf : s.seq.fsm = .awaitingReply) (ht : s.poll d = .next t) : State.Effect i s t
  /-- a handler of a slave, or its dispatcher with a line (R220, R227) -/
  | handles (t : State) (hrole : s.params.role = .slave) (ht : s.Handled t) : State.Effect i s t
  /-- INIT_MASTER (R250) -/
  | opensMaster (lp : List Byte) (c : Cfg) (hi : isInit i = true) (hrole : s.params.role = .master)
    (hinit : s.initialized = false) (hp : s.params.inDomain = true) :
    State.Effect i s ((s.transport (.configure lp)).2.initAsMaster c)
  /-- INIT_MASTER whose transport cannot be configured (I24) -/
  | opensNothing (lp : List Byte) (hrole : s.params.role = .master) (hinit : s.initialized = false) :
    State.Effect i s ((s.transport (.configure lp)).2.returns (.call .transportError))
  /-- INIT_SLAVE (R251) -/
  | opensSlave (process write read : Callback) (hi : isInit i = true) (hrole : s.params.role = .slave)
    (hinit : s.initialized = false) : State.Effect i s (s.initAsSlave process write read)
  /-- DEINIT_MASTER (R252, R263) -/
  | closesMaster (b : Bool) (e : Env) (ev : List Event) (r : Ret) (hi : i = .deinitMaster) (hs : MasterIdle s)
    (hr : r.plain = true) : State.Effect i s { s with
      initialized := b, seq := { s.seq with rxEnabled := false }, env := e, events := ev, ret := r }
  /-- DEINIT_SLAVE (R253) -/
  | closesSlave (ev : List Event) (hi : i = .deinitSlave) (hrole : s.params.role = .slave) :
    State.Effect i s { s with
      slave := { s.slave with handlersRegistered := false }, initialized := false, events := ev, ret := .done }

theorem masterIdle_of_guards {k : Answer} (h : s.asMaster (s.whenIdle k) = .next t) : MasterIdle s ∧ k = .next t := by
  obtain ⟨hrole, hinit, h⟩ := State.asMaster_next.mp h
  obtain ⟨hf, h⟩ := State.whenIdle_next.mp h
  exact ⟨⟨hrole, hinit, hf⟩, h⟩

/-- The five operations that run one access on behalf of the host, as one: a caller error, or the access from its start (R201 to
R204). -/
theorem exec_access (hs : MasterIdle s) (hi : runsAccess i = true) (hscan : ∀ l c, i ≠ .scan l c) :
    exec i s = .next s.callerError ∨ ∃ a n, accessFits s.params a = true ∧ (n = 1 ∨ ∃ b, i = .attempt b) ∧
      exec i s = ((s.started (callerOf i) a n).sending.settle).carryOn := by
  have hrun (c : Caller) (a : AccessParams) (n : Nat) :
      s.runAccess a (s.started c a n).sending = .next s.callerError ∨ accessFits s.params a = true ∧
        s.runAccess a (s.started c a n).sending = ((s.started c a n).sending.settle).carryOn := by
    unfold State.runAccess
    split
    · next h => exact .inr ⟨h, rfl⟩
    · exact .inl rfl
  have hchecked (e : Option Expectation) (a : Expectation → AccessParams)
      (h : exec i s = s.asMaster (s.whenIdle (match e with
        | none => .next s.callerError
        | some e => s.hostAccess (callerOf i) (a e)))) :
      exec i s = .next s.callerError ∨ ∃ a n, accessFits s.params a = true ∧ (n = 1 ∨ ∃ b, i = .attempt b) ∧
        exec i s = ((s.started (callerOf i) a n).sending.settle).carryOn := by
    rw [State.asMaster_of_idle hs] at h
    cases e with
    | none => exact .inl h
    | some e => exact (hrun (callerOf i) (a e) 1).imp h.trans fun ⟨hfits, heq⟩ => ⟨_, 1, hfits, .inl rfl, h.trans heq⟩
  cases i with
  | attempt a =>
    have h : exec (.attempt a) s = _ := State.asMaster_of_idle hs
    exact (hrun .attempt a s.seq.attempt).imp h.trans fun ⟨hfits, heq⟩ => ⟨a, _, hfits, .inr ⟨a, rfl⟩, h.trans heq⟩
  | access a one =>
    have h : exec (.access a one) s = _ := State.asMaster_of_idle hs
    exact (hrun (.access one) a 1).imp h.trans fun ⟨hfits, heq⟩ => ⟨a, 1, hfits, .inl rfl, h.trans heq⟩
  | writeRegister node reg value mask expect timeout statusOut =>
    exact hchecked _ (fun e => ⟨.write, node, reg, e, timeout, value, mask, []⟩) rfl
  | readRegister node reg expect timeout statusOut valueOut =>
    exact hchecked _ (fun e => ⟨.read, node, reg, e, timeout, 0, 0, []⟩) rfl
  | sendCommand node text expect timeout statusOut =>
    exact hchecked _ (fun e => ⟨.generic, node, 0, e, timeout, 0, 0, text⟩) rfl
  | scan l c => exact absurd rfl (hscan l c)
  | _ => cases hi

/-- SCAN as one: a caller error, or the run of its probes (R240, R246). -/
theorem exec_scan (hs : MasterIdle s) (listOut : Bool) (capacity : Nat) :
    exec (.scan listOut capacity) s = .next s.callerError ∨
      ((capacity = 0 ∨ frameFits s.params (probeParams s.params 0) = true) ∧
        exec (.scan listOut capacity) s = (s.startScan capacity).carryOn) := by
  change s.asMaster (s.whenIdle _) = _ ∨ _ ∧ s.asMaster (s.whenIdle _) = _
  rw [State.asMaster_of_idle hs]
  split
  · next h => exact .inr ⟨h.2, rfl⟩
  · exact .inl rfl

theorem runsAccess_masterIdle (hi : runsAccess i = true) (h : exec i s = .next t) : MasterIdle s := by
  cases i with
  | attempt | access | writeRegister | readRegister | sendCommand | scan => exact (masterIdle_of_guards h).1
  | _ => cases hi

/-- The six operations that run an access: a caller error, an access from its start, or a scan from its first probe. -/
theorem runsAccess_cases (hi : runsAccess i = true) (h : exec i s = .next t) :
    t = s.callerError ∨
    (∃ a n, (∀ l c, i ≠ .scan l c) ∧ accessFits s.params a = true ∧
      ((s.started (callerOf i) a n).sending.settle).carryOn = .next t) ∨
    ∃ l c, i = .scan l c ∧ (c = 0 ∨ frameFits s.params (probeParams s.params 0) = true) ∧
      (s.startScan c).carryOn = .next t := by
  have hs := runsAccess_masterIdle hi h
  by_cases hscan : ∃ l c, i = .scan l c
  case neg =>
    have hscan : ∀ l c, i ≠ .scan l c := fun l c e => hscan ⟨l, c, e⟩
    rcases exec_access hs hi hscan with heq | ⟨a, n, hfits, -, heq⟩ <;> rw [heq] at h
    · exact .inl (Host.Outcome.next.inj h).symm
    · exact .inr (.inl ⟨a, n, hscan, hfits, h⟩)
  case pos =>
    obtain ⟨l, c, rfl⟩ := hscan
    rcases exec_scan hs l c with heq | ⟨hfits, heq⟩ <;> rw [heq] at h
    · exact .inl (Host.Outcome.next.inj h).symm
    · exact .inr (.inr ⟨l, c, rfl, hfits, h⟩)

theorem exec_effect_of_runsAccess (hi : runsAccess i = true) (h : exec i s = .next t) : s.Effect i t := by
  have hs := runsAccess_masterIdle hi h
  rcases runsAccess_cases hi h with rfl | ⟨a, n, hscan, hfits, ht⟩ | ⟨l, c, rfl, hfits, ht⟩
  · exact .answers _ rfl
  · exact .runs a n t hs hfits hi hscan ht
  · exact .scans c t hs ⟨l, rfl⟩ hfits ht

/-- A line at either role's receiver (R82, R119). -/
theorem onLine_effect {text : List Byte} (hi : isLine i = true) (h : s.onLine text = .next t) : s.Effect i t := by
  unfold State.onLine at h
  split at h
  · next hrole =>
    unfold State.lineArrives at h
    split at h
    · cases h; exact .passes
    · next hon =>
      have hinit : s.initialized = true := by by_contra hn; simp [hn] at hon
      split at h
      · next hf => exact .hears _ t hi hrole hinit hf h
      · rcases s.deliver_cases (text ++ [s.params.endMarker]) with ⟨-, hd⟩ | ⟨-, r, hr, hd⟩ | ⟨-, -, hd⟩ <;> rw [hd] at h
        · cases h; exact .passes
        · cases h; exact .receives _ r hrole hinit hr
        · cases h
  · next hrole =>
    cases h
    split
    · exact .handles _ hrole (s.foldl_dispatch_handled _)
    · exact .passes

theorem pushByte_effect {b : Byte} (h : execPushByte b s = .next t) : s.Effect i t := by
  obtain ⟨hrole, hinit, h⟩ := State.asMaster_next.mp h
  split at h
  · next r hr =>
    cases h
    exact .receives [b] r hrole hinit (by simp only [Ring.pushAll, hr])
  · cases h

theorem flush_effect {n : Nat} (h : execFlush n s = .next t) : s.Effect i t := by
  obtain ⟨hrole, hinit, h⟩ := State.asMaster_next.mp h
  split at h
  · cases h; exact .flushes n hrole hinit
  · cases h

/-- The three builders, whose frame fits when it can be built. -/
theorem buildFrame_effect {possible : Bool} {f : List Byte} (hf : possible = true → f.length ≤ s.params.txCapacity)
    (h : s.asMaster (.next (s.buildFrame possible f)) = .next t) : s.Effect i t := by
  obtain ⟨hrole, -, h⟩ := State.asMaster_next.mp h
  cases h
  cases possible with
  | false => exact .answers _ rfl
  | true => exact .builds f hrole (hf rfl)

theorem initMaster_effect {lp : List Byte} {ma sc : Nat} (h : execInitMaster lp ma sc s = .next t) :
    s.Effect (.initMaster lp ma sc) t := by
  unfold execInitMaster at h
  dsimp only at h
  split at h
  · next hrole =>
    split at h
    · cases h
    · next hinit =>
      split at h
      · cases h; exact .answers _ rfl
      · next hvalid =>
        have hp : s.params.inDomain = true := by by_contra hn; exact hvalid (.inr hn)
        split at h
        · cases h; exact .opensMaster lp _ rfl hrole (by simpa using hinit) hp
        · cases h; exact .opensNothing lp hrole (by simpa using hinit)
  · cases h

theorem initSlave_effect {process write read : Callback} (h : execInitSlave process write read s = .next t) :
    s.Effect (.initSlave process write read) t := by
  unfold execInitSlave at h
  split at h
  · next hrole =>
    split at h
    · cases h
    · next hinit =>
      split at h
      · cases h; exact .answers _ rfl
      · cases h; exact .opensSlave process write read rfl hrole (by simpa using hinit)
  · cases h

theorem deinitMaster_effect (h : execDeinitMaster s = .next t) : s.Effect .deinitMaster t := by
  obtain ⟨hs, h⟩ := masterIdle_of_guards h
  cases h
  split
  · exact .closesMaster false _ _ _ rfl hs rfl
  · exact .closesMaster s.initialized _ _ _ rfl hs rfl

/-- Every next state of every operation is one of these effects. -/
theorem exec_effect (h : exec i s = .next t) : s.Effect i t := by
  cases i with
  | write | read | generic | ok | error | value | noise => exact onLine_effect rfl h
  | pushByte => exact pushByte_effect h
  | hasPending => obtain ⟨-, -, h⟩ := State.asMaster_next.mp h; cases h; exact .answers _ rfl
  | flush => exact flush_effect h
  | flushAll => obtain ⟨hrole, hinit, h⟩ := State.asMaster_next.mp h; cases h; exact .flushesAll hrole hinit
  | encodeMinhex => obtain ⟨-, h⟩ := State.asEither_next.mp h; cases h; exact .answers _ rfl
  | buildGeneric =>
    refine buildFrame_effect (fun hf => ?_) h
    simp only [Instr.wf, Bool.and_eq_true, decide_eq_true_eq] at hf
    simpa [genericFrame] using hf.2
  | buildWrite | buildRead => exact buildFrame_effect of_decide_eq_true h
  | decode | compare => cases h; exact .answers _ rfl
  | attempt | access | writeRegister | readRegister | sendCommand | scan => exact exec_effect_of_runsAccess rfl h
  | initMaster => exact initMaster_effect h
  | initSlave => exact initSlave_effect h
  | deinitMaster => exact deinitMaster_effect h
  | deinitSlave => obtain ⟨hrole, -, h⟩ := State.asSlave_next.mp h; cases h; exact .closesSlave _ rfl hrole
  | slaveWrite text pos =>
    obtain ⟨hrole, -, h⟩ := State.asSlave_next.mp h
    cases h; exact .handles _ hrole (s.handleWrite_handled text pos)
  | slaveRead text pos =>
    obtain ⟨hrole, -, h⟩ := State.asSlave_next.mp h
    cases h; exact .handles _ hrole (s.handleRead_handled text pos)

end Sys2Proof.Machine
end

section
/-! PROOFS. What every operation and every step keeps: the elements of the other role, the window, the canonical slot bytes, one status
bit at most, the host's value place, and the invariant of the machine (spec/10_state.md, spec/42_master_access.md §6). -/

namespace Sys2Proof.Machine

variable {s t : State} {i : Instr}

/-! ### The run of an access as a whole -/

theorem State.carryOn_outside (h : s.carryOn = .next t) : s.SameOutside t :=
  State.runDelays_keeps (P := s.SameOutside) (fun _ _ _ _ hpoll hu => hu.trans (State.poll_outside hpoll))
    (fun _ _ hu => { hu with }) h (.refl s)

theorem State.started_outside (s : State) (c : Caller) (a : AccessParams) (n : Nat) : s.SameOutside (s.started c a n) :=
  { State.SameOutside.refl s with }

/-- What an access has no business with, from its start to its end (R202 to R204). -/
theorem State.run_outside {c : Caller} {a : AccessParams} {n : Nat}
    (h : ((s.started c a n).sending.settle).carryOn = .next t) : s.SameOutside t :=
  (((s.started_outside c a n).trans (State.sending_outside _)).trans (State.settle_outside _)).trans
    (State.carryOn_outside h)

theorem State.scan_outside {capacity : Nat} (h : (s.startScan capacity).carryOn = .next t) : s.SameOutside t :=
  (s.startScan_outside capacity).trans (State.carryOn_outside h)

/-- The state a scan starts from (R240). -/
def State.scanOpened (s : State) : State :=
  { s with seq := { s.seq with scanAddr := 0, found := 0 }, host := { s.host with list := [] } }

namespace Phases

variable {φ : Phases}

/-- A claim that holds in every phase survives every Delay when it survives the Delay itself. -/
structure Stable (φ : Phases) : Prop where
  closed  : φ.Closed
  delayed : ∀ {s d r}, φ.rest s → s.seq.fsm = .awaitingReply → s.Hears d r → φ.looks (s.delayed r)
  env     : ∀ {s} e, φ.rest s → φ.rest { s with env := e }

namespace Stable

variable (hφ : φ.Stable)
include hφ

theorem carryOn (h0 : φ.rest s) (h : s.carryOn = .next t) : φ.rest t :=
  hφ.closed.runDelays (D := fun _ => True) (fun _ _ _ hr hf _ hh => hφ.delayed hr hf hh) (fun _ e hr => hφ.env e hr)
    (fun _ _ => trivial) h h0

theorem run {c : Caller} {a : AccessParams} {n : Nat} (h0 : φ.sends (s.started c a n))
    (h : ((s.started c a n).sending.settle).carryOn = .next t) : φ.rest t :=
  hφ.carryOn (hφ.closed.sending_settle h0) h

theorem scan {capacity : Nat} (h0 : φ.scans capacity s.scanOpened) (h : (s.startScan capacity).carryOn = .next t) :
    φ.rest t :=
  hφ.carryOn (hφ.closed.scanNext h0) h

theorem poll {d : List Byte} (h0 : φ.rest s) (hf : s.seq.fsm = .awaitingReply) (h : s.poll d = .next t) : φ.rest t :=
  hφ.closed.poll hf (fun _ hh => hφ.delayed h0 hf hh) h

/-- The step that ends a Delay (R278). -/
theorem endDelay (h0 : φ.rest s) (hf : s.seq.fsm = .awaitingReply) (h : s.endDelay = .next t) : φ.rest t := by
  obtain ⟨d, e, hp, -⟩ := State.endDelay_next h
  exact hφ.poll (hφ.env e h0) hf hp

end Stable

end Phases

/-! ### Claims about the ring -/

/-- The ring meets `Q`, in a machine with the parameters `p`. -/
def State.RingIs (p : Params) (Q : Ring → Prop) (s : State) : Prop := s.params = p ∧ Q s.ring

theorem State.scanRecord_ring (s : State) : s.scanRecord.params = s.params ∧ s.scanRecord.ring = s.ring := by
  obtain ⟨l, n, heq, -⟩ := s.scanRecord_cases
  rw [heq]
  exact ⟨rfl, rfl⟩

/-- What survives the flush before a send and the discard survives every move of an access. -/
theorem ringIs_closed {p : Params} {Q : Ring → Prop} (hresync : ∀ r, Q r → Q r.resync) (hdiscard : ∀ r, Q r → Q (r.discard p)) :
    (Phases.const (State.RingIs p Q)).Closed where
  abandons _ _ _ h := ⟨h.1, hresync _ h.2⟩
  succeeds _ _ _ h _ := ⟨h.1, hresync _ h.2⟩
  opens _ _ _ h _ := ⟨h.1, hresync _ h.2⟩
  examines _ _ _ _ _ h := h
  discards h := ⟨h.1, by rw [State.discardLine_ring, h.1]; exact hdiscard _ h.2⟩
  remains h _ _ := h
  aborts _ _ _ h _ := h
  settles _ _ _ _ h _ := h
  retries _ _ _ h _ _ := h
  returns h _ := h
  records {s _} h _ := by
    obtain ⟨hp, hr⟩ := (s.goto .idle).scanRecord_ring
    exact ⟨hp.trans h.1, hr ▸ h.2⟩
  finishes h := h
  probes h _ _ := h

/-- What also survives PUSH_BYTE survives every run. -/
theorem ringIs_stable {p : Params} {Q : Ring → Prop} (hresync : ∀ r, Q r → Q r.resync)
    (hdiscard : ∀ r, Q r → Q (r.discard p)) (hpush : ∀ r b r', r.push p b = some r' → Q r → Q r') :
    (Phases.const (State.RingIs p Q)).Stable where
  closed := ringIs_closed hresync hdiscard
  delayed {s d r} h _ hh := by
    obtain ⟨hp, hq⟩ : s.RingIs p Q := h.elim id id
    refine ⟨hp, ?_⟩
    rcases hh with rfl | hr
    · exact hq
    · exact Ring.pushAll_keeps hpush (hp ▸ hr) hq
  env _ h := h

theorem memoryWf_stable (p : Params) : (Phases.const (State.RingIs p fun r => Memory.wf r.mem = true)).Stable :=
  ringIs_stable (fun _ h => h) (fun _ h => h) fun _ _ _ => Ring.push_wf

/-- Every operation keeps the slot bytes canonical: the ring's operations do, and no other writes them. -/
theorem exec_memoryWf (h : exec i s = .next t) (hm : Memory.wf s.ring.mem = true) : Memory.wf t.ring.mem = true := by
  have hstable := memoryWf_stable s.params
  cases exec_effect h with
  | passes | answers | builds | flushes | flushesAll | opensMaster | opensNothing | opensSlave | closesMaster
  | closesSlave => exact hm
  | receives bytes r _ _ hr => exact Ring.pushAll_keeps (P := fun r => Memory.wf r.mem = true) (fun _ _ _ => Ring.push_wf) hr hm
  | runs a n t _ _ _ _ ht => exact ((hstable.run ⟨rfl, hm⟩ ht).elim id id).2
  | scans capacity t _ _ _ ht => exact ((hstable.scan ⟨rfl, hm⟩ ht).elim id id).2
  | hears d t _ _ _ hf ht => exact ((hstable.poll (.inl ⟨rfl, hm⟩) hf ht).elim id id).2
  | handles t _ ht => exact ht.ring ▸ hm

/-- Settles O60: a step is an operation or the end of a Delay. -/
theorem stepKeepsMemoryCanonical : Obligations.StepKeepsMemoryCanonical := by
  intro s t hm h
  rcases step_cases h with ⟨-, -, rfl⟩ | ⟨hf, h⟩ | ⟨_, _, h, -, -⟩ | ⟨_, _, _, h, -, -⟩
  · exact hm
  · exact (((memoryWf_stable s.params).endDelay (.inl ⟨rfl, hm⟩) hf h).elim id id).2
  · exact exec_memoryWf h hm
  · exact exec_memoryWf h hm

/-! ### The roles and the window -/

/-- Settles O8: each effect of a slave leaves the master's elements, and each of a master the slave's. -/
theorem rolesDoNotShareState : Obligations.RolesDoNotShareState := by
  intro i s t h
  have hrole {r r' : Role} (h : s.params.role = r) (h' : s.params.role = r') (hne : r ≠ r') : False := hne (h.symm.trans h')
  cases exec_effect h with
  | passes | answers => exact ⟨fun _ => ⟨rfl, rfl, rfl, rfl⟩, fun _ => rfl⟩
  | builds _ hr | receives _ _ hr | flushes _ hr | flushesAll hr | opensMaster _ _ _ hr | opensNothing _ hr =>
    exact ⟨fun hs => (hrole hr hs nofun).elim, fun _ => rfl⟩
  | closesMaster _ _ _ _ _ hs => exact ⟨fun hsl => (hrole hs.1 hsl nofun).elim, fun _ => rfl⟩
  | runs _ _ t hs _ _ _ ht => exact ⟨fun hsl => (hrole hs.1 hsl nofun).elim, fun _ => (State.run_outside ht).slave⟩
  | scans _ t hs _ _ ht => exact ⟨fun hsl => (hrole hs.1 hsl nofun).elim, fun _ => (State.scan_outside ht).slave⟩
  | hears _ t _ hr _ _ ht => exact ⟨fun hsl => (hrole hr hsl nofun).elim, fun _ => (State.poll_outside ht).slave⟩
  | handles t hr ht => exact ⟨fun _ => ⟨ht.ring, ht.seq, ht.host, ht.cfg⟩, fun hm => (hrole hr hm nofun).elim⟩
  | opensSlave _ _ _ _ hr | closesSlave _ _ hr =>
    exact ⟨fun _ => ⟨rfl, rfl, rfl, rfl⟩, fun hm => (hrole hr hm nofun).elim⟩

/-- Settles O9: the effects that write `initialized` are those of INIT and DEINIT. -/
theorem onlyLifecycleOperationsMoveTheWindow : Obligations.OnlyLifecycleOperationsMoveTheWindow := by
  intro i s t h
  have hsame (heq : t.initialized = s.initialized) : (s.initialized = false → t.initialized = true → isInit i = true) ∧
      (s.initialized = true → t.initialized = false → i = .deinitMaster ∨ i = .deinitSlave) :=
    ⟨fun h0 h1 => by simp [heq, h0] at h1, fun h1 h0 => by simp [heq, h1] at h0⟩
  cases exec_effect h with
  | passes | answers | builds | receives | flushes | flushesAll | opensNothing => exact hsame rfl
  | runs _ _ t _ _ _ _ ht => exact hsame (State.run_outside ht).initialized
  | scans _ t _ _ _ ht => exact hsame (State.scan_outside ht).initialized
  | hears _ t _ _ _ _ ht => exact hsame (State.poll_outside ht).initialized
  | handles t _ ht => exact hsame ht.initialized
  | opensMaster _ _ hi => exact ⟨fun _ _ => hi, fun _ h0 => nomatch h0⟩
  | opensSlave _ _ _ hi => exact ⟨fun _ _ => hi, fun _ h0 => nomatch h0⟩
  | closesMaster _ _ _ _ hi hs => exact ⟨fun h0 => by simp [hs.2.1] at h0, fun _ _ => .inl hi⟩
  | closesSlave _ hi => exact ⟨fun _ h1 => (nomatch h1), fun _ _ => .inr hi⟩

/-! ### One status bit at most (R210) -/

/-- At most one bit is set wherever a status stands; a status that was returned before, in `r`, is left out. -/
def State.OneBit (r : Ret) (s : State) : Prop :=
  s.seq.status.oneHot = true ∧ s.host.status.oneHot = true ∧
    ∀ st, (s.ret = .attempt st ∨ ∃ c v, s.ret = .access c st v) → s.ret = r ∨ st.oneHot = true

theorem State.OneBit.plain {r : Ret} (h : s.OneBit r) (hs : t.seq.status = s.seq.status) (hh : t.host.status = s.host.status)
    (hr : t.ret.plain = true) : t.OneBit r :=
  ⟨hs ▸ h.1, hh ▸ h.2.1, fun st hst => by rcases hst with hst | ⟨c, v, hst⟩ <;> simp [hst, Ret.plain] at hr⟩

/-- The same when the returned value stands. -/
theorem State.OneBit.same {r : Ret} (h : s.OneBit r) (hs : t.seq.status = s.seq.status) (hh : t.host.status = s.host.status)
    (hr : t.ret = s.ret) : t.OneBit r :=
  ⟨hs ▸ h.1, hh ▸ h.2.1, hr ▸ h.2.2⟩

theorem oneBit_stable (r : Ret) : (Phases.const (State.OneBit r)).Stable where
  closed :=
    { abandons := fun _ _ _ h => ⟨rfl, h.2.1, fun _ hst => by simp at hst⟩
      succeeds := fun _ _ _ h _ => ⟨rfl, h.2⟩
      opens := fun _ _ _ h _ => ⟨rfl, h.2⟩
      examines := fun _ _ _ _ _ h => h
      discards := fun h => h
      remains := fun h _ _ => h
      aborts := fun _ _ _ h hst => ⟨hst, h.2.1, fun _ hst => by simp at hst⟩
      settles := fun _ _ _ _ h hst => ⟨hst, h.2⟩
      retries := fun _ _ _ h hst _ => ⟨hst, h.2⟩
      returns := fun {s h _} hs hr => ⟨hs.1, hr.status.elim (fun e => e ▸ hs.2.1) (fun e => e ▸ hs.1), fun st hst => by
        rcases hr.ret st hst with heq | rfl
        · exact heq ▸ hs.2.2 st (heq ▸ hst)
        · exact .inr hs.1⟩
      records := fun {s _} h _ => by
        obtain ⟨l, n, heq, -⟩ := (s.goto .idle).scanRecord_cases
        exact heq ▸ h
      finishes := fun h => h.plain rfl rfl rfl
      probes := fun h _ _ => h.plain rfl rfl rfl }
  delayed h _ _ := h.elim id id
  env _ h := h

/-- Every operation keeps at most one bit in each status. -/
theorem exec_oneBit (h : exec i s = .next t) (h0 : s.OneBit s.ret) : t.OneBit s.ret := by
  have hstable := oneBit_stable s.ret
  cases exec_effect h with
  | passes => exact h0
  | answers r hr => exact h0.plain rfl rfl hr
  | builds | flushes | flushesAll | opensMaster | opensNothing | opensSlave | closesSlave => exact h0.plain rfl rfl rfl
  | closesMaster _ _ _ _ _ _ hr => exact h0.plain rfl rfl hr
  | receives => exact h0
  | runs a n t _ _ _ _ ht =>
    have hstart : (s.started (callerOf i) a n).OneBit s.ret := h0.plain rfl rfl rfl
    exact (hstable.run hstart ht).elim id id
  | scans capacity t _ _ _ ht =>
    have hstart : s.scanOpened.OneBit s.ret := h0
    exact (hstable.scan hstart ht).elim id id
  | hears d t _ _ _ hf ht => exact (hstable.poll (.inl h0) hf ht).elim id id
  | handles t _ ht =>
    have hs := congrArg Sequencer.status ht.seq
    have hh := congrArg Places.status ht.host
    rcases ht.ret with hr | ⟨r, hr⟩
    · exact h0.same hs hh hr
    · exact h0.plain hs hh (hr ▸ rfl)

/-- Settles O37: the claim survives every operation and the end of every Delay. -/
theorem statusIsOneHot : Obligations.StatusIsOneHot := by
  intro s t h hseq hhost
  have h0 : s.OneBit s.ret := ⟨hseq, hhost, fun _ _ => .inl rfl⟩
  rcases h with h | ⟨i, h⟩
  · rcases step_cases h with ⟨-, -, rfl⟩ | ⟨hf, h⟩ | ⟨_, rest, h, -, -⟩ | ⟨_, rest, _, h, -, -⟩
    · exact h0
    · exact ((oneBit_stable s.ret).endDelay (.inl h0) hf h).elim id id
    · exact exec_oneBit (s := s.withInputs rest) h h0
    · exact exec_oneBit (s := s.withInputs rest) h h0
  · exact exec_oneBit h h0

/-! ### The host's value place (R203) -/

/-- The value place holds `v` still, and a register read may be under way only under the condition `R`. -/
def State.Unread (v : Word) (R : Prop) (s : State) : Prop := s.host.value = v ∧ (s.seq.caller = .readRegister → R)

/-- A register read has ended with an accepted value. -/
def State.ReadDone (R : Prop) (s : State) : Prop :=
  R ∧ s.seq.status = Status.zero ∧ s.seq.latch.expectation = .value ∧ s.host.value = s.seq.rxValue ∧
    s.ret = .call .callSuccess ∧ s.seq.fsm = .idle

/-- The phases of an access as far as the value place is concerned: it is written only by the return of a read. -/
def valuePhases (v : Word) (R : Prop) : Phases :=
  { Phases.const (State.Unread v R) with
    scans := fun _ s => s.host.value = v
    finished := fun s => s.Unread v R ∨ s.ReadDone R }

theorem valuePhases_stable (v : Word) (R : Prop) : (valuePhases v R).Stable where
  closed :=
    { abandons := fun _ _ _ h => .inl ⟨h.1, nofun⟩
      succeeds := fun _ _ _ h _ => h
      opens := fun _ _ _ h _ => h
      examines := fun _ _ _ _ _ h => h
      discards := fun h => h
      remains := fun h _ _ => h
      aborts := fun _ _ _ h _ => .inl ⟨h.1, nofun⟩
      settles := fun _ _ _ _ h _ => h
      retries := fun _ _ _ h _ _ => h
      returns := fun {s h r} hs hr => by
        rcases hr.value with hv | ⟨hc, hz, hx, hv, hret⟩
        · exact .inl ⟨hv.trans hs.1, nofun⟩
        · exact .inr ⟨hs.2 hc, of_decide_eq_true hz, hx, hv, hret, rfl⟩
      records := fun {s _} h _ => by
        obtain ⟨l, n, heq, -⟩ := (s.goto .idle).scanRecord_cases
        exact heq ▸ h.1
      finishes := fun h => .inl ⟨h, nofun⟩
      probes := fun h _ _ => ⟨h, nofun⟩ }
  delayed {s _ _} h hf _ := by
    rcases h with h | h | ⟨-, -, -, -, -, hidle⟩
    · exact h
    · exact h
    · rw [hidle] at hf; cases hf
  env _ h := h

/-- Settles O30: a place that changed was written by the return of a read, which was this operation or was under way. -/
theorem valuePlaceIsWrittenOnlyOnAnAcceptedValue : Obligations.ValuePlaceIsWrittenOnlyOnAnAcceptedValue := by
  intro i s t h hne
  have hdone {R : Prop} (hrest : (valuePhases s.host.value R).rest t) : t.ReadDone R :=
    hrest.elim (fun h => (hne h.1).elim) (fun h => h.elim (fun h => (hne h.1).elim) id)
  have hread {R : Prop} (hR : R → (∃ node reg e timeout statusOut valueOut,
      i = .readRegister node reg e timeout statusOut valueOut) ∨ isLine i = true ∧ s.seq.caller = .readRegister)
      (hrest : (valuePhases s.host.value R).rest t) :
      (t.seq.status = ⟨false, false, false, false⟩ ∧ t.seq.latch.expectation = .value ∧ t.host.value = t.seq.rxValue ∧
        t.ret = .call .callSuccess ∧ t.seq.fsm = .idle) ∧ ((∃ node reg e timeout statusOut valueOut,
        i = .readRegister node reg e timeout statusOut valueOut) ∨ isLine i = true ∧ s.seq.caller = .readRegister) :=
    have ⟨hr, hdone⟩ := hdone hrest
    ⟨hdone, hR hr⟩
  cases exec_effect h with
  | passes | answers | builds | receives | flushes | flushesAll | opensMaster | opensNothing | opensSlave | closesMaster
  | closesSlave => exact (hne rfl).elim
  | handles t _ ht => exact (hne (congrArg Places.value ht.host)).elim
  | runs a n t _ _ _ _ ht =>
    exact hread (fun hc => .inl (callerOf_readRegister hc)) ((valuePhases_stable s.host.value _).run ⟨rfl, id⟩ ht)
  | scans capacity t _ _ _ ht =>
    exact hread False.elim ((valuePhases_stable s.host.value False).scan rfl ht)
  | hears d t hi _ _ hf ht =>
    exact hread (fun hc => .inr ⟨hi, hc⟩) ((valuePhases_stable s.host.value _).poll (.inl ⟨rfl, id⟩) hf ht)

end Sys2Proof.Machine
end

section
/-! PROOFS. The invariant of the machine (spec/10_state.md, spec/42_master_access.md §6): what it says in each phase of an access, that
every move and every operation keeps it, and with it every step. -/

namespace Sys2Proof.Machine

variable {s t : State} {i : Instr}

/-! ### The invariant, part by part -/

theorem Sequencer.resting_iff {p : Params} {initialized : Bool} {q : Sequencer} : q.resting p initialized = true ↔
    (q.fsm = .idle ∧ q.rxEnabled = false ∧ q.caller = .none) ∨
    (q.fsm = .awaitingReply ∧ q.rxEnabled = true ∧ q.caller ≠ .none ∧ p.role = .master ∧ initialized = true ∧
      accessFits p q.latch = true ∧ ∀ c, q.caller = .scan c → q.latch = probeParams p q.scanAddr) := by
  unfold Sequencer.resting
  cases hc : q.caller <;> simp [and_assoc]

theorem State.inv_iff : s.inv = true ↔
    (s.params.role = .master → s.initialized = true → s.ring.sound s.params = true) ∧ Memory.wf s.ring.mem = true ∧
      s.seq.txFrame.length ≤ s.params.txCapacity ∧ s.slave.replyPayload.length ≤ 8 ∧
      s.seq.resting s.params s.initialized = true ∧ s.seq.status.oneHot = true ∧ s.slave.turnaround = false := by
  simp only [State.inv, Bool.and_eq_true, Bool.or_eq_true, Bool.not_eq_true', Bool.and_eq_false_iff, decide_eq_true_eq,
    decide_eq_false_iff_not, and_assoc]
  refine and_congr_left fun _ => ?_
  constructor
  · exact fun h hr hi => h.resolve_left fun h => h.elim (· hr) (by simp [hi])
  · intro h
    by_cases hr : s.params.role = .master
    · cases hi : s.initialized
      · exact .inl (.inr rfl)
      · exact .inr (h hr hi)
    · exact .inl (.inl hr)

/-! ### The invariant in each phase -/

/-- What the invariant says of a master inside its window, apart from where the machine stands. -/
structure State.Kept (s : State) : Prop where
  role       : s.params.role = .master
  init       : s.initialized = true
  sound      : s.ring.sound s.params = true
  canonical  : Memory.wf s.ring.mem = true
  frame      : s.seq.txFrame.length ≤ s.params.txCapacity
  payload    : s.slave.replyPayload.length ≤ 8
  oneHot     : s.seq.status.oneHot = true
  turnaround : s.slave.turnaround = false

/-- An operation is under way whose access can be made; that of a scan is its probe. -/
structure State.Armed (s : State) : Prop extends s.Kept where
  caller : s.seq.caller ≠ .none
  fits   : accessFits s.params s.seq.latch = true
  probe  : ∀ c, s.seq.caller = .scan c → s.seq.latch = probeParams s.params s.seq.scanAddr

/-- The machine is Idle and no operation is under way. -/
structure State.Quiet (s : State) : Prop extends s.Kept where
  fsm      : s.seq.fsm = .idle
  receiver : s.seq.rxEnabled = false
  caller   : s.seq.caller = .none

/-- A scan is between two probes, with a frame that can be built if it has room for any node. -/
structure State.Scanning (capacity : Nat) (s : State) : Prop extends s.Kept where
  fsm      : s.seq.fsm = .idle
  receiver : s.seq.rxEnabled = false
  fits     : capacity = 0 ∨ frameFits s.params (probeParams s.params 0) = true

def invPhases : Phases where
  sends := State.Armed
  looks s := s.Armed ∧ s.seq.rxEnabled = true
  waits s := s.Armed ∧ s.seq.rxEnabled = true ∧ s.seq.fsm = .awaitingReply
  ends s := s.Armed ∧ s.seq.rxEnabled = false
  scans := State.Scanning
  finished := State.Quiet

theorem frameFits_of_accessFits {p : Params} {a : AccessParams} (h : accessFits p a = true) : frameFits p a = true := by
  simp only [accessFits, Bool.and_eq_true] at h
  exact h.1

/-- An attempt that was sent holds its frame, and its ring is the resynchronised one. -/
theorem State.Armed.sent (h : s.Armed) (e : Env) (ev : List Event) : (s.sent e ev).Armed :=
  { h with
    sound := Ring.resync_sound h.sound
    frame := (accessFits_iff.mp h.fits).1
    oneHot := rfl }

/-- Nothing the invariant speaks of depends on the address of a probe but its node. -/
theorem State.Scanning.armed {c : Nat} (h : s.Scanning c) (hroom : s.seq.found < c)
    (haddr : s.seq.scanAddr ≤ s.params.lastValidAddress) :
    (s.started (.scan c) (probeParams s.params s.seq.scanAddr) 1).Armed :=
  { h with
    caller := nofun
    fits := Bool.and_eq_true_iff.mpr ⟨h.fits.resolve_left (by omega), decide_eq_true haddr⟩
    probe := fun _ _ => rfl }

theorem State.Armed.scanning {c : Nat} (h : s.Armed) (hrx : s.seq.rxEnabled = false) (hc : s.seq.caller = .scan c) :
    (s.goto .idle).scanRecord.Scanning c := by
  have hframe : frameFits s.params (probeParams s.params 0) = true := by
    have hfits := frameFits_of_accessFits h.fits
    rwa [h.probe c hc] at hfits
  obtain ⟨l, n, heq, -⟩ := (s.goto .idle).scanRecord_cases
  rw [heq]
  exact { h with fsm := rfl, receiver := hrx, fits := .inr hframe }

theorem invPhases_stable : invPhases.Stable where
  closed :=
    { abandons := fun e ev _ h => { h.sent e ev with fsm := rfl, receiver := rfl, caller := rfl }
      succeeds := fun e ev _ h _ => ⟨{ h.sent e ev with }, rfl⟩
      opens := fun e ev _ h _ => ⟨{ h.sent e ev with }, rfl, rfl⟩
      examines := fun _ _ _ _ _ h => ⟨{ h.1 with }, h.2⟩
      discards := fun h => ⟨{ h.1 with sound := Ring.discard_sound h.1.sound }, h.2⟩
      remains := fun h hf _ => ⟨h.1, h.2, hf⟩
      aborts := fun _ _ _ h hst => { h.1 with oneHot := hst, fsm := rfl, receiver := rfl, caller := rfl }
      settles := fun _ _ _ _ h hst => ⟨{ h.1 with oneHot := hst }, rfl⟩
      retries := fun _ _ _ h hst _ => { h.1 with oneHot := hst }
      returns := fun h _ => { h.1 with fsm := rfl, receiver := h.2, caller := rfl }
      records := fun h hc => h.1.scanning h.2 hc
      finishes := fun h => { h with caller := rfl }
      probes := fun h hroom haddr => h.armed hroom haddr }
  delayed {s d r} h hf hh := by
    obtain ⟨harmed, hrx, -⟩ := h.resolve_right fun hq => by have := hq.fsm; simp [this] at hf
    rcases hh with rfl | hr
    · exact ⟨{ harmed with }, hrx⟩
    · have hsound := Ring.pushAll_keeps (P := fun r => r.sound s.params = true) (fun _ _ _ => Ring.push_sound) hr harmed.sound
      have hwf := Ring.pushAll_keeps (P := fun r => Memory.wf r.mem = true) (fun _ _ _ => Ring.push_wf) hr harmed.canonical
      exact ⟨{ harmed with sound := hsound, canonical := hwf }, hrx⟩
  env e h := h.imp (fun h => ⟨{ h.1 with }, h.2⟩) fun h => { h with }

theorem inv_of_rest (h : invPhases.rest t) : t.inv = true := by
  rcases h with ⟨h, hrx, hf⟩ | h
  · exact State.inv_iff.mpr ⟨fun _ _ => h.sound, h.canonical, h.frame, h.payload,
      Sequencer.resting_iff.mpr (.inr ⟨hf, hrx, h.caller, h.role, h.init, h.fits, h.probe⟩), h.oneHot, h.turnaround⟩
  · exact State.inv_iff.mpr ⟨fun _ _ => h.sound, h.canonical, h.frame, h.payload,
      Sequencer.resting_iff.mpr (.inl ⟨h.fsm, h.receiver, h.caller⟩), h.oneHot, h.turnaround⟩

/-- The invariant in a master inside its window. -/
theorem State.kept_of_inv (h : s.inv = true) (hrole : s.params.role = .master) (hinit : s.initialized = true) : s.Kept := by
  obtain ⟨hsound, hwf, hframe, hpayload, -, hone, hturn⟩ := State.inv_iff.mp h
  exact ⟨hrole, hinit, hsound hrole hinit, hwf, hframe, hpayload, hone, hturn⟩

/-- In a master that waits the invariant is that of the wait. -/
theorem rest_of_inv (h : s.inv = true) (hf : s.seq.fsm = .awaitingReply) : invPhases.rest s := by
  obtain ⟨-, -, -, -, hrest, -, -⟩ := State.inv_iff.mp h
  rcases Sequencer.resting_iff.mp hrest with ⟨hidle, -, -⟩ | ⟨-, hrx, hc, hrole, hinit, hfits, hprobe⟩
  · rw [hidle] at hf; cases hf
  · exact .inl ⟨{ State.kept_of_inv h hrole hinit with caller := hc, fits := hfits, probe := hprobe }, hrx, hf⟩

/-- A machine that does not wait is Idle, its receiver disabled and no operation under way. -/
theorem idle_of_inv (h : s.inv = true) (hw : s.seq.fsm ≠ .awaitingReply ∨ s.params.role = .slave ∨ s.initialized = false) :
    s.seq.fsm = .idle ∧ s.seq.rxEnabled = false ∧ s.seq.caller = .none := by
  obtain ⟨-, -, -, -, hrest, -, -⟩ := State.inv_iff.mp h
  refine (Sequencer.resting_iff.mp hrest).resolve_right ?_
  rintro ⟨hf, -, -, hrole, hinit, -⟩
  rcases hw with hw | hw | hw
  · exact hw hf
  · rw [hrole] at hw; cases hw
  · rw [hinit] at hw; cases hw

/-! ### Every operation -/

theorem Ring.flushAll_sound {p : Params} {r : Ring} (h : r.sound p = true) : r.flushAll.sound p = true := by
  obtain ⟨hl, hw, hr, -⟩ := Ring.sound_iff.mp h
  obtain ⟨-, -, -, hslots⟩ := Ring.sound_iff.mp (Ring.resync_sound h)
  exact Ring.sound_iff.mpr ⟨by simpa [Ring.flushAll] using hl, hw, hr, hslots⟩

/-- R55: the ring INIT leaves is within its bounds. -/
theorem Ring.sound_of_init {p : Params} (m : Memory) (h : p.inDomain = true) :
    Ring.sound p ⟨List.replicate p.depth Slot.empty, m, 0, 0⟩ = true := by
  simp only [Params.inDomain, Bool.and_eq_true, decide_eq_true_eq] at h
  refine Ring.sound_iff.mpr ⟨by simp, by simp only; omega, by simp only; omega, fun sl hm => ?_⟩
  rw [List.eq_of_mem_replicate hm]
  exact ⟨by simp only [Slot.empty]; omega, rfl⟩

/-- A change of the ring that keeps its bounds and its canonical bytes keeps the invariant. -/
theorem inv_of_ring {r : Ring} (ret : Ret) (h : s.inv = true) (hs : s.ring.sound s.params = true → r.sound s.params = true)
    (hw : Memory.wf s.ring.mem = true → Memory.wf r.mem = true) : ({ s with ring := r, ret := ret } : State).inv = true := by
  obtain ⟨hsound, hwf, hrest⟩ := State.inv_iff.mp h
  exact State.inv_iff.mpr ⟨fun hr hi => hs (hsound hr hi), hw hwf, hrest⟩

/-- What a slave's handlers leave meets the invariant. -/
theorem inv_of_handled (h : s.inv = true) (hrole : s.params.role = .slave) (ht : s.Handled t) : t.inv = true := by
  obtain ⟨hidle, hrx, hc⟩ := idle_of_inv h (.inr (.inl hrole))
  obtain ⟨-, hwf, hframe, hpayload, -, hone, hturn⟩ := State.inv_iff.mp h
  refine State.inv_iff.mpr ⟨fun hr => ?_, ht.ring ▸ hwf, by rw [ht.seq, ht.params]; exact hframe,
    ht.payload.elim (fun e => e ▸ hpayload) id, Sequencer.resting_iff.mpr (.inl ?_), ht.seq ▸ hone,
    ht.turnaround.elim (fun e => e.trans hturn) id⟩
  · rw [ht.params, hrole] at hr; cases hr
  · rw [ht.seq]; exact ⟨hidle, hrx, hc⟩

/-- Every operation keeps the invariant. -/
theorem exec_inv (h : exec i s = .next t) (h0 : s.inv = true) : t.inv = true := by
  have hparts := State.inv_iff.mp h0
  obtain ⟨hsound, hwf, hframe, hpayload, hrest, hone, hturn⟩ := hparts
  cases exec_effect h with
  | passes | answers | opensNothing => exact h0
  | builds f _ hf => exact State.inv_iff.mpr ⟨hsound, hwf, hf, hpayload, hrest, hone, hturn⟩
  | receives bytes r _ _ hr =>
    exact inv_of_ring s.ret h0
      (Ring.pushAll_keeps (P := fun r => r.sound s.params = true) (fun _ _ _ => Ring.push_sound) hr)
      (Ring.pushAll_keeps (P := fun r => Memory.wf r.mem = true) (fun _ _ _ => Ring.push_wf) hr)
  | flushes n => exact inv_of_ring (s := s) .done h0 (Ring.flush_sound n) id
  | flushesAll => exact inv_of_ring (s := s) .done h0 Ring.flushAll_sound id
  | runs a n t hs hfits hi hscan ht =>
    have hstart : (s.started (callerOf i) a n).Armed :=
      { State.kept_of_inv h0 hs.1 hs.2.1 with
        caller := callerOf_ne_none hi
        fits := hfits
        probe := fun c hc => by
          obtain ⟨l, hl⟩ := callerOf_scan hc
          exact (hscan l c hl).elim }
    exact inv_of_rest (invPhases_stable.run hstart ht)
  | scans capacity t hs _ hfits ht =>
    have hidle := idle_of_inv h0 (.inl (by simp [hs.2.2]))
    have hstart : s.scanOpened.Scanning capacity :=
      { State.kept_of_inv h0 hs.1 hs.2.1 with fsm := hidle.1, receiver := hidle.2.1, fits := hfits }
    exact inv_of_rest (invPhases_stable.scan hstart ht)
  | hears d t _ _ _ hf ht => exact inv_of_rest (invPhases_stable.poll (rest_of_inv h0 hf) hf ht)
  | handles t hrole ht => exact inv_of_handled h0 hrole ht
  | opensMaster lp c _ _ _ hp =>
    exact State.inv_iff.mpr ⟨fun _ _ => Ring.sound_of_init _ hp, hwf, Nat.zero_le _, hpayload,
      Sequencer.resting_iff.mpr (.inl ⟨rfl, rfl, rfl⟩), hone, hturn⟩
  | opensSlave _ _ _ _ hrole =>
    exact State.inv_iff.mpr ⟨fun hr _ => (nomatch hrole.symm.trans hr), hwf, hframe, Nat.zero_le _,
      Sequencer.resting_iff.mpr (.inl (idle_of_inv (s := s) h0 (.inr (.inl hrole)))), hone, rfl⟩
  | closesMaster b e ev r _ hs =>
    have hidle := idle_of_inv h0 (.inl (by simp [hs.2.2]))
    exact State.inv_iff.mpr ⟨fun _ _ => hsound hs.1 hs.2.1, hwf, hframe, hpayload,
      Sequencer.resting_iff.mpr (.inl ⟨hidle.1, rfl, hidle.2.2⟩), hone, hturn⟩
  | closesSlave ev _ hrole =>
    exact State.inv_iff.mpr ⟨fun _ => nofun, hwf, hframe, hpayload,
      Sequencer.resting_iff.mpr (.inl (idle_of_inv (s := s) h0 (.inr (.inl hrole)))), hone, hturn⟩

/-- Settles O58: a step rests, ends the Delay of a waiting master, or runs an operation. -/
theorem stepKeepsTheInvariant : Obligations.StepKeepsTheInvariant := by
  intro s t h0 h
  rcases step_cases h with ⟨-, -, rfl⟩ | ⟨hf, h⟩ | ⟨_, rest, h, -, -⟩ | ⟨_, rest, _, h, -, -⟩
  · exact h0
  · exact inv_of_rest (invPhases_stable.endDelay (rest_of_inv h0 hf) hf h)
  · exact exec_inv (s := s.withInputs rest) h h0
  · exact exec_inv (s := s.withInputs rest) h h0

/-! ### The frame of the operations that run an access -/

/-- The host's list and the scan registers are those of `s`, and no scan is under way. -/
def State.NoScan (s t : State) : Prop :=
  (∀ c, t.seq.caller ≠ .scan c) ∧ t.host.found = s.host.found ∧ t.host.list = s.host.list ∧
    t.seq.scanAddr = s.seq.scanAddr ∧ t.seq.found = s.seq.found

def noScanPhases (s : State) : Phases := { Phases.const s.NoScan with scans := fun _ _ => False }

theorem noScanPhases_stable (s : State) : (noScanPhases s).Stable where
  closed :=
    { abandons := fun _ _ _ h => ⟨nofun, h.2⟩
      succeeds := fun _ _ _ h _ => h
      opens := fun _ _ _ h _ => h
      examines := fun _ _ _ _ _ h => h
      discards := fun h => h
      remains := fun h _ _ => h
      aborts := fun _ _ _ h _ => ⟨nofun, h.2⟩
      settles := fun _ _ _ _ h _ => h
      retries := fun _ _ _ h _ _ => h
      returns := fun h hr => ⟨nofun, hr.found.trans h.2.1, hr.list.trans h.2.2.1, h.2.2.2⟩
      records := fun h hc => h.1 _ hc
      finishes := fun h => h.elim
      probes := fun h _ _ => h.elim }
  delayed h _ _ := h.elim id id
  env _ h := h

/-- The ring is sound, and outside the slots its bytes are those of `m`. -/
def Ring.SameOutsideSlots (p : Params) (m : Memory) (r : Ring) : Prop :=
  r.sound p = true ∧ ∀ a, p.depth * p.slotCapacity ≤ a → Memory.read r.mem a = Memory.read m a

/-- A byte of a sound ring's slot lies below `DEPTH * SLOT_CAPACITY`. -/
theorem slotByte_lt {p : Params} {i j : Nat} (hi : i < p.depth) (hj : j < p.slotCapacity) :
    slotByte p i j < p.depth * p.slotCapacity := by
  have h := Nat.mul_le_mul_right p.slotCapacity (Nat.succ_le_of_lt hi)
  rw [Nat.succ_mul] at h
  simp only [slotByte]
  omega

theorem Ring.push_sameOutsideSlots {p : Params} {m : Memory} {r r' : Ring} {b : Byte} (h : r.push p b = some r')
    (hr : r.SameOutsideSlots p m) : r'.SameOutsideSlots p m := by
  refine ⟨Ring.push_sound h hr.1, fun a ha => ?_⟩
  obtain ⟨-, hw, -, -⟩ := Ring.sound_iff.mp hr.1
  have hlt := slotByte_lt hw (Ring.target_bounds hr.1).1
  rw [← hr.2 a ha]
  obtain ⟨-, -, rfl⟩ | ⟨-, -, rfl⟩ := Ring.push_cases h
  · exact Memory.read_write_other _ _ (by omega)
  · exact Memory.read_write_other _ _ (by omega)

theorem sameOutsideSlots_stable (p : Params) (m : Memory) :
    (Phases.const (State.RingIs p (Ring.SameOutsideSlots p m))).Stable :=
  ringIs_stable (fun _ h => ⟨Ring.resync_sound h.1, h.2⟩) (fun _ h => ⟨Ring.discard_sound h.1, h.2⟩)
    fun _ _ _ h hr => Ring.push_sameOutsideSlots h hr

/-- R150: the bytes and the write cursor are the producer's, so an access that hears nothing leaves them alone. -/
theorem silent_carryOn {p : Params} {m : Memory} {w : Nat} (hds : ∀ d ∈ s.env.deliveries, d = [])
    (h0 : s.RingIs p fun r => r.mem = m ∧ r.writeCursor = w) (h : s.carryOn = .next t) :
    t.RingIs p fun r => r.mem = m ∧ r.writeCursor = w := by
  refine ((ringIs_closed (p := p) (Q := fun r => r.mem = m ∧ r.writeCursor = w) (fun _ h => h) fun _ h => h).runDelays
    (fun u d r hu _ hd hh => ?_) (fun _ _ h => h) hds h (.inl h0)).elim id id
  obtain ⟨hp, hq⟩ : u.RingIs p fun r => r.mem = m ∧ r.writeCursor = w := hu.elim id id
  subst hd
  rcases hh with rfl | hr
  · exact ⟨hp, hq⟩
  · cases hr; exact ⟨hp, hq⟩

/-- Between two Delays no delivery is taken. -/
theorem deliveries_closed (ds : List (List Byte)) : (Phases.const fun s => s.env.deliveries = ds).Closed where
  abandons _ _ he h := he.trans h
  succeeds _ _ he h _ := he.trans h
  opens _ _ he h _ := he.trans h
  examines _ _ _ _ _ h := h
  discards h := h
  remains h _ _ := h
  aborts _ _ he h _ := he.trans h
  settles _ _ _ he h _ := he.trans h
  retries _ _ he h _ _ := he.trans h
  returns h _ := h
  records {s _} h _ := by
    obtain ⟨l, n, heq, -⟩ := (s.goto .idle).scanRecord_cases
    exact heq ▸ h
  finishes h := h
  probes h _ _ := h

theorem started_deliveries (s : State) (c : Caller) (a : AccessParams) (n : Nat) :
    ((s.started c a n).sending.settle).env.deliveries = s.env.deliveries :=
  ((deliveries_closed s.env.deliveries).sending_settle (s := s.started c a n) rfl).elim id id

theorem startScan_deliveries (s : State) (capacity : Nat) : (s.startScan capacity).env.deliveries = s.env.deliveries :=
  ((deliveries_closed s.env.deliveries).scanNext (s := s.scanOpened) (c := capacity) rfl).elim id id

/-- A claim about the ring that survives the flush before a send, the discard, and the Delays of a run that hears what `s` has
settled, survives every operation that runs an access. -/
theorem exec_ringIs {Q : Ring → Prop} (hi : runsAccess i = true) (h : exec i s = .next t) (h0 : Q s.ring)
    (hresync : ∀ r, Q r → Q r.resync) (hdiscard : ∀ r, Q r → Q (r.discard s.params))
    (hrun : ∀ u : State, u.env.deliveries = s.env.deliveries → u.RingIs s.params Q → u.carryOn = .next t →
      t.RingIs s.params Q) : Q t.ring := by
  have hclosed := ringIs_closed hresync hdiscard
  rcases runsAccess_cases hi h with rfl | ⟨a, n, -, -, ht⟩ | ⟨-, capacity, -, -, ht⟩
  · exact h0
  · have hstart : (s.started (callerOf i) a n).RingIs s.params Q := ⟨rfl, h0⟩
    exact (hrun _ (started_deliveries s _ a n) ((hclosed.sending_settle hstart).elim id id) ht).2
  · have hstart : s.scanOpened.RingIs s.params Q := ⟨rfl, h0⟩
    exact (hrun _ (startScan_deliveries s capacity) ((hclosed.scanNext (c := capacity) hstart).elim id id) ht).2

/-- The environment's own part of the frame. -/
theorem runsAccess_outside (hi : runsAccess i = true) (h : exec i s = .next t) : s.SameOutside t := by
  rcases runsAccess_cases hi h with rfl | ⟨a, n, -, -, ht⟩ | ⟨-, capacity, -, -, ht⟩
  · exact { State.SameOutside.refl s with }
  · exact State.run_outside ht
  · exact State.scan_outside ht

/-- Only SCAN writes the list, the found count and the scan registers. -/
theorem runsAccess_noScan (hi : runsAccess i = true) (hscan : ∀ l c, i ≠ .scan l c) (h : exec i s = .next t) :
    t.host.found = s.host.found ∧ t.host.list = s.host.list ∧
      t.seq.scanAddr = s.seq.scanAddr ∧ t.seq.found = s.seq.found := by
  rcases runsAccess_cases hi h with rfl | ⟨a, n, -, -, ht⟩ | ⟨l, c, rfl, -, -⟩
  · exact ⟨rfl, rfl, rfl, rfl⟩
  · have hcaller (c : Nat) : callerOf i ≠ .scan c := fun hc => by
      obtain ⟨l, hl⟩ := callerOf_scan hc
      exact hscan l c hl
    have hstart : s.NoScan (s.started (callerOf i) a n) := ⟨hcaller, rfl, rfl, rfl, rfl⟩
    exact (((noScanPhases_stable s).run hstart ht).elim id id).2
  · exact absurd rfl (hscan l c)

/-- Settles O38, element by element. -/
theorem accessOperationsFrame : Obligations.AccessOperationsFrame := by
  intro i s t hi h
  obtain ⟨hp, hc, hinit, hslave, hinputs, hwrite, hread⟩ := runsAccess_outside hi h
  refine ⟨hp, hc, hinit, hslave, hinputs, hwrite, hread, fun hscan => runsAccess_noScan hi hscan h,
    fun hsound => ?_, fun hsilent => ?_⟩
  · have hstable := sameOutsideSlots_stable s.params s.ring.mem
    exact (exec_ringIs (Q := Ring.SameOutsideSlots s.params s.ring.mem) hi h ⟨hsound, fun _ _ => rfl⟩
      (fun _ h => ⟨Ring.resync_sound h.1, h.2⟩) (fun _ h => ⟨Ring.discard_sound h.1, h.2⟩)
      fun u _ hu hrun => (hstable.carryOn (.inl hu) hrun).elim id id).2
  · exact exec_ringIs (Q := fun r => r.mem = s.ring.mem ∧ r.writeCursor = s.ring.writeCursor) hi h ⟨rfl, rfl⟩
      (fun _ h => h) (fun _ h => h) fun u hds hu hrun => silent_carryOn (by rw [hds]; exact hsilent) hu hrun

end Sys2Proof.Machine
end

section
/-! PROOFS. Every run of the access machine ends (spec/42_master_access.md R207, spec/44_node_scan.md R249): what is left to wait is a
number of poll iterations, and each Delay takes one of it. -/

namespace Sys2Proof.Machine

variable {s t : State} {i : Instr}

/-- The attempts that may still follow the present one: of the access, or, in a scan, at the addresses above. -/
def State.attemptsLeft (s : State) : Nat :=
  match s.seq.caller with
  | .scan _ => s.params.lastValidAddress - s.seq.scanAddr
  | _ => if s.lastAttempt then 0 else s.cfg.maxAttempts - s.seq.attempt

theorem State.attemptsLeft_scan {c : Nat} (h : s.seq.caller = .scan c) :
    s.attemptsLeft = s.params.lastValidAddress - s.seq.scanAddr := by
  simp only [State.attemptsLeft, h]

theorem State.attemptsLeft_not_scan (h : ∀ c, s.seq.caller ≠ .scan c) :
    s.attemptsLeft = if s.lastAttempt then 0 else s.cfg.maxAttempts - s.seq.attempt := by
  unfold State.attemptsLeft
  split
  · next c hc => exact absurd hc (h c)
  · rfl

/-- R199: an attempt that is not the last belongs to no scan, and its number is below MAX_ATTEMPTS. -/
theorem State.not_lastAttempt (h : s.lastAttempt = false) :
    (∀ c, s.seq.caller ≠ .scan c) ∧ s.seq.attempt < s.cfg.maxAttempts := by
  unfold State.lastAttempt at h
  split at h
  · cases h
  · cases h
  · next hc => simp_all
  all_goals next hc => simp_all

/-- A retry uses up one attempt. -/
theorem State.attemptsLeft_retry (h : s.lastAttempt = false) :
    ({ s with seq := { s.seq with attempt := s.seq.attempt + 1 } } : State).attemptsLeft + 1 ≤ s.attemptsLeft := by
  obtain ⟨hscan, hlt⟩ := State.not_lastAttempt h
  rw [State.attemptsLeft_not_scan (s := { s with seq := { s.seq with attempt := s.seq.attempt + 1 } }) hscan,
    State.attemptsLeft_not_scan hscan, h]
  simp only [Bool.false_eq_true, if_false]
  split <;> omega

/-- The poll iterations a whole attempt may take (R195). -/
def State.pollsMax (s : State) : Nat := pollsUntil s.params s.cfg.sequenceCeiling

/-- The poll iterations the present attempt may still take. -/
def State.pollsLeft (s : State) : Nat := s.pollsMax - s.seq.seqTimer / s.params.pollInterval

/-- The work that is left takes at most `n` poll iterations, and a poll iteration takes time. -/
def State.Within (n : Nat) (s : State) (work : Nat) : Prop := 1 ≤ s.params.pollInterval ∧ work ≤ n

/-- Each phase with at most `n` poll iterations left. -/
def budgetPhases (n : Nat) : Phases where
  sends s := s.Within n (s.pollsMax * (s.attemptsLeft + 1))
  looks s := s.Within n (s.pollsLeft + s.pollsMax * s.attemptsLeft)
  waits s := s.Within n (s.pollsLeft + s.pollsMax * s.attemptsLeft) ∧ s.seq.fsm = .awaitingReply ∧
    s.seq.seqTimer ≤ s.cfg.sequenceCeiling
  ends s := s.Within n (s.pollsMax * s.attemptsLeft)
  scans _ s := s.Within n (s.pollsMax * (s.params.lastValidAddress + 1 - s.seq.scanAddr)) ∧ s.seq.fsm = .idle
  finished s := s.seq.fsm = .idle

theorem timeoutStatus_none {c : Cfg} {q : Sequencer} (h : timeoutStatus c q = none) :
    q.seqTimer ≤ c.sequenceCeiling ∧ q.replyTimer ≤ q.latch.timeout := by
  unfold timeoutStatus at h
  split at h
  · cases h
  · split at h
    · cases h
    · omega

/-- An attempt that was just sent has all its poll iterations left. -/
theorem State.within_started {n : Nat} (h : s.Within n (s.pollsMax * (s.attemptsLeft + 1))) :
    s.Within n (s.pollsMax - 0 / s.params.pollInterval + s.pollsMax * s.attemptsLeft) := by
  refine ⟨h.1, ?_⟩
  have hwork := h.2
  rw [Nat.mul_succ] at hwork
  rw [Nat.zero_div]
  omega

theorem State.Within.le {n a b : Nat} (h : s.Within n a) (hle : b ≤ a) : s.Within n b := ⟨h.1, hle.trans h.2⟩

theorem budgetPhases_closed (n : Nat) : (budgetPhases n).Closed where
  abandons _ _ _ _ := rfl
  succeeds {s} e ev _ h _ := State.Within.le (s := s) h (Nat.mul_le_mul_left _ (Nat.le_succ _))
  opens {s} e ev _ h _ := ⟨State.within_started (s := s) h, rfl, Nat.zero_le _⟩
  examines _ _ _ _ _ h := h
  discards h := h
  remains h hf hst := ⟨h, hf, (timeoutStatus_none hst).1⟩
  aborts _ _ _ _ _ := rfl
  settles {s _} _ _ _ _ h _ := State.Within.le (s := s) h (Nat.le_add_left _ _)
  retries {s _} _ _ _ h _ hlast := State.Within.le (s := s) h
    ((Nat.mul_le_mul_left _ (State.attemptsLeft_retry (s := s) hlast)).trans (Nat.le_add_left _ _))
  returns _ _ := rfl
  records {s c} h hc := by
    obtain ⟨l, m, heq, -⟩ := (s.goto .idle).scanRecord_cases
    have hwork : s.Within n (s.pollsMax * s.attemptsLeft) := h
    rw [State.attemptsLeft_scan hc, ← Nat.add_sub_add_right _ 1 _] at hwork
    rw [heq]
    exact ⟨hwork, rfl⟩
  finishes h := h.2
  probes {s c} h _ haddr := by
    have hleft : (s.started (.scan c) (probeParams s.params s.seq.scanAddr) 1).attemptsLeft =
      s.params.lastValidAddress - s.seq.scanAddr := State.attemptsLeft_scan rfl
    have hwork := h.1
    rw [Nat.succ_sub haddr, ← hleft] at hwork
    exact hwork

/-- A Delay takes one poll iteration. -/
theorem budget_delayed {n : Nat} (h : (budgetPhases n).waits s) (r : Ring) :
    1 ≤ n ∧ (budgetPhases (n - 1)).looks (s.delayed r) := by
  obtain ⟨⟨hp, hwork⟩, -, htimer⟩ := h
  have hdiv : (s.seq.seqTimer + s.params.pollInterval) / s.params.pollInterval = s.seq.seqTimer / s.params.pollInterval + 1 :=
    Nat.add_div_right _ hp
  have hle : s.seq.seqTimer / s.params.pollInterval < s.pollsMax := Nat.lt_succ_of_le (Nat.div_le_div_right htimer)
  have hleft : (s.delayed r).pollsLeft = s.pollsMax - (s.seq.seqTimer / s.params.pollInterval + 1) :=
    congrArg (s.pollsMax - ·) hdiv
  have hlooks : s.Within (n - 1) ((s.delayed r).pollsLeft + s.pollsMax * s.attemptsLeft) := by
    refine ⟨hp, ?_⟩
    rw [hleft]
    simp only [State.pollsLeft] at hwork
    omega
  refine ⟨?_, hlooks⟩
  simp only [State.pollsLeft] at hwork
  omega

/-- What a run comes to whose Delays are settled for long enough. -/
def EndsWithin (a : Answer) (deliveries n : Nat) : Prop :=
  a = .fault .slotOverflow ∨ ∃ t, a = .next t ∧ t.seq.fsm = .idle ∧ deliveries ≤ t.env.deliveries.length + n

/-- A run with `n` poll iterations left and as many deliveries ends. -/
theorem runDelays_endsWithin {n : Nat} {ds : List (List Byte)} (h : (budgetPhases n).rest s) (hds : n ≤ ds.length) :
    EndsWithin (s.runDelays ds) ds.length n := by
  induction ds generalizing s n with
  | nil =>
    refine .inr ⟨_, rfl, ?_, Nat.zero_le _⟩
    rcases h with h | h
    · have hone := (budget_delayed h s.ring).1
      exact absurd (hone.trans hds) (by simp)
    · exact h
  | cons d ds ih =>
    rw [List.length_cons] at hds
    rcases h with h | h
    · obtain ⟨-, hf, -⟩ := id h
      rcases s.poll_cases d with hp | ⟨r, -, hp⟩
      · exact .inl (by simp only [State.runDelays, if_pos hf, hp])
      · obtain ⟨hn, hlook⟩ := budget_delayed h r
        rw [State.runDelays_wait hf hp, List.length_cons]
        refine (ih ((budgetPhases_closed _).look hlook hf) (by omega)).imp_right ?_
        rintro ⟨t, ht, hidle, hlen⟩
        exact ⟨t, ht, hidle, by omega⟩
    · have hf : s.seq.fsm ≠ .awaitingReply := fun hw => by rw [show s.seq.fsm = .idle from h] at hw; cases hw
      rw [State.runDelays_idle _ hf]
      exact .inr ⟨_, rfl, h, Nat.le_add_right _ _⟩

theorem carryOn_endsWithin {n m : Nat} (h : (budgetPhases n).rest s) (hm : s.env.deliveries.length = m) (hn : n ≤ m) :
    EndsWithin s.carryOn m n := by
  subst hm
  exact runDelays_endsWithin h hn

/-- A caller error takes no poll iteration. -/
theorem endsWithin_callerError (hs : MasterIdle s) (n : Nat) :
    EndsWithin (.next s.callerError) s.env.deliveries.length n :=
  .inr ⟨_, rfl, hs.2.2, Nat.le_add_right _ _⟩

/-- An operation that runs one access ends when its attempts do. -/
theorem exec_access_endsWithin {n : Nat} (hs : MasterIdle s) (hp : 1 ≤ s.params.pollInterval) (hi : runsAccess i = true)
    (hscan : ∀ l c, i ≠ .scan l c) (hn : n ≤ s.env.deliveries.length)
    (hwork : ∀ a m, (m = 1 ∨ ∃ b, i = .attempt b) → s.pollsMax * ((s.started (callerOf i) a m).attemptsLeft + 1) ≤ n) :
    EndsWithin (exec i s) s.env.deliveries.length n := by
  rcases exec_access hs hi hscan with heq | ⟨a, m, -, hm, heq⟩ <;> rw [heq]
  · exact endsWithin_callerError hs n
  · have hsends : (budgetPhases n).sends (s.started (callerOf i) a m) := ⟨hp, hwork a m hm⟩
    exact carryOn_endsWithin ((budgetPhases_closed n).sending_settle hsends)
      (congrArg List.length (started_deliveries s _ a m)) hn

/-! ### The number of attempts -/

/-- No more than MAX_ATTEMPTS attempts were made. -/
def State.AttemptsBounded (s : State) : Prop := 1 ≤ s.cfg.maxAttempts ∧ s.seq.attempt ≤ s.cfg.maxAttempts

theorem attemptsBounded_stable : (Phases.const State.AttemptsBounded).Stable where
  closed :=
    { abandons := fun _ _ _ h => h
      succeeds := fun _ _ _ h _ => h
      opens := fun _ _ _ h _ => h
      examines := fun _ _ _ _ _ h => h
      discards := fun h => h
      remains := fun h _ _ => h
      aborts := fun _ _ _ h _ => h
      settles := fun _ _ _ _ h _ => h
      retries := fun _ _ _ h _ hlast => ⟨h.1, (State.not_lastAttempt hlast).2⟩
      returns := fun h _ => h
      records := fun {s _} h _ => by
        obtain ⟨l, n, heq, -⟩ := (s.goto .idle).scanRecord_cases
        exact heq ▸ h
      finishes := fun h => h
      probes := fun h _ _ => ⟨h.1, h.1⟩ }
  delayed h _ _ := h.elim id id
  env _ h := h

/-- R207: ACCESS and the host operations on a node make at most MAX_ATTEMPTS attempts. -/
theorem exec_attempt_le (hs : MasterIdle s) (hi : runsAccess i = true) (hattempt : ∀ a, i ≠ .attempt a)
    (hscan : ∀ l c, i ≠ .scan l c) (hmax : 1 ≤ s.cfg.maxAttempts) (h : exec i s = .next t)
    (hret : t.ret ≠ .call .callerError) : t.seq.attempt ≤ s.cfg.maxAttempts := by
  rcases exec_access hs hi hscan with heq | ⟨a, n, -, hn, heq⟩ <;> rw [heq] at h
  · cases h; exact absurd rfl hret
  · obtain rfl := hn.resolve_right fun ⟨b, hb⟩ => hattempt b hb
    have hstart : (s.started (callerOf i) a 1).AttemptsBounded := ⟨hmax, hmax⟩
    obtain ⟨-, hle⟩ : t.AttemptsBounded := (attemptsBounded_stable.run hstart h).elim id id
    rwa [(State.run_outside h).cfg] at hle

/-- Settles O32: an attempt has no attempt left after it, an access MAX_ATTEMPTS less one, a scan one for each address. -/
theorem everyAccessTerminates : Obligations.EveryAccessTerminates := by
  rintro s k hs hp rfl
  refine ⟨fun a hn => ?_, fun i hi hattempt hscan hmax hn => ?_, fun listOut capacity hn => ?_⟩
  · refine exec_access_endsWithin hs hp rfl (fun _ _ => nofun) hn fun b m _ => ?_
    have hleft : (s.started (callerOf (.attempt a)) b m).attemptsLeft = 0 :=
      State.attemptsLeft_not_scan fun _ => nofun
    rw [hleft, Nat.mul_one]
    exact le_refl _
  · have hends : EndsWithin (exec i s) s.env.deliveries.length (s.cfg.maxAttempts * s.pollsMax) := by
      refine exec_access_endsWithin hs hp hi hscan hn fun a m hm => ?_
      obtain rfl := hm.resolve_right fun ⟨b, hb⟩ => hattempt b hb
      have hcaller (c : Nat) : (s.started (callerOf i) a 1).seq.caller ≠ .scan c := fun hc => by
        obtain ⟨l, hl⟩ := callerOf_scan hc
        exact hscan l c hl
      have hleft : (s.started (callerOf i) a 1).attemptsLeft + 1 ≤ s.cfg.maxAttempts := by
        have hrest : (s.started (callerOf i) a 1).cfg.maxAttempts - (s.started (callerOf i) a 1).seq.attempt =
          s.cfg.maxAttempts - 1 := rfl
        rw [State.attemptsLeft_not_scan hcaller, hrest]
        split <;> omega
      rw [Nat.mul_comm]
      exact Nat.mul_le_mul_right _ hleft
    refine hends.imp_right ?_
    rintro ⟨t, ht, hidle, hlen⟩
    exact ⟨t, ht, hidle, exec_attempt_le hs hi hattempt hscan hmax ht, hlen⟩
  · rcases exec_scan hs listOut capacity with heq | ⟨-, heq⟩ <;> rw [heq]
    · exact endsWithin_callerError hs _
    · have hscans : (budgetPhases ((s.params.lastValidAddress + 1) * s.pollsMax)).scans capacity s.scanOpened := by
        refine ⟨⟨hp, ?_⟩, hs.2.2⟩
        rw [Nat.mul_comm (s.params.lastValidAddress + 1)]
        exact le_refl _
      exact carryOn_endsWithin ((budgetPhases_closed _).scanNext hscans)
        (congrArg List.length (startScan_deliveries s capacity)) hn

end Sys2Proof.Machine
end

section
/-! PROOFS. One attempt in closed form (spec/42_master_access.md §2): how it starts, what a whole line in one Delay does, what
silence does, and how it ends, when the transport's results are settled. -/

namespace Sys2Proof.Machine

/-! ### What the classifier makes of a line (R190, R191, R193) -/

section Classify

variable {p : Params} {text : List Byte}

theorem classify_okToken (p : Params) : classify p .ok p.okToken = .acceptOk :=
  if_pos (compareText_exact_self p.tokenizer p.okToken)

theorem classify_number {v : Word} (h : decodeText p.tokenizer text = some v) : classify p .value text = .acceptValue v := by
  have hline : decodeLineValue p text = some v := by
    rw [decodeLineValue, decodeField_endOfLine (field := text) rfl, h]
    rfl
  simp only [classify, hline]

theorem classify_not_number (h : decodeText p.tokenizer text = none) : classify p .value text = classifyError p text := by
  have hline : decodeLineValue p text = none := by
    rw [decodeLineValue, decodeField_endOfLine (field := text) rfl, h]
    rfl
  simp only [classify, hline]

theorem classifyError_errorLine (p : Params) (tail : List Byte) :
    classifyError p (p.errorToken ++ tail) = .errorReport :=
  if_pos (compareText_header_append p.tokenizer p.errorToken tail)

/-- An error line is no OK line when the success line does not open with the error token. -/
theorem errorLine_ne_okToken (h : p.errorToken.isPrefixOf p.okToken = false) (tail : List Byte) :
    p.errorToken ++ tail ≠ p.okToken := fun e => by
  have hopens : p.errorToken.isPrefixOf p.okToken = true := List.isPrefixOf_iff_prefix.mpr ⟨tail, e⟩
  rw [hopens] at h
  cases h

theorem classify_ok_of_ne (hp : p.tokenizer = .reference) (h : text ≠ p.okToken) :
    classify p .ok text = classifyError p text := by
  have hne : compareText p.tokenizer text .exact p.okToken = false := by
    rw [hp]
    simp [compareText, sameText_reference, h]
  simp only [classify, hne, Bool.false_eq_true, if_false]

theorem classify_errorLine_ok (hp : p.tokenizer = .reference) (h : p.errorToken.isPrefixOf p.okToken = false)
    (tail : List Byte) : classify p .ok (p.errorToken ++ tail) = .errorReport := by
  rw [classify_ok_of_ne hp (errorLine_ne_okToken h tail), classifyError_errorLine]

/-- Whatever tokenizer decodes: an error line is no number when the error token is none. -/
theorem classify_errorLine_value (h : p.literalsDistinct = true) (tail : List Byte) :
    classify p .value (p.errorToken ++ tail) = .errorReport := by
  obtain ⟨-, -, ⟨-, hnumber⟩, -⟩ := literalsDistinct_iff.mp h
  rw [classify_not_number (decodeText_append_of_no_number tail hnumber), classifyError_errorLine]

theorem classify_isNoise {e : Expectation} (hp : p.tokenizer = .reference) (he : e ≠ .none) (h : IsNoise p e text) :
    classify p e text = .noise := by
  obtain ⟨herr, hok, hvalue⟩ := h
  have hnoise : classifyError p text = .noise := by
    rw [classifyError, hp, compareText_reference_header, herr]
    rfl
  cases e with
  | ok => rw [classify_ok_of_ne hp (hok rfl), hnoise]
  | value => rw [classify_not_number (hvalue rfl), hnoise]
  | none => exact absurd rfl he

/-- A number holds no NUL. -/
theorem plainLine_of_number {v : Word} (h : decodeText p.tokenizer text = some v) (hend : p.endMarker ∉ text) :
    PlainLine p text := by
  refine ⟨hend, fun hnul => ?_⟩
  rw [decodeText_of_not_digit hnul (by decide)] at h
  cases h

theorem plainLine_minhex (h : isHexDigit p.endMarker = false) (v : Word) : PlainLine p (minhex v 4) := by
  refine plainLine_of_number (decodeText_minhex p.tokenizer v) fun hm => ?_
  have hnone := decodeText_of_not_digit (t := p.tokenizer) hm h
  rw [decodeText_minhex] at hnone
  cases hnone

end Classify

/-! ### The ring during an attempt -/

section OpenRing

variable {p : Params} {r r' : Ring} {text bytes : List Byte}

/-- A ring in which an attempt can start (R183). -/
structure Ring.Ready (p : Params) (r : Ring) : Prop where
  depth     : 2 ≤ p.depth
  length    : r.slots.length = p.depth
  writes    : r.writeCursor < p.depth
  canonical : Memory.wf r.mem = true

/-- A ring that can take a line: nothing is pending, and the slot at the write cursor is to begin. -/
structure Ring.Open (p : Params) (r : Ring) : Prop extends r.Ready p where
  reads  : r.readCursor = r.writeCursor
  target : r.target = Slot.empty

theorem Ring.ready_of_sound (hd : 2 ≤ p.depth) (hs : r.sound p = true) (hm : Memory.wf r.mem = true) : r.Ready p := by
  obtain ⟨hl, hw, -, -⟩ := Ring.sound_iff.mp hs
  exact ⟨hd, hl, hw, hm⟩

theorem Ring.open_of_empty_slot (hd : 2 ≤ p.depth) (hs : r.sound p = true) (hm : Memory.wf r.mem = true)
    (hr : r.readCursor = r.writeCursor) (hsl : r.slots[r.writeCursor]? = some ⟨0, false, 0⟩) : r.Open p :=
  { Ring.ready_of_sound hd hs hm with reads := hr, target := Ring.target_of_incomplete hsl rfl }

theorem Ring.target_of_blank {n : Nat} (h : r.slots = List.replicate n Slot.empty) : r.target = Slot.empty := by
  have hslot : r.slot r.writeCursor = Slot.empty := by
    rw [Ring.slot, h]
    simp [List.getD, List.getElem?_replicate]
    split <;> rfl
  simp [Ring.target, hslot, Slot.empty]

theorem Ring.resync_target (r : Ring) : r.resync.target = Slot.empty := Ring.target_of_blank Ring.resync_slots

theorem Ring.Ready.resync (h : r.Ready p) : r.resync.Ready p :=
  { h with length := by simpa [Ring.resync_slots] using h.length }

theorem Ring.Ready.open_resync (h : r.Ready p) : r.resync.Open p :=
  { h.resync with reads := rfl, target := r.resync_target }

theorem Ring.Ready.withLine (h : r.Ready p) (text : List Byte) : (r.withLine p text).Ready p :=
  { depth := h.depth
    length := Ring.withLine_length.trans h.length
    writes := Nat.mod_lt _ (by have := h.depth; omega)
    canonical := Ring.withLine_wf h.canonical }

theorem Ring.Open.pushAll_line (h : r.Open p) (hplain : PlainLine p text) (hfit : text.length + 1 ≤ p.slotCapacity) :
    r.pushAll p (text ++ [p.endMarker]) = some (r.withLine p text) :=
  Ring.pushAll_line (by rw [h.length]; exact h.writes) h.target hplain.1 hfit

/-- The line is pending, since there are two slots at least. -/
theorem Ring.Open.withLine_hasPending (h : r.Open p) (text : List Byte) : (r.withLine p text).hasPending = true := by
  have hne : (r.writeCursor + 1) % p.depth ≠ r.writeCursor := by
    have hw := h.writes
    have hd := h.depth
    rw [mod_of_lt_double (by omega)]
    split <;> omega
  simp [Ring.hasPending, Ring.withLine, h.reads, hne]

theorem Ring.Open.withLine_slot (h : r.Open p) (text : List Byte) :
    (r.withLine p text).slot (r.withLine p text).readCursor = ⟨text.length, true, 0⟩ := by
  rw [Ring.withLine_slot _ (by rw [h.length]; exact h.writes)]
  exact if_pos h.reads.symm

theorem Ring.Open.withLine_line (h : r.Open p) (hplain : PlainLine p text) (hfit : text.length + 1 ≤ p.slotCapacity) :
    (r.withLine p text).line p (r.withLine p text).readCursor = text := by
  rw [show (r.withLine p text).readCursor = r.writeCursor from h.reads]
  exact Ring.withLine_line h.canonical hplain.2 hfit

/-- Bytes outside the line are left alone. -/
theorem Ring.withLine_read (r : Ring) (p : Params) (text : List Byte) (a : Nat)
    (h : a < r.writeCursor * p.slotCapacity ∨ r.writeCursor * p.slotCapacity + text.length < a) :
    Memory.read (r.withLine p text).mem a = Memory.read r.mem a :=
  Memory.read_writeText_other h

/-- R150: bytes that complete no line leave both cursors. -/
theorem Ring.pushAll_cursors (hend : p.endMarker ∉ bytes) (h : r.pushAll p bytes = some r') :
    r'.writeCursor = r.writeCursor ∧ r'.readCursor = r.readCursor := by
  induction bytes generalizing r with
  | nil => cases h; exact ⟨rfl, rfl⟩
  | cons b bytes ih =>
    simp only [Ring.pushAll] at h
    split at h
    · next q hq =>
      obtain ⟨hb, -, rfl⟩ | ⟨-, -, rfl⟩ := Ring.push_cases hq
      · exact absurd (hb ▸ List.mem_cons_self) hend
      · have hrest := ih (fun hm => hend (List.mem_cons_of_mem _ hm)) h
        exact hrest
    · cases h

theorem Ring.pushAll_silence (p : Params) (r : Ring) (k : Nat) : r.pushAll p (List.replicate k []).flatten = some r := by
  simp

/-- The slot at the write cursor is one byte longer, or there is no such slot. -/
theorem Ring.target_of_extended (r : Ring) (m : Memory) (c : Nat) :
    (Ring.target ⟨r.slots.set r.writeCursor { r.target with len := r.target.len + 1 }, m, r.writeCursor, c⟩).len ≤
      r.target.len + 1 := by
  rcases Nat.lt_or_ge r.writeCursor r.slots.length with hlt | hge
  · have hopen : r.target.complete = false := by
      unfold Ring.target
      split
      · rfl
      · next h => simpa using h
    have hsl : (r.slots.set r.writeCursor { r.target with len := r.target.len + 1 })[r.writeCursor]? =
      some { r.target with len := r.target.len + 1 } := List.getElem?_set_self hlt
    rw [Ring.target_of_incomplete (r := ⟨_, m, r.writeCursor, c⟩) hsl hopen]
  · rw [List.set_eq_of_length_le hge]
    exact Nat.le_succ _

/-- R141: the beginning of a line that fits its slot is pushed. -/
theorem Ring.pushAll_fits (hend : p.endMarker ∉ bytes) (hfit : r.target.len + bytes.length + 1 ≤ p.slotCapacity) :
    ∃ r', r.pushAll p bytes = some r' := by
  induction bytes generalizing r with
  | nil => exact ⟨r, rfl⟩
  | cons b bytes ih =>
    rw [List.length_cons] at hfit
    have hb : b ≠ p.endMarker := fun e => hend (by simp [e])
    have hpush := Ring.push_ordinary (r := r) hb (by omega)
    have hlen := Ring.target_of_extended r (Memory.write r.mem (slotByte p r.writeCursor r.target.len) b) r.readCursor
    simp only [Ring.pushAll, hpush]
    exact ih (fun hm => hend (List.mem_cons_of_mem _ hm))
      ((Nat.add_le_add_right (Nat.add_le_add_right hlen bytes.length) 1).trans (by omega))

end OpenRing

variable {s t u : State} {rest : List Bool} {text : List Byte}

/-! ### The start of an attempt (R182 to R186) -/

/-- The attempt that was sent, its three results `ok` and `rest` to come, in its wait. -/
def State.opened (s : State) (rest : List Bool) : State :=
  { s with
    ring := s.ring.resync
    seq := { s.seq with
      fsm := .awaitingReply, status := Status.zero, replyTimer := 0, seqTimer := 0, linesSeen := 0, rxEnabled := true
      rxValue := Config.freeRxValue s.env.freeCount, txFrame := frameOf s.params s.seq.latch }
    env := { s.env with txResults := rest, txDest := s.seq.latch.node, freeCount := s.env.freeCount + 1 }
    events := .fsm .awaitingReply :: .tx .enableReceive true :: .tx (.sendFrame (frameOf s.params s.seq.latch)) true ::
      .tx (.setDestination s.seq.latch.node) true :: .fsm .sending :: s.events }

theorem State.sending_opened (hx : s.seq.latch.expectation ≠ .none) (h : s.env.txResults = true :: true :: true :: rest) :
    s.sending = s.opened rest := by
  have hsend := State.sendFrame_settled (s := (s.goto .sending).clearAttempt) h
  simp only [State.sending, hsend, if_true]
  exact State.afterSend_settled hx rfl

theorem State.settle_of_ne_success (h : s.seq.fsm ≠ .success) : s.settle = s := if_neg h

theorem State.settle_opened (s : State) (rest : List Bool) : (s.opened rest).settle = s.opened rest :=
  State.settle_of_ne_success nofun

/-! ### A line in one Delay (R188 to R193) -/

/-- The wait in which a whole line has come, about to be classified (R189). -/
def State.heard (s : State) (text : List Byte) : State :=
  { s with
    ring := s.ring.withLine s.params text
    seq := { s.seq with
      fsm := .classifying, linesSeen := s.seq.linesSeen + 1, replyTimer := 0
      seqTimer := s.seq.seqTimer + s.params.pollInterval }
    events := .fsm .classifying :: .delay s.params.pollInterval :: s.events }

/-- What follows a verdict (R190 to R193). -/
def State.judged (s : State) : Verdict → State
  | .acceptOk => s.exitAttempt Status.zero
  | .acceptValue v => { s with seq := { s.seq with rxValue := v } }.exitAttempt Status.zero
  | .errorReport => s.exitAttempt Status.remoteReported
  | .noise => s.discardLine.checkTimeouts

/-- The status and `rx_value` an attempt ends with by a verdict, from `w` in `rx_value`; none when it goes on. -/
def Verdict.outcome (w : Word) : Verdict → Option (Status × Word)
  | .acceptOk => some (Status.zero, w)
  | .acceptValue v => some (Status.zero, v)
  | .errorReport => some (Status.remoteReported, w)
  | .noise => none

/-- The attempt that ended with a status, its receiver disabled, and `rest` to come of the transport's results (R197). -/
def State.closed (s : State) (v : Word) (st : Status) (rest : List Bool) : State :=
  { s with
    seq := { s.seq with rxValue := v, status := st, rxEnabled := false }
    env := { s.env with txResults := rest }
    events := .tx .disableReceive true :: s.events }

theorem State.exitAttempt_closed (st : Status) (h : s.env.txResults = true :: rest) :
    s.exitAttempt st = (s.closed s.seq.rxValue st rest).attemptOver :=
  State.exitAttempt_settled st h

/-- A verdict with an outcome ends the attempt. -/
theorem State.judged_exit {w : Verdict} {v : Word} {st : Status} (hw : w.outcome s.seq.rxValue = some (st, v)) :
    s.judged w = { s with seq := { s.seq with rxValue := v } }.exitAttempt st := by
  cases w <;> cases hw <;> rfl

theorem State.poll_pushed {bytes : List Byte} {r : Ring} (hrx : s.seq.rxEnabled = true)
    (h : s.ring.pushAll s.params bytes = some r) : s.poll bytes = .next (s.delayed r).look := by
  have hdeliver : (s.emit (.delay s.params.pollInterval)).deliver bytes =
      .next { s.emit (.delay s.params.pollInterval) with ring := r } := by
    simp only [State.deliver, State.emit, hrx, if_true, h]
  simp only [State.poll, hdeliver]
  rfl

/-- The look at the ring that holds a whole line. -/
theorem State.look_heard (hopen : s.ring.Open s.params) (hplain : PlainLine s.params text)
    (hfit : text.length + 1 ≤ s.params.slotCapacity) :
    (s.delayed (s.ring.withLine s.params text)).look =
      (s.heard text).judged (classify s.params s.seq.latch.expectation text) := by
  have hpending : (s.delayed (s.ring.withLine s.params text)).ring.hasPending = true := hopen.withLine_hasPending text
  have hslot := congrArg Slot.complete (hopen.withLine_slot text)
  have hcomplete : ((s.delayed (s.ring.withLine s.params text)).ring.slot
      (s.delayed (s.ring.withLine s.params text)).ring.readCursor).complete = true := hslot
  have hline : (s.delayed (s.ring.withLine s.params text)).ring.line (s.delayed (s.ring.withLine s.params text)).params
      (s.delayed (s.ring.withLine s.params text)).ring.readCursor = text := hopen.withLine_line hplain hfit
  rw [State.look, if_pos hpending, State.classifySlot, if_pos hcomplete, hline]
  change (match classify s.params s.seq.latch.expectation text with
    | .acceptOk => _ | .acceptValue v => _ | .errorReport => _ | .noise => _) = _
  cases classify s.params s.seq.latch.expectation text <;> rfl

/-- A Delay that delivers one whole line. -/
theorem State.poll_line (hrx : s.seq.rxEnabled = true) (hopen : s.ring.Open s.params) (hplain : PlainLine s.params text)
    (hfit : text.length + 1 ≤ s.params.slotCapacity) : s.poll (text ++ [s.params.endMarker]) =
      .next ((s.heard text).judged (classify s.params s.seq.latch.expectation text)) := by
  rw [State.poll_pushed hrx (hopen.pushAll_line hplain hfit), State.look_heard hopen hplain hfit]

/-- A Delay that delivers the line that ends the attempt. -/
theorem State.poll_line_exit {v : Word} {st : Status} (hrx : s.seq.rxEnabled = true) (hopen : s.ring.Open s.params)
    (hplain : PlainLine s.params text) (hfit : text.length + 1 ≤ s.params.slotCapacity)
    (hv : (classify s.params s.seq.latch.expectation text).outcome s.seq.rxValue = some (st, v)) :
    s.poll (text ++ [s.params.endMarker]) =
      .next ({ s.heard text with seq := { (s.heard text).seq with rxValue := v } }.exitAttempt st) := by
  rw [State.poll_line hrx hopen hplain hfit, State.judged_exit (s := s.heard text) hv]

theorem State.poll_line_closed {v : Word} {st : Status} (hrx : s.seq.rxEnabled = true) (hopen : s.ring.Open s.params)
    (hplain : PlainLine s.params text) (hfit : text.length + 1 ≤ s.params.slotCapacity)
    (hv : (classify s.params s.seq.latch.expectation text).outcome s.seq.rxValue = some (st, v))
    (htx : s.env.txResults = true :: rest) :
    s.poll (text ++ [s.params.endMarker]) = .next (((s.heard text).closed v st rest).attemptOver) := by
  rw [State.poll_line_exit hrx hopen hplain hfit hv,
    State.exitAttempt_closed (s := { s.heard text with seq := { (s.heard text).seq with rxValue := v } }) st htx]
  rfl

/-! ### Silence (R194 to R196) -/

/-- The wait after `k` Delays without a complete line, which left the ring `r`. -/
def State.waited (s : State) (k : Nat) (r : Ring) : State :=
  { s with
    ring := r
    seq := { s.seq with
      replyTimer := s.seq.replyTimer + k * s.params.pollInterval, seqTimer := s.seq.seqTimer + k * s.params.pollInterval }
    events := List.replicate k (.delay s.params.pollInterval) ++ s.events }

theorem State.waited_zero (s : State) : s.waited 0 s.ring = s := by
  simp [State.waited]

theorem State.waited_succ (s : State) (k : Nat) (q r : Ring) : (s.waited 1 q).waited k r = s.waited (k + 1) r := by
  simp [State.waited, Nat.succ_mul, Nat.add_assoc, Nat.add_comm s.params.pollInterval, List.replicate_succ']

/-- A Delay without a complete line ends with the timeout checks. -/
theorem State.poll_quiet {bytes : List Byte} {r : Ring} (hrx : s.seq.rxEnabled = true)
    (hread : s.ring.readCursor = s.ring.writeCursor) (hend : s.params.endMarker ∉ bytes)
    (h : s.ring.pushAll s.params bytes = some r) : s.poll bytes = .next (s.waited 1 r).checkTimeouts := by
  obtain ⟨hw, hr⟩ := Ring.pushAll_cursors hend h
  have hpending : r.hasPending = false := by simp [Ring.hasPending, hw, hr, hread]
  have hsame : s.delayed r = s.waited 1 r := by simp [State.delayed, State.waited, State.emit, State.advanceTimers]
  rw [State.poll_pushed hrx h, hsame, State.look, if_neg (by simp [State.waited, hpending])]

/-- As long as no limit is exceeded the wait goes on. -/
theorem State.runDelays_quiet {cs ds : List (List Byte)} {r : Ring} (hf : s.seq.fsm = .awaitingReply)
    (hrx : s.seq.rxEnabled = true) (hread : s.ring.readCursor = s.ring.writeCursor) (hend : s.params.endMarker ∉ cs.flatten)
    (hpush : s.ring.pushAll s.params cs.flatten = some r)
    (hnone : ∀ j, 1 ≤ j → j ≤ cs.length → timeoutStatus s.cfg (s.waited j r).seq = none) :
    s.runDelays (cs ++ ds) = (s.waited cs.length r).runDelays ds := by
  induction cs generalizing s with
  | nil => cases hpush; rw [List.length_nil, State.waited_zero]; rfl
  | cons c cs ih =>
    rw [List.flatten_cons] at hend hpush
    rw [Ring.pushAll_append] at hpush
    obtain ⟨q, hq, hpush⟩ := Option.bind_eq_some_iff.mp hpush
    have hc : s.params.endMarker ∉ c := fun hm => hend (List.mem_append_left _ hm)
    obtain ⟨hw, hr⟩ := Ring.pushAll_cursors hc hq
    have hstays : (s.waited 1 q).checkTimeouts = s.waited 1 q := by
      have hfirst : timeoutStatus s.cfg (s.waited 1 q).seq = none := hnone 1 (le_refl _) (by simp)
      unfold State.checkTimeouts
      split
      · next h => rw [show timeoutStatus s.cfg (s.waited 1 q).seq = some _ from h] at hfirst; cases hfirst
      · rfl
    rw [List.cons_append, State.runDelays_wait hf ((State.poll_quiet hrx hread hc hq).trans (congrArg _ hstays)),
      ih (s := s.waited 1 q) hf hrx (hr.trans (hread.trans hw.symm)) (fun hm => hend (List.mem_append_right _ hm)) hpush,
      State.waited_succ, List.length_cons]
    intro j hj hle
    rw [State.waited_succ]
    exact hnone (j + 1) (by omega) (by simpa using hle)

/-- The first Delay that exceeds a limit ends the attempt. -/
theorem State.runDelays_timeout {cs ds : List (List Byte)} {r : Ring} {st : Status} (hf : s.seq.fsm = .awaitingReply)
    (hrx : s.seq.rxEnabled = true) (hread : s.ring.readCursor = s.ring.writeCursor) (hend : s.params.endMarker ∉ cs.flatten)
    (hpush : s.ring.pushAll s.params cs.flatten = some r) (hpos : 1 ≤ cs.length)
    (hnone : ∀ j, 1 ≤ j → j < cs.length → timeoutStatus s.cfg (s.waited j r).seq = none)
    (hst : timeoutStatus s.cfg (s.waited cs.length r).seq = some st) :
    s.runDelays (cs ++ ds) = ((s.waited cs.length r).exitAttempt st).runDelays ds := by
  induction cs using List.reverseRecOn with
  | nil => cases hpos
  | append_singleton cs c _ =>
    rw [List.flatten_append, List.flatten_singleton] at hend hpush
    rw [Ring.pushAll_append] at hpush
    obtain ⟨q, hq, hpush⟩ := Option.bind_eq_some_iff.mp hpush
    have hcs : s.params.endMarker ∉ cs.flatten := fun hm => hend (List.mem_append_left _ hm)
    obtain ⟨hw, hr⟩ := Ring.pushAll_cursors hcs hq
    rw [List.length_append, List.length_singleton] at hnone hst ⊢
    rw [List.append_assoc, State.runDelays_quiet hf hrx hread hcs hq fun j hj hle => hnone j hj (by omega)]
    have hpoll := State.poll_quiet (s := s.waited cs.length q) hrx (hr.trans (hread.trans hw.symm))
      (fun hm => hend (List.mem_append_right _ hm)) hpush
    have hall : (s.waited cs.length q).waited 1 r = s.waited (cs.length + 1) r := by
      simp [State.waited, Nat.succ_mul, Nat.add_assoc, List.replicate_succ]
    have hexit : (s.waited (cs.length + 1) r).checkTimeouts = (s.waited (cs.length + 1) r).exitAttempt st := by
      unfold State.checkTimeouts
      split
      · next h => rw [show timeoutStatus s.cfg (s.waited (cs.length + 1) r).seq = some _ from h] at hst; cases hst; rfl
      · next h => rw [show timeoutStatus s.cfg (s.waited (cs.length + 1) r).seq = none from h] at hst; cases hst
    rw [hall, hexit] at hpoll
    exact State.runDelays_wait hf hpoll

/-- R310: a timer exceeds its limit after as many intervals as `pollsUntil` says. -/
theorem limit_lt_mul_iff {p : Params} (hp : 1 ≤ p.pollInterval) (limit j : Nat) :
    limit < j * p.pollInterval ↔ pollsUntil p limit ≤ j := by
  rw [pollsUntil, Nat.succ_le_iff, Nat.div_lt_iff_lt_mul hp]

/-- R208: the status of an attempt in which no line comes. -/
def silentStatus (p : Params) (c : Cfg) (timeout : Nat) : Status :=
  if pollsUntil p timeout < pollsUntil p c.sequenceCeiling then Status.replyTimedOut else Status.sequenceTimedOut

/-- The poll iterations of an attempt in which no line comes. -/
def silentPolls (p : Params) (c : Cfg) (timeout : Nat) : Nat := min (pollsUntil p timeout) (pollsUntil p c.sequenceCeiling)

theorem one_le_silentPolls (p : Params) (c : Cfg) (timeout : Nat) : 1 ≤ silentPolls p c timeout :=
  Nat.le_min.mpr ⟨Nat.le_add_left _ _, Nat.le_add_left _ _⟩

/-- R195, R196: which limit is exceeded, and when, in an attempt that hears nothing. -/
theorem timeoutStatus_opened (hp : 1 ≤ s.params.pollInterval) (r : Ring) (j : Nat) :
    (j < silentPolls s.params s.cfg s.seq.latch.timeout → timeoutStatus s.cfg ((s.opened rest).waited j r).seq = none) ∧
    timeoutStatus s.cfg ((s.opened rest).waited (silentPolls s.params s.cfg s.seq.latch.timeout) r).seq =
      some (silentStatus s.params s.cfg s.seq.latch.timeout) := by
  have hseq (j : Nat) : s.cfg.sequenceCeiling < 0 + j * s.params.pollInterval ↔
      pollsUntil s.params s.cfg.sequenceCeiling ≤ j := by rw [Nat.zero_add]; exact limit_lt_mul_iff hp _ _
  have hreply (j : Nat) : s.seq.latch.timeout < 0 + j * s.params.pollInterval ↔
      pollsUntil s.params s.seq.latch.timeout ≤ j := by rw [Nat.zero_add]; exact limit_lt_mul_iff hp _ _
  simp only [timeoutStatus, State.waited, State.opened, hseq, hreply, silentStatus, silentPolls, if_true]
  refine ⟨fun hj => ?_, ?_⟩
  · rw [if_neg (by omega), if_neg (by omega)]
  · by_cases h : pollsUntil s.params s.seq.latch.timeout < pollsUntil s.params s.cfg.sequenceCeiling
    · rw [if_neg (by omega), if_pos (by omega), if_pos h]
    · rw [if_pos (by omega), if_neg h]

/-! ### One attempt from its start to its end -/

/-- An attempt that a line in its first Delay ends. -/
theorem State.attempt_line {ds : List (List Byte)} {v : Word} {st : Status} (hx : s.seq.latch.expectation ≠ .none)
    (hready : s.ring.Ready s.params) (hplain : PlainLine s.params text) (hfit : text.length + 1 ≤ s.params.slotCapacity)
    (hv : (classify s.params s.seq.latch.expectation text).outcome (s.opened (true :: rest)).seq.rxValue = some (st, v))
    (htx : s.env.txResults = true :: true :: true :: true :: rest) :
    s.sending.settle.runDelays ((text ++ [s.params.endMarker]) :: ds) =
      (((s.opened (true :: rest)).heard text).closed v st rest).attemptOver.runDelays ds := by
  rw [State.sending_opened hx htx, State.settle_opened]
  exact State.runDelays_wait rfl
    (State.poll_line_closed (s := s.opened (true :: rest)) rfl hready.open_resync hplain hfit hv rfl)

/-- A wait in which no line completes, from its start to the exit (R208). -/
theorem State.opened_silent {cs ds : List (List Byte)} {r : Ring} (hp : 1 ≤ s.params.pollInterval)
    (hk : cs.length = silentPolls s.params s.cfg s.seq.latch.timeout) (hend : s.params.endMarker ∉ cs.flatten)
    (hpush : s.ring.resync.pushAll s.params cs.flatten = some r) :
    (s.opened rest).runDelays (cs ++ ds) = (((s.opened rest).waited cs.length r).exitAttempt
      (silentStatus s.params s.cfg s.seq.latch.timeout)).runDelays ds := by
  have htimeout := timeoutStatus_opened (rest := rest) hp r
  exact State.runDelays_timeout (s := s.opened rest) rfl rfl rfl hend hpush (hk ▸ one_le_silentPolls _ _ _)
    (fun j _ hj => (htimeout j).1 (hk ▸ hj)) (hk ▸ (htimeout 0).2)

/-- An attempt in which no line completes. -/
theorem State.attempt_silent {cs ds : List (List Byte)} {r : Ring} (hx : s.seq.latch.expectation ≠ .none)
    (hp : 1 ≤ s.params.pollInterval) (hk : cs.length = silentPolls s.params s.cfg s.seq.latch.timeout)
    (hend : s.params.endMarker ∉ cs.flatten) (hpush : s.ring.resync.pushAll s.params cs.flatten = some r)
    (htx : s.env.txResults = true :: true :: true :: true :: rest) :
    s.sending.settle.runDelays (cs ++ ds) =
      ((((s.opened (true :: rest)).waited cs.length r).closed (s.opened (true :: rest)).seq.rxValue
        (silentStatus s.params s.cfg s.seq.latch.timeout) rest).attemptOver).runDelays ds := by
  rw [State.sending_opened hx htx, State.settle_opened, State.opened_silent hp hk hend hpush,
    State.exitAttempt_closed (s := (s.opened (true :: rest)).waited cs.length r) _ rfl]
  rfl

/-! ### The end of an attempt (R198 to R200) -/

theorem State.attemptOver_zero (h : s.seq.status = Status.zero) : s.attemptOver = (s.goto .success).conclude :=
  if_pos (decide_eq_true h)

theorem State.attemptOver_last (h : s.seq.status ≠ Status.zero) (hl : s.lastAttempt = true) :
    s.attemptOver = (s.goto .exhausted).conclude := by
  rw [State.attemptOver, if_neg (by simpa [Status.isZero] using h), if_pos hl]

/-- The next attempt of an access (R199). -/
def State.retried (s : State) : State :=
  { s.goto .retry with seq := { (s.goto .retry).seq with attempt := s.seq.attempt + 1 } }

theorem State.attemptOver_retry (h : s.seq.status ≠ Status.zero) (hl : s.lastAttempt = false) :
    s.attemptOver = s.retried.sending.settle := by
  rw [State.attemptOver, if_neg (by simpa [Status.isZero] using h), if_neg (by simp [hl])]
  rfl

/-- A host operation returns (R202 to R204): the value place is written by a read that accepted a value. -/
theorem State.conclude_host (hc : s.seq.caller.isHostCall = true) :
    s.conclude = s.returned { s.host with
      status := s.seq.status
      value := if s.seq.caller = .readRegister ∧ s.seq.status = Status.zero ∧ s.seq.latch.expectation = .value
        then s.seq.rxValue else s.host.value } (.call .callSuccess) := by
  unfold State.conclude
  dsimp only
  split
  case h_4 h | h_6 h => simp [h, State.writeOutputs, State.returned, State.finish, State.goto]
  case h_5 h => simp [h, State.writeOutputs, State.returned, State.finish, State.goto, Status.isZero]
  all_goals (next hcaller => rw [hcaller] at hc; cases hc)

theorem State.conclude_attempt (hc : s.seq.caller = .attempt) :
    s.conclude = s.returned s.host (.attempt s.seq.status) := by
  simp only [State.conclude, hc]
  rfl

theorem State.conclude_access {one : Bool} (hc : s.seq.caller = .access one) :
    s.conclude = s.returned s.host (.access .callSuccess s.seq.status s.seq.rxValue) := by
  simp only [State.conclude, hc]
  rfl

theorem State.conclude_scan {c : Nat} (hc : s.seq.caller = .scan c) :
    s.conclude = (s.goto .idle).scanRecord.scanNext c := by
  simp only [State.conclude, hc]

/-- An operation that has returned leaves what was delivered for later. -/
theorem State.runDelays_returned (h : Places) (r : Ret) (ds : List (List Byte)) :
    (s.returned h r).runDelays ds = .next { s.returned h r with env := { s.env with deliveries := ds } } :=
  State.runDelays_idle _ nofun

/-! ### The operations from their start -/

/-- The run of an access hears what was settled when it started. -/
theorem State.carryOn_started (s : State) (c : Caller) (a : AccessParams) (n : Nat) :
    ((s.started c a n).sending.settle).carryOn = ((s.started c a n).sending.settle).runDelays s.env.deliveries := by
  rw [State.carryOn, started_deliveries]

theorem exec_attempt_of_fits {a : AccessParams} (hs : MasterIdle s) (hfits : accessFits s.params a = true) :
    exec (.attempt a) s = ((s.started .attempt a s.seq.attempt).sending.settle).runDelays s.env.deliveries := by
  have hexec : exec (.attempt a) s = s.runAccess a (s.started .attempt a s.seq.attempt).sending := State.asMaster_of_idle hs
  rw [hexec, State.runAccess, if_pos hfits, State.carryOn_started]

theorem State.hostAccess_of_fits {c : Caller} {a : AccessParams} (hfits : accessFits s.params a = true) :
    s.hostAccess c a = ((s.started c a 1).sending.settle).runDelays s.env.deliveries := by
  rw [State.hostAccess, State.runAccess, if_pos hfits, State.startAccess_eq, State.carryOn_started]

theorem exec_access_of_fits {a : AccessParams} {one : Bool} (hs : MasterIdle s) (hfits : accessFits s.params a = true) :
    exec (.access a one) s = ((s.started (.access one) a 1).sending.settle).runDelays s.env.deliveries := by
  have hexec : exec (.access a one) s = s.hostAccess (.access one) a := State.asMaster_of_idle hs
  rw [hexec, State.hostAccess_of_fits hfits]

end Sys2Proof.Machine
end

section
/-! PROOFS. What one attempt comes to (spec/42_master_access.md §2, §4): its start, silence, the line it waits for, an error
report, noise. -/

namespace Sys2Proof.Machine

variable {s : State} {rest : List Bool} {text : List Byte}

/-! ### The start, and silence -/

/-- Settles O26: the wait that `State.opened` spells out. -/
theorem sendingOpensTheWait : Obligations.SendingOpensTheWait := by
  intro s a rest hs hfits hx htx hds
  have hopened := State.sending_opened (s := s.started .attempt a s.seq.attempt) hx htx
  have hexec := exec_attempt_of_fits hs hfits
  rw [hopened, State.settle_opened, hds, State.runDelays_nil] at hexec
  exact ⟨_, hexec, rfl, rfl, rfl, rfl, rfl, rfl, rfl, rfl, Ring.resync_eq s.ring, rfl, rfl, rfl, rfl, rfl, rfl⟩

theorem silentStatus_ne_zero (p : Params) (c : Cfg) (timeout : Nat) : silentStatus p c timeout ≠ Status.zero := by
  unfold silentStatus
  split <;> decide

/-- Settles O31: the deliveries of the first `k` Delays complete no line, and the `k`-th exceeds a limit. -/
theorem silentPeerTimesOut : Obligations.SilentPeerTimesOut := by
  intro s a rest ds k hs hfits hx hp htx hk hds hle hend hlen
  obtain ⟨cs, tail, rfl, rfl⟩ : ∃ cs tail, ds = cs ++ tail ∧ cs.length = k :=
    ⟨ds.take k, ds.drop k, (List.take_append_drop k ds).symm, List.length_take_of_le hle⟩
  rw [List.flatten_append] at hend hlen
  have hquiet : s.params.endMarker ∉ cs.flatten := fun hm => hend (List.mem_append_left _ hm)
  have hfit : s.ring.resync.target.len + cs.flatten.length + 1 ≤ s.params.slotCapacity := by
    rw [List.length_append] at hlen
    rw [Ring.resync_target]
    simp only [Slot.empty]
    omega
  obtain ⟨r, hpush⟩ := Ring.pushAll_fits hquiet hfit
  have hattempt := State.attempt_silent (s := s.started .attempt a s.seq.attempt) (ds := tail) hx hp hk hquiet hpush htx
  have hexec := exec_attempt_of_fits hs hfits
  rw [hds, hattempt, State.attemptOver_last (silentStatus_ne_zero _ _ _) rfl,
    State.conclude_attempt rfl, State.runDelays_returned] at hexec
  exact ⟨_, hexec, rfl, rfl, rfl, rfl, Nat.zero_add _, rfl, List.drop_left.symm⟩

/-! ### The line that ends a wait -/

/-- A waiting master whose operation was invoked by the host takes the line in its Delay (R82). -/
theorem exec_line_waiting {i : Instr} (ht : lineText s.params i = some text) (hr : s.params.role = .master)
    (hi : s.initialized = true) (hf : s.seq.fsm = .awaitingReply) (hrx : s.seq.rxEnabled = true) :
    exec i s = s.poll (text ++ [s.params.endMarker]) := by
  rw [exec_line ht, State.onLine_master hr, State.lineArrives, if_neg (by simp [hi, hrx]), if_pos hf]

/-- The line that ends the wait of a host operation: with status all-zero, or in its last attempt. -/
theorem exec_line_ends_host {i : Instr} {v : Word} {st : Status} (ht : lineText s.params i = some text)
    (hr : s.params.role = .master) (hi : s.initialized = true) (hf : s.seq.fsm = .awaitingReply)
    (hrx : s.seq.rxEnabled = true) (hc : s.seq.caller.isHostCall = true) (hopen : s.ring.Open s.params)
    (hplain : PlainLine s.params text) (hfit : text.length + 1 ≤ s.params.slotCapacity)
    (hv : (classify s.params s.seq.latch.expectation text).outcome s.seq.rxValue = some (st, v))
    (htx : s.env.txResults = true :: rest) (hlast : st = Status.zero ∨ s.lastAttempt = true) :
    ∃ f, exec i s = .next ((((s.heard text).closed v st rest).goto f).returned { s.host with
      status := st
      value := if s.seq.caller = .readRegister ∧ st = Status.zero ∧ s.seq.latch.expectation = .value
        then v else s.host.value } (.call .callSuccess)) := by
  have hconclude (f : Fsm) := State.conclude_host (s := ((s.heard text).closed v st rest).goto f) hc
  have hexec := (exec_line_waiting ht hr hi hf hrx).trans (State.poll_line_closed hrx hopen hplain hfit hv htx)
  by_cases hz : st = Status.zero
  · refine ⟨.success, ?_⟩
    rw [hexec, State.attemptOver_zero (s := (s.heard text).closed v st rest) hz, hconclude]
    rfl
  · refine ⟨.exhausted, ?_⟩
    rw [hexec, State.attemptOver_last (s := (s.heard text).closed v st rest) hz (hlast.resolve_left hz), hconclude]
    rfl

/-- Settles O40: the line is the success line, whose verdict ends the attempt with status all-zero. -/
theorem okLineIsAccepted : Obligations.OkLineIsAccepted := by
  intro s rest hr hi hf hrx hc hx hs hm hd hcur hsl hplain hfit htx
  have hopen := Ring.open_of_empty_slot hd hs hm hcur hsl
  have hv : (classify s.params s.seq.latch.expectation s.params.okToken).outcome s.seq.rxValue =
    some (Status.zero, s.seq.rxValue) := by rw [hx, classify_okToken]; rfl
  obtain ⟨f, hexec⟩ := exec_line_ends_host (i := .ok) rfl hr hi hf hrx (by rw [hc]; rfl) hopen hplain hfit hv htx (.inl rfl)
  have hslot : (s.ring.withLine s.params s.params.okToken).slot s.ring.readCursor = ⟨s.params.okToken.length, true, 0⟩ :=
    hopen.withLine_slot s.params.okToken
  refine ⟨_, hexec, rfl, rfl, rfl, rfl, ?_, rfl, rfl, rfl, hslot, rfl, Ring.withLine_read _ _ _, rfl, rfl, hi, rfl, rfl⟩
  simp [State.returned, hc, Status.zero]

/-- Settles O41: the verdict on a line the tokenizer decodes is its value. -/
theorem valueLineIsAccepted : Obligations.ValueLineIsAccepted := by
  intro s rest text v hr hi hf hrx hc hx hs hm hd hcur hsl hdec hend hfit htx
  have hopen := Ring.open_of_empty_slot hd hs hm hcur hsl
  have hv : (classify s.params s.seq.latch.expectation text).outcome s.seq.rxValue = some (Status.zero, v) := by
    rw [hx, classify_number hdec]
    rfl
  obtain ⟨f, hexec⟩ := exec_line_ends_host (i := .value text) rfl hr hi hf hrx (by rw [hc]; rfl) hopen
    (plainLine_of_number hdec hend) hfit hv htx (.inl rfl)
  refine ⟨_, hexec, rfl, rfl, ?_, rfl, rfl, rfl, rfl, Ring.withLine_read _ _ _, rfl, rfl, hi, rfl, rfl⟩
  simp [State.returned, hc, hx, Status.zero]

/-- Settles O42: no value opens with the error token, and no attempt follows the last one. -/
theorem errorLineIsReported : Obligations.ErrorLineIsReported := by
  intro s rest tail hr hi hf hrx hc hx hmax hs hm hd hcur hsl hdistinct hplain hfit htx
  have hopen := Ring.open_of_empty_slot hd hs hm hcur hsl
  have hv : (classify s.params s.seq.latch.expectation (s.params.errorToken ++ tail)).outcome s.seq.rxValue =
      some (Status.remoteReported, s.seq.rxValue) := by
    rw [hx, classify_errorLine_value hdistinct]
    rfl
  have hlast : s.lastAttempt = true := by simp only [State.lastAttempt, hc, hmax, decide_true]
  obtain ⟨f, hexec⟩ := exec_line_ends_host (i := .error tail) rfl hr hi hf hrx (by rw [hc]; rfl) hopen hplain hfit hv htx
    (.inr hlast)
  refine ⟨_, hexec, rfl, ?_, rfl, rfl, rfl, rfl, rfl, Ring.withLine_read _ _ _, rfl, rfl, hi, rfl, rfl⟩
  simp [State.returned, Status.zero, Status.remoteReported]

/-! ### A host operation whose reply comes in the first Delay -/

/-- The operation returns success from its first attempt, whatever the accepted line was. -/
theorem State.hostAccess_accepted {c : Caller} {a : AccessParams} {v : Word} {ds : List (List Byte)}
    (hc : c.isHostCall = true) (hfits : accessFits s.params a = true) (hx : a.expectation ≠ .none)
    (hready : s.ring.Ready s.params) (hplain : PlainLine s.params text) (hfit : text.length + 1 ≤ s.params.slotCapacity)
    (hv : (classify s.params a.expectation text).outcome (Config.freeRxValue s.env.freeCount) = some (Status.zero, v))
    (htx : s.env.txResults = true :: true :: true :: true :: rest)
    (hds : s.env.deliveries = (text ++ [s.params.endMarker]) :: ds) :
    s.hostAccess c a = .next { ((((s.started c a 1).opened (true :: rest)).heard text).closed v Status.zero rest).goto
      .success |>.returned { s.host with
        status := Status.zero, value := if c = .readRegister ∧ a.expectation = .value then v else s.host.value }
        (.call .callSuccess) with
      env := { s.env with
        txResults := rest, txDest := a.node, freeCount := s.env.freeCount + 1, deliveries := ds } } := by
  have hattempt := State.attempt_line (s := s.started c a 1) (ds := ds) hx hready hplain hfit hv htx
  have hover := State.conclude_host
    (s := ((((s.started c a 1).opened (true :: rest)).heard text).closed v Status.zero rest).goto .success) hc
  rw [State.hostAccess_of_fits hfits, hds]
  change State.runDelays _ ((text ++ [(s.started c a 1).params.endMarker]) :: ds) = _
  rw [hattempt, State.attemptOver_zero rfl, hover, State.runDelays_returned]
  simp [State.goto, State.closed, State.heard, State.opened, State.started, State.returned]

/-- Settles O28: each of the three operations is a host access, and the success line is accepted. -/
theorem okReplyEndsTheAccess : Obligations.OkReplyEndsTheAccess := by
  intro s rest ds i node frame hs hsound hm hd hplain hfit htx hds hn hlen hi
  obtain ⟨c, a, hexec, hc, hfits, rfl, hx, rfl⟩ := exec_hostOperation hs hn hlen hi
  have hready := Ring.ready_of_sound hd hsound hm
  have hv : (classify s.params a.expectation s.params.okToken).outcome (Config.freeRxValue s.env.freeCount) =
    some (Status.zero, Config.freeRxValue s.env.freeCount) := by rw [hx, classify_okToken]; rfl
  have hline : (s.ring.resync.withLine s.params s.params.okToken).line s.params s.ring.writeCursor = s.params.okToken :=
    hready.open_resync.withLine_line hplain hfit
  refine ⟨_, hexec.trans (State.hostAccess_accepted hc hfits (by simp [hx]) hready hplain hfit hv htx hds), rfl, ?_, rfl, rfl,
    rfl, rfl, rfl, rfl, rfl, Nat.zero_add _, rfl, rfl, hline, rfl, Ring.withLine_read s.ring.resync _ _, rfl, rfl, hs.2.1, rfl⟩
  simp [State.returned, hx, Status.zero]

/-- Settles O29: each of the three operations is a host access, a number is accepted, and only the read keeps it. -/
theorem readDeliversTheValue : Obligations.ReadDeliversTheValue := by
  intro s rest ds i node frame v delivered hs hsound hm hd hcap hend htx hds hn hlen hi
  have hready := Ring.ready_of_sound hd hsound hm
  have hshort := (minhex_length_bounds v).2
  have haccess (c : Caller) (a : AccessParams) (hexec : exec i s = s.hostAccess c a) (hc : c.isHostCall = true)
      (hfits : accessFits s.params a = true) (hnode : a.node = node) (hx : a.expectation = .value)
      (hframe : frameOf s.params a = frame) (hdelivered : delivered = if c = .readRegister then v else s.host.value) :
      ∃ t, exec i s = .next t ∧ t.ret = .call .callSuccess ∧
        t.host = { s.host with status := ⟨false, false, false, false⟩, value := delivered } ∧ t.seq.rxValue = v ∧
        t.seq.fsm = .idle ∧ t.seq.rxEnabled = false ∧ t.seq.txFrame = frame ∧ t.env.txDest = node ∧
        t.env.deliveries = ds ∧
        (∀ a, a < s.ring.writeCursor * s.params.slotCapacity ∨
          s.ring.writeCursor * s.params.slotCapacity + (minhex v 4).length < a →
          Memory.read t.ring.mem a = Memory.read s.ring.mem a) ∧
        t.params = s.params ∧ t.cfg = s.cfg ∧ t.initialized = true ∧ t.slave = s.slave := by
    have hv : (classify s.params a.expectation (minhex v 4)).outcome (Config.freeRxValue s.env.freeCount) =
      some (Status.zero, v) := by rw [hx, classify_number (decodeText_minhex _ v)]; rfl
    refine ⟨_, hexec.trans (State.hostAccess_accepted hc hfits (by simp [hx]) hready (plainLine_minhex hend v) (by omega)
      hv htx hds), rfl, ?_, rfl, rfl, rfl, hframe, hnode, rfl, Ring.withLine_read s.ring.resync _ _, rfl, rfl, hs.2.1, rfl⟩
    simp [State.returned, hx, hdelivered, Status.zero]
  rcases hi with ⟨reg, timeout, rfl, rfl, rfl⟩ | ⟨reg, value, mask, timeout, rfl, rfl, rfl⟩ |
    ⟨text, timeout, rfl, htext, rfl, rfl⟩
  · exact haccess _ _ (exec_readRegister_of_valid hs hn reg .value timeout) rfl (accessFits_iff.mpr ⟨hlen, nofun, hn⟩)
      rfl rfl rfl rfl
  · exact haccess _ _ (exec_writeRegister_of_valid hs hn reg value mask .value timeout) rfl
      (accessFits_iff.mpr ⟨hlen, nofun, hn⟩) rfl rfl rfl rfl
  · exact haccess _ _ (exec_sendCommand_of_valid hs hn text .value timeout) rfl
      (accessFits_iff.mpr ⟨hlen, fun _ => htext, hn⟩) rfl rfl rfl rfl

end Sys2Proof.Machine
end

section
/-! PROOFS. Noise and failing transport calls (spec/42_master_access.md §2, §5). -/

namespace Sys2Proof.Machine

variable {s : State} {rest : List Bool} {text : List Byte}

/-! ### Noise (R193) -/

/-- The wait after a noise line: counted, its slot discarded, the reply-timer restarted. -/
def State.ignored (s : State) (text : List Byte) : State :=
  { s with
    ring := { s.ring with
      mem := Memory.writeText s.ring.mem (slotByte s.params s.ring.writeCursor 0) text
      writeCursor := (s.ring.writeCursor + 1) % s.params.depth
      readCursor := (s.ring.readCursor + 1) % s.params.depth }
    seq := { s.seq with
      linesSeen := s.seq.linesSeen + 1, replyTimer := 0, seqTimer := s.seq.seqTimer + s.params.pollInterval }
    events := .fsm .awaitingReply :: .fsm .classifying :: .delay s.params.pollInterval :: s.events }

/-- The discard of the only pending line leaves the slots as they were. -/
theorem Ring.discard_withLine {p : Params} {r : Ring} (hr : r.readCursor = r.writeCursor)
    (hsl : r.slots[r.writeCursor]? = some Slot.empty) (text : List Byte) : (r.withLine p text).discard p =
      { r with
        mem := Memory.writeText r.mem (slotByte p r.writeCursor 0) text
        writeCursor := (r.writeCursor + 1) % p.depth, readCursor := (r.readCursor + 1) % p.depth } := by
  have hset : (r.slots.set r.writeCursor ⟨text.length, true, 0⟩).set r.readCursor Slot.empty = r.slots := by
    obtain ⟨hlt, heq⟩ := List.getElem?_eq_some_iff.mp hsl
    rw [hr, List.set_set, ← heq, List.set_getElem_self]
  simp only [Ring.discard, Ring.flush, Ring.withLine, hset]

theorem timeoutStatus_eq_none {c : Cfg} {q : Sequencer} (hs : q.seqTimer ≤ c.sequenceCeiling)
    (hr : q.replyTimer ≤ q.latch.timeout) : timeoutStatus c q = none := by
  rw [timeoutStatus, if_neg (Nat.not_lt.mpr hs), if_neg (Nat.not_lt.mpr hr)]

/-- R196: the reply test after lines that were counted. -/
theorem timeoutStatus_after_lines {c : Cfg} {q : Sequencer} (hs : q.seqTimer ≤ c.sequenceCeiling)
    (hr : q.latch.timeout < q.replyTimer) (hl : q.linesSeen ≠ 0) : timeoutStatus c q = some Status.parserRejected := by
  rw [timeoutStatus, if_neg (Nat.not_lt.mpr hs), if_pos hr, if_neg hl]

theorem State.checkTimeouts_of_none (h : timeoutStatus s.cfg s.seq = none) : s.checkTimeouts = s := by
  unfold State.checkTimeouts
  split
  · next hst => rw [h] at hst; cases hst
  · rfl

/-- A Delay that delivers a noise line, within the sequence ceiling. -/
theorem State.poll_noise (hf : s.seq.fsm = .awaitingReply) (hrx : s.seq.rxEnabled = true) (hopen : s.ring.Open s.params)
    (hsl : s.ring.slots[s.ring.writeCursor]? = some Slot.empty)
    (hplain : PlainLine s.params text) (hfit : text.length + 1 ≤ s.params.slotCapacity)
    (hv : classify s.params s.seq.latch.expectation text = .noise)
    (htime : s.seq.seqTimer + s.params.pollInterval ≤ s.cfg.sequenceCeiling) :
    s.poll (text ++ [s.params.endMarker]) = .next (s.ignored text) := by
  have hdiscard := Ring.discard_withLine (p := s.params) hopen.reads hsl text
  have hignored : (s.heard text).discardLine = s.ignored text := by
    simp only [State.discardLine, State.heard, State.goto, hdiscard, State.ignored, hf]
  have hnone : timeoutStatus (s.ignored text).cfg (s.ignored text).seq = none :=
    timeoutStatus_eq_none htime (Nat.zero_le _)
  rw [State.poll_line hrx hopen hplain hfit, hv, State.judged, hignored, State.checkTimeouts_of_none hnone]

/-- The wait `t` comes from the wait `s` by `n` noise lines. -/
structure State.Ignoring (s t : State) (n : Nat) : Prop where
  params    : t.params = s.params
  cfg       : t.cfg = s.cfg
  env       : t.env = s.env
  fsm       : t.seq.fsm = .awaitingReply
  receiver  : t.seq.rxEnabled = true
  latch     : t.seq.latch = s.seq.latch
  caller    : t.seq.caller = s.seq.caller
  lines     : t.seq.linesSeen = s.seq.linesSeen + n
  reply     : t.seq.replyTimer = 0
  sequence  : t.seq.seqTimer = s.seq.seqTimer + n * s.params.pollInterval
  ready     : t.ring.Ready s.params
  blank     : t.ring.slots = List.replicate s.params.depth Slot.empty
  reads     : t.ring.readCursor = t.ring.writeCursor

theorem State.Ignoring.refl_opened {r : List Bool} (h : s.ring.Ready s.params) :
    (s.opened r).Ignoring (s.opened r) 0 where
  params := rfl
  cfg := rfl
  env := rfl
  fsm := rfl
  receiver := rfl
  latch := rfl
  caller := rfl
  lines := rfl
  reply := rfl
  sequence := by rw [Nat.zero_mul]; rfl
  ready := h.resync
  blank := Ring.resync_slots.trans (congrArg (List.replicate · Slot.empty) h.length)
  reads := rfl

/-- One more noise line. -/
theorem State.Ignoring.step {t : State} {n : Nat} (h : s.Ignoring t n)
    (hplain : PlainLine s.params text) (hfit : text.length + 1 ≤ s.params.slotCapacity)
    (hv : classify s.params s.seq.latch.expectation text = .noise)
    (htime : s.seq.seqTimer + (n + 1) * s.params.pollInterval ≤ s.cfg.sequenceCeiling) :
    t.poll (text ++ [s.params.endMarker]) = .next (t.ignored text) ∧ s.Ignoring (t.ignored text) (n + 1) := by
  have hp := h.params
  have hopen : t.ring.Open t.params := hp ▸ { h.ready with reads := h.reads, target := Ring.target_of_blank h.blank }
  have hsl : t.ring.slots[t.ring.writeCursor]? = some Slot.empty := by
    rw [h.blank, List.getElem?_replicate, if_pos h.ready.writes]
  have htimer : t.seq.seqTimer + t.params.pollInterval = s.seq.seqTimer + (n + 1) * s.params.pollInterval := by
    rw [hp, h.sequence, Nat.succ_mul, Nat.add_assoc]
  have hpoll := State.poll_noise (text := text) h.fsm h.receiver hopen hsl (hp ▸ hplain) (hp ▸ hfit)
    (by rw [hp, h.latch]; exact hv) (by rw [htimer, h.cfg]; exact htime)
  rw [hp] at hpoll
  have hdepth := h.ready.depth
  have hready : (t.ignored text).ring.Ready s.params :=
    { depth := hdepth
      length := h.ready.length
      writes := (Nat.mod_lt _ (by rw [hp]; omega)).trans_eq (congrArg Params.depth hp)
      canonical := Memory.writeText_wf _ h.ready.canonical }
  exact ⟨hpoll, { h with
    lines := congrArg (· + 1) h.lines
    reply := rfl
    sequence := htimer
    ready := hready
    reads := congrArg (fun c => (c + 1) % t.params.depth) h.reads }⟩

/-- Noise lines, one in each Delay. -/
theorem State.runDelays_noise {t : State} {n : Nat} {lines ds : List (List Byte)} (h : s.Ignoring t n)
    (hlines : ∀ l ∈ lines, classify s.params s.seq.latch.expectation l = .noise ∧ PlainLine s.params l ∧
      l.length + 1 ≤ s.params.slotCapacity)
    (htime : s.seq.seqTimer + (n + lines.length) * s.params.pollInterval ≤ s.cfg.sequenceCeiling) :
    ∃ u, t.runDelays (lines.map (· ++ [s.params.endMarker]) ++ ds) = u.runDelays ds ∧ s.Ignoring u (n + lines.length) := by
  induction lines generalizing t n with
  | nil => exact ⟨t, rfl, h⟩
  | cons l lines ih =>
    obtain ⟨hv, hplain, hfit⟩ := hlines l List.mem_cons_self
    rw [List.length_cons, ← Nat.add_assoc, Nat.add_right_comm] at htime ⊢
    have hfirst : (n + 1) * s.params.pollInterval ≤ (n + 1 + lines.length) * s.params.pollInterval :=
      Nat.mul_le_mul_right _ (Nat.le_add_right _ _)
    obtain ⟨hpoll, hnext⟩ := h.step hplain hfit hv (by omega)
    obtain ⟨u, hrun, hu⟩ := ih hnext (fun l hm => hlines l (List.mem_cons_of_mem _ hm)) htime
    exact ⟨u, (State.runDelays_wait h.fsm hpoll).trans hrun, hu⟩

/-- Silence after noise, below the sequence ceiling: the reply-timer ends the attempt. -/
theorem State.Ignoring.silence {u : State} {n k : Nat} (h : s.Ignoring u n) (ds : List (List Byte))
    (hn : s.seq.linesSeen + n ≠ 0) (hp : 1 ≤ s.params.pollInterval) (hk : k = pollsUntil s.params s.seq.latch.timeout)
    (htime : s.seq.seqTimer + (n + k) * s.params.pollInterval ≤ s.cfg.sequenceCeiling) :
    (u.waited k u.ring).seq.seqTimer = s.seq.seqTimer + (n + k) * s.params.pollInterval ∧
    (u.waited k u.ring).seq.replyTimer = k * s.params.pollInterval ∧
    u.runDelays (List.replicate k [] ++ ds) = ((u.waited k u.ring).exitAttempt Status.parserRejected).runDelays ds := by
  have htimer (j : Nat) : (u.waited j u.ring).seq.seqTimer = s.seq.seqTimer + (n + j) * s.params.pollInterval := by
    simp only [State.waited, h.sequence, h.params, Nat.add_mul, Nat.add_assoc]
  have hreply (j : Nat) : (u.waited j u.ring).seq.replyTimer = j * s.params.pollInterval := by
    simp only [State.waited, h.reply, h.params, Nat.zero_add]
  have hlimit (j : Nat) : s.seq.latch.timeout < j * s.params.pollInterval ↔ k ≤ j := hk ▸ limit_lt_mul_iff hp _ j
  have hlatch (j : Nat) : (u.waited j u.ring).seq.latch.timeout = s.seq.latch.timeout := congrArg AccessParams.timeout h.latch
  have hbelow (j : Nat) (hj : j ≤ k) : (u.waited j u.ring).seq.seqTimer ≤ u.cfg.sequenceCeiling := by
    have hle : (n + j) * s.params.pollInterval ≤ (n + k) * s.params.pollInterval :=
      Nat.mul_le_mul_right _ (Nat.add_le_add_left hj _)
    rw [htimer, h.cfg]
    omega
  have hlen : (List.replicate k ([] : List Byte)).length = k := List.length_replicate
  have hrun := State.runDelays_timeout (s := u) (cs := List.replicate k []) (ds := ds) (r := u.ring)
    (st := Status.parserRejected) h.fsm h.receiver h.reads (by simp) (by simp) (by simp [hk, pollsUntil])
    (fun j _ hj => timeoutStatus_eq_none (hbelow j (by omega)) (by
      rw [hreply, hlatch]
      exact Nat.not_lt.mp fun hlt => absurd ((hlimit j).mp hlt) (by omega)))
    (timeoutStatus_after_lines (hlen.symm ▸ hbelow k (le_refl k))
      (by rw [hlen, hreply, hlatch]; exact (hlimit k).mpr (le_refl k))
      (fun h0 => hn (h.lines ▸ h0)))
  rw [hlen] at hrun
  exact ⟨htimer k, hreply k, hrun⟩

/-- Settles O43: one noise line leaves the wait as `State.ignored` says; after some and then silence the reply-timer ends the
attempt, and the lines that were counted make it a parser error. -/
theorem noiseLineKeepsTheWait : Obligations.NoiseLineKeepsTheWait := by
  refine ⟨fun s i text ht hr hi hf hrx hx htok hnoise hs hm hd hcur hsl hplain hfit htime => ?_,
    fun s a lines k rest ds hs hfits hx htok hsound hm hd hp hne hlines hk htime htx hds => ?_⟩
  · have hopen := Ring.open_of_empty_slot hd hs hm hcur hsl
    have hpoll := State.poll_noise hf hrx hopen hsl hplain hfit (classify_isNoise htok hx hnoise) htime
    exact ⟨_, (exec_line_waiting ht hr hi hf hrx).trans hpoll, fun _ ha => Memory.read_writeText_other ha⟩
  · have htimer : ((s.started .attempt a s.seq.attempt).opened (true :: rest)).seq.seqTimer = 0 := rfl
    have hbound : lines.length * s.params.pollInterval ≤ (lines.length + k) * s.params.pollInterval :=
      Nat.mul_le_mul_right _ (Nat.le_add_right _ _)
    have hpos := List.length_pos_iff.mpr hne
    obtain ⟨u, hrun, hu⟩ := State.runDelays_noise
      (s := (s.started .attempt a s.seq.attempt).opened (true :: rest)) (ds := List.replicate k [] ++ ds)
      (State.Ignoring.refl_opened (Ring.ready_of_sound hd hsound hm))
      (fun l hl => ⟨classify_isNoise htok hx (hlines l hl).1, (hlines l hl).2⟩)
      (by rw [htimer, Nat.zero_add, Nat.zero_add]; exact hbound.trans htime)
    rw [Nat.zero_add] at hu
    obtain ⟨hseq, hreply, hquiet⟩ := hu.silence ds (by omega) hp hk (by rw [htimer, Nat.zero_add]; exact htime)
    have hclosed := State.exitAttempt_closed (s := u.waited k u.ring) (rest := rest) Status.parserRejected
      (congrArg Env.txResults hu.env)
    have hlast : ((u.waited k u.ring).closed (u.waited k u.ring).seq.rxValue Status.parserRejected rest).lastAttempt =
      true := by
      have hcaller : u.seq.caller = .attempt := hu.caller
      simp only [State.lastAttempt, State.closed, State.waited, hcaller]
    have hover := State.conclude_attempt (s := ((u.waited k u.ring).closed (u.waited k u.ring).seq.rxValue
      Status.parserRejected rest).goto .exhausted) hu.caller
    have hexec := exec_attempt_of_fits hs hfits
    rw [hds, List.append_assoc, State.sending_opened (s := s.started .attempt a s.seq.attempt) hx htx,
      State.settle_opened] at hexec
    have hall := hexec.trans (hrun.trans hquiet)
    rw [hclosed, State.attemptOver_last (s := (u.waited k u.ring).closed _ Status.parserRejected rest) nofun hlast, hover,
      State.runDelays_returned] at hall
    exact ⟨_, hall, rfl, rfl, rfl, rfl, hu.lines.trans (Nat.zero_add _), hreply,
      hseq.trans (by rw [htimer, Nat.zero_add]; rfl), rfl, rfl⟩

/-! ### A transport call that fails (R205) -/

/-- An attempt that `Sending` gave up after the events `ev`, the destination being `dest`. -/
def State.unsent (s : State) (dest : Nat) (rest : List Bool) (ev : List Event) : State :=
  { s with
    ring := s.ring.resync
    seq := { s.seq with
      fsm := .idle, caller := .none, status := Status.zero, replyTimer := 0, seqTimer := 0, linesSeen := 0
      rxEnabled := false, rxValue := Config.freeRxValue s.env.freeCount, txFrame := frameOf s.params s.seq.latch }
    env := { s.env with txResults := rest, txDest := dest, freeCount := s.env.freeCount + 1 }
    events := .fsm .idle :: ev
    ret := .call .transportError }

theorem State.settle_unsent (s : State) (dest : Nat) (rest : List Bool) (ev : List Event) :
    (s.unsent dest rest ev).settle = s.unsent dest rest ev := State.settle_of_ne_success nofun

theorem State.runDelays_unsent (s : State) (dest : Nat) (rest : List Bool) (ev : List Event) (ds : List (List Byte)) :
    (s.unsent dest rest ev).runDelays ds =
      .next { s.unsent dest rest ev with env := { (s.unsent dest rest ev).env with deliveries := ds } } :=
  State.runDelays_idle _ nofun

theorem State.sending_no_destination {b : Bool} (h : s.env.txResults = false :: b :: rest) :
    s.sending = s.unsent s.env.txDest rest
      (.tx .disableReceive b :: .tx (.setDestination s.seq.latch.node) false :: .fsm .sending :: s.events) := by
  simp [State.sending, State.sendFrame, State.clearAttempt, State.goto, State.transport, Env.takeTx, Env.latchDest,
    State.abortAccess, State.finish, State.unsent, h]

theorem State.sending_no_send {b : Bool} (h : s.env.txResults = true :: false :: b :: rest) :
    s.sending = s.unsent s.seq.latch.node rest
      (.tx .disableReceive b :: .tx (.sendFrame (frameOf s.params s.seq.latch)) false ::
        .tx (.setDestination s.seq.latch.node) true :: .fsm .sending :: s.events) := by
  simp [State.sending, State.sendFrame, State.clearAttempt, State.goto, State.transport, Env.takeTx, Env.latchDest,
    State.abortAccess, State.finish, State.unsent, h]

theorem State.sending_no_receiver {b : Bool} (hx : s.seq.latch.expectation ≠ .none)
    (h : s.env.txResults = true :: true :: false :: b :: rest) :
    s.sending = s.unsent s.seq.latch.node rest
      (.tx .disableReceive b :: .tx .enableReceive false :: .tx (.sendFrame (frameOf s.params s.seq.latch)) true ::
        .tx (.setDestination s.seq.latch.node) true :: .fsm .sending :: s.events) := by
  have hsend := State.sendFrame_settled (s := (s.goto .sending).clearAttempt) h
  simp only [State.sending, hsend, if_true]
  simp [State.afterSend, hx, State.clearAttempt, State.goto, State.transport, Env.takeTx, Env.latchDest,
    State.abortAccess, State.finish, State.unsent]

theorem State.sending_no_disable (hx : s.seq.latch.expectation = .none)
    (h : s.env.txResults = true :: true :: false :: rest) :
    s.sending = s.unsent s.seq.latch.node rest
      (.tx .disableReceive false :: .tx (.sendFrame (frameOf s.params s.seq.latch)) true ::
        .tx (.setDestination s.seq.latch.node) true :: .fsm .sending :: s.events) := by
  have hsend := State.sendFrame_settled (s := (s.goto .sending).clearAttempt) h
  simp only [State.sending, hsend, if_true]
  simp [State.afterSend, hx, State.clearAttempt, State.goto, State.transport, Env.takeTx, Env.latchDest,
    State.abortAccess, State.finish, State.unsent]

/-- An attempt whose exit procedure failed (R197, R205). -/
def State.cutOff (s : State) (st : Status) (rest : List Bool) : State :=
  { s with
    seq := { s.seq with status := st, rxEnabled := false, fsm := .idle, caller := .none }
    env := { s.env with txResults := rest }
    events := .fsm .idle :: .tx .disableReceive false :: s.events
    ret := .call .transportError }

theorem State.exitAttempt_cutOff (st : Status) (h : s.env.txResults = false :: rest) :
    s.exitAttempt st = s.cutOff st rest := by
  simp [State.exitAttempt, State.transport, Env.takeTx, Env.latchDest, State.abortAccess, State.finish, State.goto,
    State.cutOff, h]

theorem State.runDelays_cutOff (s : State) (st : Status) (rest : List Bool) (ds : List (List Byte)) :
    (s.cutOff st rest).runDelays ds = .next { s.cutOff st rest with env := { s.env with txResults := rest, deliveries := ds } } :=
  State.runDelays_idle _ nofun

/-- Whatever compares, a line that is the success line or opens with the error token ends a wait for OK. -/
theorem outcome_ok_or_error {p : Params} (w : Word) (h : text = p.okToken ∨ ∃ tail, text = p.errorToken ++ tail) :
    ∃ st, (classify p .ok text).outcome w = some (st, w) := by
  rcases h with rfl | ⟨tail, rfl⟩
  · exact ⟨Status.zero, by rw [classify_okToken]; rfl⟩
  · cases hok : compareText p.tokenizer (p.errorToken ++ tail) .exact p.okToken with
    | true => exact ⟨Status.zero, by rw [classify, hok]; rfl⟩
    | false =>
      refine ⟨Status.remoteReported, ?_⟩
      simp only [classify, hok, Bool.false_eq_true, if_false, classifyError_errorLine]
      rfl

/-- Settles O35, one failing call after the other. -/
theorem transportFailureAborts : Obligations.TransportFailureAborts := by
  rintro s node reg value mask e timeout b rest f i rfl rfl hs hn hlen
  have hfits : accessFits s.params ⟨.write, node, reg, e, timeout, value, mask, []⟩ = true :=
    accessFits_iff.mpr ⟨hlen, nofun, hn⟩
  have hexec := (exec_writeRegister_of_valid hs hn reg value mask e timeout).trans
    (State.hostAccess_of_fits (c := .writeRegister) hfits)
  have hunsent {dest : Nat} {ev : List Event} (h : (s.started .writeRegister ⟨.write, node, reg, e, timeout, value, mask, []⟩
      1).sending = (s.started .writeRegister ⟨.write, node, reg, e, timeout, value, mask, []⟩ 1).unsent dest rest ev) :
      ∃ t, exec (.writeRegister node reg value mask (.kind e) timeout true) s = .next t ∧ t.ret = .call .transportError ∧
        t.seq.fsm = .idle ∧ t.seq.rxEnabled = false ∧ t.host = s.host ∧ t.seq.attempt = 1 ∧ t.env.txResults = rest ∧
        t.events = .fsm .idle :: ev := by
    rw [h, State.settle_unsent, State.runDelays_unsent] at hexec
    exact ⟨_, hexec, rfl, rfl, rfl, rfl, rfl, rfl, rfl⟩
  refine ⟨fun h => hunsent (State.sending_no_destination h), fun h => hunsent (State.sending_no_send h),
    fun hx h => hunsent (State.sending_no_receiver hx h), fun hx h => hunsent (State.sending_no_disable hx h),
    fun line ds hx hline hplain hfit hd hsound hm htx hds => ?_, fun k ds hx hp hk htx hds => ?_⟩
  · subst hx
    have hopened := State.sending_opened
      (s := s.started .writeRegister ⟨.write, node, reg, .ok, timeout, value, mask, []⟩ 1) nofun htx
    have hready := Ring.ready_of_sound hd hsound hm
    obtain ⟨st, hv⟩ := outcome_ok_or_error (p := s.params) (Config.freeRxValue s.env.freeCount) hline
    have hpoll := State.poll_line_exit
      (s := (s.started .writeRegister ⟨.write, node, reg, .ok, timeout, value, mask, []⟩ 1).opened (false :: rest))
      rfl hready.open_resync hplain hfit hv
    rw [State.exitAttempt_cutOff (rest := rest) _ rfl] at hpoll
    rw [hopened, State.settle_opened, hds] at hexec
    have hrun := State.runDelays_wait (ds := ds) rfl hpoll
    rw [State.runDelays_cutOff] at hrun
    exact ⟨_, hexec.trans hrun, rfl, rfl, rfl, rfl, rfl, rfl, rfl⟩
  · have hopened := State.sending_opened
      (s := s.started .writeRegister ⟨.write, node, reg, e, timeout, value, mask, []⟩ 1) hx htx
    have hrun := State.opened_silent (s := s.started .writeRegister ⟨.write, node, reg, e, timeout, value, mask, []⟩ 1)
      (rest := false :: rest) (cs := List.replicate k []) (ds := ds) hp (List.length_replicate.trans hk) (by simp)
      (Ring.pushAll_silence _ _ k)
    rw [State.exitAttempt_cutOff (rest := rest) _ rfl, State.runDelays_cutOff] at hrun
    rw [hopened, State.settle_opened, hds] at hexec
    exact ⟨_, hexec.trans hrun, rfl, rfl, rfl, rfl, rfl, rfl, rfl⟩

end Sys2Proof.Machine
end

section
/-! PROOFS. Several attempts in a row: the retry loop (spec/42_master_access.md §3) and the scan (spec/44_node_scan.md). -/

namespace Sys2Proof.Machine

variable {s t u w : State} {rest : List Bool} {text : List Byte}

/-! ### One attempt as seen from outside -/

/-- The attempt that `s` was about to make is over in `u`, its status not yet acted on. -/
structure State.Over (s u : State) (st : Status) (rest : List Bool) : Prop where
  params   : u.params = s.params
  cfg      : u.cfg = s.cfg
  host     : u.host = s.host
  latch    : u.seq.latch = s.seq.latch
  caller   : u.seq.caller = s.seq.caller
  attempt  : u.seq.attempt = s.seq.attempt
  address  : u.seq.scanAddr = s.seq.scanAddr
  found    : u.seq.found = s.seq.found
  status   : u.seq.status = st
  receiver : u.seq.rxEnabled = false
  frame    : u.seq.txFrame = frameOf s.params s.seq.latch
  dest     : u.env.txDest = s.seq.latch.node
  results  : u.env.txResults = rest
  ready    : s.ring.Ready s.params → u.ring.Ready s.params

theorem State.over_of_line {v : Word} {st : Status} {ds : List (List Byte)} (hx : s.seq.latch.expectation ≠ .none)
    (hready : s.ring.Ready s.params) (hplain : PlainLine s.params text) (hfit : text.length + 1 ≤ s.params.slotCapacity)
    (hv : (classify s.params s.seq.latch.expectation text).outcome (Config.freeRxValue s.env.freeCount) = some (st, v))
    (htx : s.env.txResults = true :: true :: true :: true :: rest) :
    ∃ u, s.sending.settle.runDelays ((text ++ [s.params.endMarker]) :: ds) = u.attemptOver.runDelays ds ∧
      s.Over u st rest ∧ u.seq.rxValue = v :=
  ⟨_, State.attempt_line hx hready hplain hfit hv htx,
    ⟨rfl, rfl, rfl, rfl, rfl, rfl, rfl, rfl, rfl, rfl, rfl, rfl, rfl, fun h => h.resync.withLine text⟩, rfl⟩

theorem State.over_of_silence {k : Nat} {ds : List (List Byte)} (hx : s.seq.latch.expectation ≠ .none)
    (hp : 1 ≤ s.params.pollInterval) (hk : k = silentPolls s.params s.cfg s.seq.latch.timeout)
    (htx : s.env.txResults = true :: true :: true :: true :: rest) :
    ∃ u, s.sending.settle.runDelays (List.replicate k [] ++ ds) = u.attemptOver.runDelays ds ∧
      s.Over u (silentStatus s.params s.cfg s.seq.latch.timeout) rest :=
  ⟨_, State.attempt_silent hx hp (List.length_replicate.trans hk) (by simp) (Ring.pushAll_silence _ _ k) htx,
    ⟨rfl, rfl, rfl, rfl, rfl, rfl, rfl, rfl, rfl, rfl, rfl, rfl, rfl, fun h => h.resync⟩⟩

theorem replicate_four (n : Nat) (rest : List Bool) : List.replicate (4 * (n + 1)) true ++ rest =
    true :: true :: true :: true :: (List.replicate (4 * n) true ++ rest) := by
  rw [Nat.mul_succ]
  rfl

theorem replicate_four_concat (n : Nat) (rest : List Bool) : List.replicate (4 * (n + 1)) true ++ rest =
    List.replicate (4 * n) true ++ (true :: true :: true :: true :: rest) := by
  rw [Nat.mul_succ, List.replicate_add, List.append_assoc]
  rfl

/-! ### Attempts that fail, each for a cause of its own -/

/-- The callers whose access has MAX_ATTEMPTS attempts. -/
def Caller.retries : Caller → Bool
  | .access one => !one
  | .writeRegister | .readRegister | .sendCommand => true
  | .none | .attempt | .scan _ => false

theorem State.lastAttempt_of_retries (h : s.seq.caller.retries = true) :
    s.lastAttempt = decide (s.cfg.maxAttempts ≤ s.seq.attempt) := by
  unfold State.lastAttempt
  split
  · next hc => rw [hc] at h; cases h
  · next hc => rw [hc] at h; cases h
  · next one hc =>
    rw [hc] at h
    cases one with
    | true => cases h
    | false => rfl
  all_goals rfl

/-- What a failing attempt hears: an error report with some rest, or nothing for `k` Delays. -/
def causeDeliveries (p : Params) (k : Nat) : Option (List Byte) → List (List Byte)
  | some tail => [p.errorToken ++ tail ++ [p.endMarker]]
  | none => List.replicate k []

/-- The status it ends with (R191, R208). -/
def causeStatus (p : Params) (c : Cfg) (timeout : Nat) : Option (List Byte) → Status
  | some _ => Status.remoteReported
  | none => silentStatus p c timeout

/-- The cause can be heard: the error report fits a slot, and the silence is as long as the limits say. -/
def CauseFits (p : Params) (c : Cfg) (timeout k : Nat) : Option (List Byte) → Prop
  | some tail => PlainLine p (p.errorToken ++ tail) ∧ (p.errorToken ++ tail).length + 1 ≤ p.slotCapacity
  | none => 1 ≤ p.pollInterval ∧ k = silentPolls p c timeout

theorem causeStatus_ne_zero (p : Params) (c : Cfg) (timeout : Nat) (cause : Option (List Byte)) :
    causeStatus p c timeout cause ≠ Status.zero := by
  cases cause with
  | some tail => nofun
  | none => exact silentStatus_ne_zero p c timeout

section Retries

variable {k : Nat} {cause : Option (List Byte)} {ds : List (List Byte)}

/-- An access that expects OK is about to send, in a master that tells an error report from the success line. -/
structure State.AsksForOk (s : State) : Prop where
  expects  : s.seq.latch.expectation = .ok
  exact    : s.params.tokenizer = .reference
  distinct : s.params.errorToken.isPrefixOf s.params.okToken = false
  retries  : s.seq.caller.retries = true
  ready    : s.ring.Ready s.params

theorem State.over_of_cause (h : s.AsksForOk) (hcause : CauseFits s.params s.cfg s.seq.latch.timeout k cause)
    (htx : s.env.txResults = true :: true :: true :: true :: rest) :
    ∃ u, s.sending.settle.runDelays (causeDeliveries s.params k cause ++ ds) = u.attemptOver.runDelays ds ∧
      s.Over u (causeStatus s.params s.cfg s.seq.latch.timeout cause) rest := by
  have hx : s.seq.latch.expectation ≠ .none := by simp [h.expects]
  cases cause with
  | some tail =>
    have hv : (classify s.params s.seq.latch.expectation (s.params.errorToken ++ tail)).outcome
        (Config.freeRxValue s.env.freeCount) = some (Status.remoteReported, Config.freeRxValue s.env.freeCount) := by
      rw [h.expects, classify_errorLine_ok h.exact h.distinct]
      rfl
    obtain ⟨u, hrun, hu, -⟩ := State.over_of_line hx h.ready hcause.1 hcause.2 hv htx
    exact ⟨u, hrun, hu⟩
  | none => exact State.over_of_silence hx hcause.1 hcause.2 htx

/-- The access of `s` is about to send again in `t`, after `n` failed attempts. -/
structure State.Again (s t : State) (n : Nat) (rest : List Bool) : Prop where
  params  : t.params = s.params
  cfg     : t.cfg = s.cfg
  host    : t.host = s.host
  latch   : t.seq.latch = s.seq.latch
  caller  : t.seq.caller = s.seq.caller
  attempt : t.seq.attempt = s.seq.attempt + n
  results : t.env.txResults = rest
  ready   : t.ring.Ready s.params

theorem State.Again.asksForOk {n : Nat} (h : s.Again t n rest) (hs : s.AsksForOk) : t.AsksForOk where
  expects := (congrArg AccessParams.expectation h.latch).trans hs.expects
  exact := (congrArg Params.tokenizer h.params).trans hs.exact
  distinct := by rw [h.params]; exact hs.distinct
  retries := by rw [h.caller]; exact hs.retries
  ready := by rw [h.params]; exact h.ready

/-- A failed attempt that is not the last is followed by another one (R199). -/
theorem State.Over.again {st : Status} (hu : s.Over u st rest) (hst : st ≠ Status.zero) (h : s.AsksForOk)
    (hmax : s.seq.attempt < s.cfg.maxAttempts) : u.attemptOver = u.retried.sending.settle ∧ s.Again u.retried 1 rest := by
  have hlast : u.lastAttempt = false := by
    rw [State.lastAttempt_of_retries (by rw [hu.caller]; exact h.retries), hu.cfg, hu.attempt]
    exact decide_eq_false (Nat.not_le.mpr hmax)
  exact ⟨State.attemptOver_retry (hu.status.symm ▸ hst) hlast,
    ⟨hu.params, hu.cfg, hu.host, hu.latch, hu.caller, congrArg (· + 1) hu.attempt, hu.results, hu.ready h.ready⟩⟩

/-- Attempts that fail, one after the other, before the last one. -/
theorem State.again_of_causes {causes : List (Option (List Byte))} (h : s.AsksForOk)
    (hcauses : ∀ cause ∈ causes, CauseFits s.params s.cfg s.seq.latch.timeout k cause)
    (hmax : s.seq.attempt + causes.length ≤ s.cfg.maxAttempts)
    (htx : s.env.txResults = List.replicate (4 * causes.length) true ++ rest) :
    ∃ t, s.sending.settle.runDelays (causes.flatMap (causeDeliveries s.params k) ++ ds) = t.sending.settle.runDelays ds ∧
      s.Again t causes.length rest := by
  induction causes generalizing s with
  | nil => exact ⟨s, rfl, ⟨rfl, rfl, rfl, rfl, rfl, rfl, htx, h.ready⟩⟩
  | cons cause causes ih =>
    rw [List.length_cons] at hmax htx
    rw [replicate_four] at htx
    obtain ⟨u, hrun, hu⟩ := State.over_of_cause (ds := causes.flatMap (causeDeliveries s.params k) ++ ds) h
      (hcauses cause List.mem_cons_self) htx
    obtain ⟨hover, hnext⟩ := hu.again (causeStatus_ne_zero _ _ _ _) h (by omega)
    have hlater : ∀ c ∈ causes, CauseFits u.retried.params u.retried.cfg u.retried.seq.latch.timeout k c := by
      rw [hnext.params, hnext.cfg, hnext.latch]
      exact fun c hc => hcauses c (List.mem_cons_of_mem _ hc)
    obtain ⟨t, hrest, ht⟩ := ih (hnext.asksForOk h) hlater (by rw [hnext.attempt, hnext.cfg]; omega) hnext.results
    refine ⟨t, ?_, ?_⟩
    · rw [List.flatMap_cons, List.append_assoc, hrun, hover, ← hrest, hnext.params]
    · exact ⟨ht.params.trans hnext.params, ht.cfg.trans hnext.cfg, ht.host.trans hnext.host, ht.latch.trans hnext.latch,
        ht.caller.trans hnext.caller, by rw [ht.attempt, hnext.attempt, List.length_cons]; omega, ht.results,
        hnext.params ▸ ht.ready⟩

end Retries

/-- Settles O33: after the failed attempts the success line ends the access. -/
theorem retriesUntilTheFirstSuccess : Obligations.RetriesUntilTheFirstSuccess := by
  intro s a n rest ds tail hs hsound hm hd htok hdistinct hplainOk hfitOk hplainErr hfitErr hfits hx hmax htx hds
  have hready := Ring.ready_of_sound hd hsound hm
  have hasks : (s.started (.access false) a 1).AsksForOk := ⟨hx, htok, hdistinct, rfl, hready⟩
  have hcauses : (List.replicate n (some tail)).flatMap (causeDeliveries s.params 0) =
      List.replicate n (s.params.errorToken ++ tail ++ [s.params.endMarker]) := by
    rw [List.flatMap_replicate]
    exact List.flatten_replicate_singleton
  have hresults : (s.started (.access false) a 1).env.txResults =
      List.replicate (4 * (List.replicate n (some tail)).length) true ++ (true :: true :: true :: true :: rest) := by
    rw [List.length_replicate]
    exact htx.trans (replicate_four_concat n rest)
  obtain ⟨t, hrun, ht⟩ := State.again_of_causes (k := 0) (causes := List.replicate n (some tail))
    (ds := (s.params.okToken ++ [s.params.endMarker]) :: ds) hasks
    (fun cause hc => by rw [List.eq_of_mem_replicate hc]; exact ⟨hplainErr, hfitErr⟩)
    (by rw [List.length_replicate]; change 1 + n ≤ s.cfg.maxAttempts; omega) hresults
  have htasks := ht.asksForOk hasks
  have hparams : t.params = s.params := ht.params
  have hv : (classify t.params t.seq.latch.expectation s.params.okToken).outcome (Config.freeRxValue t.env.freeCount) =
      some (Status.zero, Config.freeRxValue t.env.freeCount) := by
    rw [htasks.expects, hparams, classify_okToken]
    rfl
  obtain ⟨u, hlast, hu, -⟩ := State.over_of_line (ds := ds) (by simp [htasks.expects]) htasks.ready
    (hparams ▸ hplainOk) (hparams ▸ hfitOk) hv ht.results
  have hexec := exec_access_of_fits (one := false) hs hfits
  have hcaller : (u.goto .success).seq.caller = .access false := hu.caller.trans ht.caller
  rw [hparams] at hlast
  rw [hds, ← hcauses] at hexec
  have hall := (hexec.trans hrun).trans hlast
  rw [State.attemptOver_zero hu.status, State.conclude_access hcaller, State.runDelays_returned] at hall
  have hattempt : u.seq.attempt = n + 1 := by
    rw [hu.attempt, ht.attempt, List.length_replicate]
    exact Nat.add_comm 1 n
  have hframe : u.seq.txFrame = frameOf s.params a := by
    rw [hu.frame, ht.latch, hparams]
    rfl
  exact ⟨_, _, hall, congrArg (fun st => Ret.access .callSuccess st u.seq.rxValue) hu.status, hattempt, rfl, hu.receiver, rfl, hu.results,
    hframe, hu.host.trans ht.host⟩

/-- Settles O34: after the earlier attempts the last one fails too, and its status is what is written. -/
theorem exhaustedAccessReportsTheLastStatus : Obligations.ExhaustedAccessReportsTheLastStatus := by
  intro s node reg value mask timeout k rest ds earlier last hs hsound hm hd hp htok hdistinct hlines hn hlen hmax hk htx hds
  have hready := Ring.ready_of_sound hd hsound hm
  have hfits : accessFits s.params ⟨.write, node, reg, .ok, timeout, value, mask, []⟩ = true :=
    accessFits_iff.mpr ⟨hlen, nofun, hn⟩
  have hasks : (s.started .writeRegister ⟨.write, node, reg, .ok, timeout, value, mask, []⟩ 1).AsksForOk :=
    ⟨rfl, htok, hdistinct, rfl, hready⟩
  have hcauses : ∀ cause ∈ earlier ++ [last], CauseFits s.params s.cfg timeout k cause := by
    intro cause hc
    cases cause with
    | some tail => exact hlines tail hc
    | none => exact ⟨hp, hk⟩
  have hcount : s.cfg.maxAttempts = earlier.length + 1 := by simpa using hmax
  have hresults : s.env.txResults = List.replicate (4 * earlier.length) true ++ (true :: true :: true :: true :: rest) := by
    rw [htx, hcount, replicate_four_concat]
  have hdeliveries : s.env.deliveries =
      earlier.flatMap (causeDeliveries s.params k) ++ (causeDeliveries s.params k last ++ ds) := by
    have hall : s.env.deliveries = (earlier ++ [last]).flatMap (causeDeliveries s.params k) ++ ds := hds
    rw [hall, List.flatMap_append, List.flatMap_singleton, List.append_assoc]
  obtain ⟨t, hrun, ht⟩ := State.again_of_causes
    (s := s.started .writeRegister ⟨.write, node, reg, .ok, timeout, value, mask, []⟩ 1)
    (ds := causeDeliveries s.params k last ++ ds) hasks
    (fun cause hc => hcauses cause (List.mem_append_left _ hc)) (by change 1 + _ ≤ s.cfg.maxAttempts; omega) hresults
  have htasks := ht.asksForOk hasks
  have hfitsLast : CauseFits t.params t.cfg t.seq.latch.timeout k last := by
    rw [ht.params, ht.cfg, ht.latch]
    exact hcauses last (by simp)
  obtain ⟨u, hlast, hu⟩ := State.over_of_cause (ds := ds) htasks hfitsLast ht.results
  have hcaller : (u.goto .exhausted).seq.caller = .writeRegister := hu.caller.trans ht.caller
  have hattempt : u.seq.attempt = s.cfg.maxAttempts := by
    rw [hu.attempt, ht.attempt, hcount]
    exact Nat.add_comm 1 _
  have hlastAttempt : u.lastAttempt = true := by
    have hcfg : u.cfg = s.cfg := hu.cfg.trans ht.cfg
    rw [State.lastAttempt_of_retries (by rw [show u.seq.caller = .writeRegister from hcaller]; rfl), hattempt, hcfg]
    exact decide_eq_true (le_refl _)
  have hexec := (exec_writeRegister_of_valid hs hn reg value mask .ok timeout).trans (State.hostAccess_of_fits hfits)
  rw [hdeliveries] at hexec
  rw [ht.params] at hlast
  have hall := (hexec.trans hrun).trans hlast
  rw [State.attemptOver_last (hu.status.symm ▸ causeStatus_ne_zero _ _ _ _) hlastAttempt,
    State.conclude_host (by rw [hcaller]; rfl), State.runDelays_returned] at hall
  have hstatus : u.seq.status = causeStatus s.params s.cfg timeout last := by
    rw [hu.status, ht.params, ht.cfg, ht.latch]
    rfl
  have hhost : u.host = s.host := hu.host.trans ht.host
  refine ⟨_, hall, rfl, ?_, hattempt, rfl, hu.receiver, rfl, hu.results⟩
  simp only [State.returned, hcaller, reduceCtorEq, false_and, if_false]
  change ({ u.host with status := u.seq.status } : Places) = _
  rw [hhost, hstatus]
  cases last <;> rfl

end Sys2Proof.Machine
end

section
/-! PROOFS. The scan (spec/44_node_scan.md): the probes of the addresses one after the other. -/

namespace Sys2Proof.Machine

variable {s t u w : State} {rest : List Bool}

/-! ### The descriptors (R242, R243) -/

/-- What the probe of address `a` appends when it is answered with `v`. -/
def nodeOf (p : Params) (a : Nat) (v : Word) : List Descriptor :=
  if idField p.idAddrField v = a then [⟨a, idField p.idBoardField v⟩] else []

theorem nodeOf_length_le (p : Params) (a : Nat) (v : Word) : (nodeOf p a v).length ≤ 1 := by
  unfold nodeOf
  split
  · exact le_refl _
  · exact Nat.zero_le _

section Nodes

variable {p : Params} {vs : List Word}

theorem consistentNodes_succ (m : Nat) :
    consistentNodes p vs (m + 1) = consistentNodes p vs m ++ nodeOf p m (vs.getD m 0) := by
  rw [consistentNodes, List.range_succ, List.filterMap_append, ← consistentNodes, nodeOf]
  by_cases h : idField p.idAddrField (vs.getD m 0) = m <;> simp only [List.filterMap_cons, List.filterMap_nil, h, if_true, if_false]

theorem consistentNodes_length_succ_le (m : Nat) :
    (consistentNodes p vs (m + 1)).length ≤ (consistentNodes p vs m).length + 1 := by
  rw [consistentNodes_succ, List.length_append]
  exact Nat.add_le_add_left (nodeOf_length_le _ _ _) _

theorem consistentNodes_length_mono {j m : Nat} (h : j ≤ m) :
    (consistentNodes p vs j).length ≤ (consistentNodes p vs m).length := by
  induction h with
  | refl => exact le_refl _
  | step _ ih =>
    rw [consistentNodes_succ, List.length_append]
    exact ih.trans (Nat.le_add_right _ _)

end Nodes

/-- A probe that appended these descriptors, and the step to the next address. -/
def State.recorded (s : State) (nodes : List Descriptor) : State :=
  { s with
    host := { s.host with list := s.host.list ++ nodes }
    seq := { s.seq with found := s.seq.found + nodes.length, scanAddr := s.seq.scanAddr + 1 } }

theorem State.scanRecord_accepted (h : s.seq.status = Status.zero) :
    s.scanRecord = s.recorded (nodeOf s.params s.seq.scanAddr s.seq.rxValue) := by
  have hz : s.seq.status.isZero = true := decide_eq_true h
  by_cases ha : idField s.params.idAddrField s.seq.rxValue = s.seq.scanAddr
  · rw [State.scanRecord, if_pos ⟨hz, ha⟩, nodeOf, if_pos ha, ha]
    rfl
  · rw [State.scanRecord, if_neg fun h => ha h.2, nodeOf, if_neg ha, State.recorded, List.append_nil]
    rfl

theorem State.scanRecord_failed (h : s.seq.status ≠ Status.zero) : s.scanRecord = s.recorded [] := by
  rw [State.scanRecord, if_neg fun hz => h (of_decide_eq_true hz.1), State.recorded, List.append_nil]
  rfl

/-! ### From one probe to the next -/

/-- The probe of the address the scan has come to, about to be sent. -/
def State.probing (w : State) (c : Nat) : State := w.started (.scan c) (probeParams w.params w.seq.scanAddr) 1

/-- The scan that `s` started has dealt with the addresses below `j`, has listed `nodes`, and is between two probes. -/
structure State.Scans (s w : State) (j : Nat) (nodes : List Descriptor) (rest : List Bool) : Prop where
  params  : w.params = s.params
  cfg     : w.cfg = s.cfg
  address : w.seq.scanAddr = j
  found   : w.seq.found = nodes.length
  host    : w.host = { s.host with list := nodes }
  fsm     : w.seq.fsm = .idle
  results : w.env.txResults = rest
  dest    : ∀ i, j = i + 1 → w.env.txDest = i
  ready   : s.ring.Ready s.params → w.ring.Ready s.params

theorem State.scans_opened (hf : s.seq.fsm = .idle) (htx : s.env.txResults = rest) :
    s.Scans s.scanOpened 0 [] rest :=
  ⟨rfl, rfl, rfl, rfl, rfl, hf, htx, nofun, id⟩

section Probe

variable {j c : Nat} {nodes : List Descriptor}

/-- R240: with room in the list and an address left the next probe is sent. -/
theorem State.Scans.scanNext (h : s.Scans w j nodes rest) (hroom : nodes.length < c) (hj : j ≤ s.params.lastValidAddress) :
    w.scanNext c = (w.probing c).sending := by
  rcases w.scanNext_cases c with ⟨hend, -⟩ | ⟨-, -, heq⟩
  · rw [h.found, h.address, h.params] at hend
    omega
  · exact heq

/-- A probe that was sent waits for its reply. -/
theorem State.Scans.settle_scanNext (h : s.Scans w j nodes (true :: true :: true :: rest)) (hroom : nodes.length < c)
    (hj : j ≤ s.params.lastValidAddress) : (w.scanNext c).settle = w.scanNext c := by
  rw [h.scanNext hroom hj, State.sending_opened (s := w.probing c) nofun h.results, State.settle_opened]

/-- R244: without room or without an address the scan is over. -/
theorem State.Scans.scanNext_end (h : s.Scans w j nodes rest) (hend : c ≤ nodes.length ∨ s.params.lastValidAddress < j) :
    w.scanNext c = { w with host := { w.host with found := w.seq.found } }.finish (.call .callSuccess) := by
  rcases w.scanNext_cases c with ⟨-, heq⟩ | ⟨hroom, haddr, -⟩
  · exact heq
  · rw [h.found] at hroom
    rw [h.address, h.params] at haddr
    omega

/-- A probe that is over is followed by the next address, with what it appended. -/
theorem State.Scans.conclude {r : List Bool} {st : Status} {extra : List Descriptor} {f : Fsm} (h : s.Scans w j nodes r)
    (hu : (w.probing c).Over u st rest) (hextra : ((u.goto f).goto .idle).scanRecord = ((u.goto f).goto .idle).recorded extra) :
    ∃ w', (u.goto f).conclude = w'.scanNext c ∧ s.Scans w' (j + 1) (nodes ++ extra) rest := by
  have hcaller : (u.goto f).seq.caller = .scan c := hu.caller
  refine ⟨((u.goto f).goto .idle).recorded extra, ?_, ?_⟩
  · rw [State.conclude_scan hcaller, hextra]
  · have hhost : u.host = { s.host with list := nodes } := hu.host.trans h.host
    have hready : w.ring.Ready w.params → u.ring.Ready w.params := hu.ready
    rw [h.params] at hready
    exact
      { params := hu.params.trans h.params
        cfg := hu.cfg.trans h.cfg
        address := congrArg (· + 1) (hu.address.trans h.address)
        found := by
          rw [List.length_append, ← h.found]
          exact congrArg (· + extra.length) hu.found
        host := by
          change ({ u.host with list := u.host.list ++ extra } : Places) = _
          rw [hhost]
        fsm := rfl
        results := hu.results
        dest := fun i hi => by
          obtain rfl : j = i := by omega
          exact hu.dest.trans h.address
        ready := fun hs => hready (h.ready hs) }

/-- A probe answered with the value `v` (R242, R243). -/
theorem State.Scans.probe_value (h : s.Scans w j nodes (true :: true :: true :: true :: rest)) (hroom : nodes.length < c)
    (hj : j ≤ s.params.lastValidAddress) (hready : s.ring.Ready s.params) (hend : isHexDigit s.params.endMarker = false)
    (hcap : 9 ≤ s.params.slotCapacity) (v : Word) (ds : List (List Byte)) :
    ∃ w', (w.scanNext c).runDelays ((minhex v 4 ++ [s.params.endMarker]) :: ds) = (w'.scanNext c).runDelays ds ∧
      s.Scans w' (j + 1) (nodes ++ nodeOf s.params j v) rest := by
  have hp := h.params
  have hshort := (minhex_length_bounds v).2
  have hsettle := h.settle_scanNext hroom hj
  have hv : (classify w.params .value (minhex v 4)).outcome (Config.freeRxValue w.env.freeCount) =
      some (Status.zero, v) := by
    rw [classify_number (decodeText_minhex _ v)]
    rfl
  obtain ⟨u, hrun, hu, hvalue⟩ := State.over_of_line (s := w.probing c) (ds := ds) nofun (hp ▸ h.ready hready)
    (plainLine_minhex (hp ▸ hend) v) (by change _ ≤ w.params.slotCapacity; rw [hp]; omega) hv h.results
  have hstatus : ((u.goto .success).goto .idle).seq.status = Status.zero := hu.status
  have hextra : nodeOf u.params u.seq.scanAddr u.seq.rxValue = nodeOf s.params j v := by
    rw [hu.params, hu.address, hvalue]
    exact congrArg₂ (nodeOf · · v) hp h.address
  obtain ⟨w', hconclude, hw'⟩ := h.conclude hu (State.scanRecord_accepted hstatus)
  refine ⟨w', ?_, hextra ▸ hw'⟩
  rw [State.attemptOver_zero hu.status, hconclude, ← h.scanNext hroom hj, hsettle] at hrun
  rw [← hrun, ← hp]
  rfl

/-- A probe nobody answers (R245). -/
theorem State.Scans.probe_silent {k : Nat} (h : s.Scans w j nodes (true :: true :: true :: true :: rest))
    (hroom : nodes.length < c) (hj : j ≤ s.params.lastValidAddress) (hpoll : 1 ≤ s.params.pollInterval)
    (hk : k = silentPolls s.params s.cfg s.params.scanTimeout) (ds : List (List Byte)) :
    ∃ w', (w.scanNext c).runDelays (List.replicate k [] ++ ds) = (w'.scanNext c).runDelays ds ∧
      s.Scans w' (j + 1) nodes rest := by
  have hp := h.params
  have hsettle := h.settle_scanNext hroom hj
  have hk' : k = silentPolls w.params w.cfg w.params.scanTimeout := by rw [hp, h.cfg]; exact hk
  obtain ⟨u, hrun, hu⟩ := State.over_of_silence (s := w.probing c) (ds := ds) nofun (hp ▸ hpoll) hk' h.results
  have hne : u.seq.status ≠ Status.zero := hu.status.symm ▸ silentStatus_ne_zero _ _ _
  have hlast : u.lastAttempt = true := by
    have hcaller : u.seq.caller = .scan c := hu.caller
    simp only [State.lastAttempt, hcaller]
  obtain ⟨w', hconclude, hw'⟩ := h.conclude hu (State.scanRecord_failed (s := (u.goto .exhausted).goto .idle) hne)
  rw [List.append_nil] at hw'
  refine ⟨w', ?_, hw'⟩
  rw [State.attemptOver_last hne hlast, hconclude, ← h.scanNext hroom hj, hsettle] at hrun
  exact hrun

end Probe

/-! ### The run of the probes -/

/-- The addresses below `m` are probed, each answers with its value, and the list is never full before. -/
theorem State.scan_values {vs : List Word} {c m : Nat} (hready : s.ring.Ready s.params)
    (hend : isHexDigit s.params.endMarker = false) (hcap : 9 ≤ s.params.slotCapacity) (hf : s.seq.fsm = .idle)
    (hvs : m ≤ vs.length) (hm : m ≤ s.params.lastValidAddress + 1)
    (hroom : ∀ j, j < m → (consistentNodes s.params vs j).length < c)
    (htx : s.env.txResults = List.replicate (4 * m) true ++ rest) (ds : List (List Byte)) :
    ∃ w, (s.scanOpened.scanNext c).runDelays ((vs.take m).map (fun v => minhex v 4 ++ [s.params.endMarker]) ++ ds) =
      (w.scanNext c).runDelays ds ∧ s.Scans w m (consistentNodes s.params vs m) rest := by
  induction m generalizing rest ds with
  | zero => exact ⟨s.scanOpened, rfl, State.scans_opened hf htx⟩
  | succ m ih =>
    have hlt : m < vs.length := hvs
    obtain ⟨w, hrun, hw⟩ := ih (by omega) (by omega) (fun j hj => hroom j (by omega)) (htx.trans (replicate_four_concat m rest))
      ((minhex vs[m] 4 ++ [s.params.endMarker]) :: ds)
    obtain ⟨w', hnext, hw'⟩ := hw.probe_value (hroom m (Nat.lt_succ_self m)) (by omega) hready hend hcap vs[m] ds
    refine ⟨w', ?_, ?_⟩
    · rw [List.take_succ_eq_append_getElem hlt, List.map_append, List.append_assoc, ← hnext]
      exact hrun
    · rw [consistentNodes_succ, List.getD_eq_getElem _ _ hlt]
      exact hw'

/-- The addresses below `m` are probed, and nobody answers. -/
theorem State.scan_silent {c k m : Nat} (hpoll : 1 ≤ s.params.pollInterval)
    (hk : k = silentPolls s.params s.cfg s.params.scanTimeout) (hf : s.seq.fsm = .idle) (hc : 1 ≤ c)
    (hm : m ≤ s.params.lastValidAddress + 1) (htx : s.env.txResults = List.replicate (4 * m) true ++ rest)
    (ds : List (List Byte)) :
    ∃ w, (s.scanOpened.scanNext c).runDelays (List.replicate (m * k) [] ++ ds) = (w.scanNext c).runDelays ds ∧
      s.Scans w m [] rest := by
  induction m generalizing rest ds with
  | zero =>
    rw [Nat.zero_mul]
    exact ⟨s.scanOpened, rfl, State.scans_opened hf htx⟩
  | succ m ih =>
    obtain ⟨w, hrun, hw⟩ := ih (by omega) (htx.trans (replicate_four_concat m rest)) (List.replicate k [] ++ ds)
    obtain ⟨w', hnext, hw'⟩ := hw.probe_silent hc (by omega) hpoll hk ds
    refine ⟨w', ?_, hw'⟩
    rw [Nat.succ_mul, List.replicate_add, List.append_assoc, hrun, hnext]

theorem exec_scan_of_fits {c : Nat} (hs : MasterIdle s)
    (hlen : (readFrame s.params s.params.nodeIdReg).length ≤ s.params.txCapacity) :
    exec (.scan true c) s = (s.scanOpened.scanNext c).runDelays s.env.deliveries := by
  have hfits : frameFits s.params (probeParams s.params 0) = true :=
    Bool.and_eq_true_iff.mpr ⟨decide_eq_true hlen, rfl⟩
  have hexec : exec (.scan true c) s = (s.startScan c).carryOn := by
    change s.asMaster (s.whenIdle _) = _
    rw [State.asMaster_of_idle hs, if_pos ⟨rfl, .inr hfits⟩]
  rw [hexec, State.carryOn, startScan_deliveries]
  rfl

/-- A scan that is over leaves the deliveries that were not heard. -/
theorem State.Scans.runDelays_end {j c : Nat} {nodes : List Descriptor} (h : s.Scans w j nodes rest)
    (hend : c ≤ nodes.length ∨ s.params.lastValidAddress < j) (ds : List (List Byte)) :
    ∃ t, (w.scanNext c).runDelays ds = .next t ∧ t.ret = .call .callSuccess ∧ t.seq.fsm = .idle ∧
      t.host = { s.host with list := nodes, found := nodes.length } ∧ t.env.deliveries = ds ∧
      t.env.txResults = rest ∧ t.env.txDest = w.env.txDest := by
  have hidle : (w.scanNext c).seq.fsm ≠ .awaitingReply := by
    rw [h.scanNext_end hend]
    intro hf
    have hwaits : w.seq.fsm = .awaitingReply := hf
    rw [h.fsm] at hwaits
    cases hwaits
  refine ⟨_, State.runDelays_idle _ hidle, ?_⟩
  rw [h.scanNext_end hend]
  refine ⟨rfl, h.fsm, ?_, rfl, h.results, rfl⟩
  change ({ w.host with found := w.seq.found } : Places) = _
  rw [h.host, h.found]

/-- Settles O52: `m` is the first number of probes after which the list is full or no address is left. -/
theorem scanListsTheConsistentNodes : Obligations.ScanListsTheConsistentNodes := by
  intro s capacity n vs rest ds hs hsound hm hd hcap hend hlen hn hvs htx hds
  have hstops : ∃ m, m = n ∨ capacity ≤ (consistentNodes s.params vs m).length := ⟨n, .inl rfl⟩
  obtain ⟨m, hstop, hfirst⟩ : ∃ m, (m = n ∨ capacity ≤ (consistentNodes s.params vs m).length) ∧
      ∀ j, j < m → ¬ (j = n ∨ capacity ≤ (consistentNodes s.params vs j).length) :=
    ⟨Nat.find hstops, Nat.find_spec hstops, fun _ => Nat.find_min hstops⟩
  have hroom : ∀ j, j < m → (consistentNodes s.params vs j).length < capacity :=
    fun j hj => Nat.not_le.mp fun h => hfirst j hj (.inr h)
  have hle : m ≤ n := Nat.not_lt.mp fun h => hfirst n h (.inl rfl)
  have hfull : (consistentNodes s.params vs m).length ≤ capacity := by
    cases m with
    | zero => exact Nat.zero_le _
    | succ j => exact (consistentNodes_length_succ_le j).trans (hroom j (Nat.lt_succ_self j))
  have hresults : s.env.txResults = List.replicate (4 * m) true ++ (List.replicate (4 * (n - m)) true ++ rest) := by
    rw [htx, ← List.append_assoc, ← List.replicate_add, ← Nat.mul_add, Nat.add_sub_cancel' hle]
  have hdeliveries : s.env.deliveries = (vs.take m).map (fun v => minhex v 4 ++ [s.params.endMarker]) ++
      ((vs.drop m).map (fun v => minhex v 4 ++ [s.params.endMarker]) ++ ds) := by
    rw [hds, ← List.append_assoc, ← List.map_append, List.take_append_drop]
  obtain ⟨w, hrun, hw⟩ := State.scan_values (c := capacity) (Ring.ready_of_sound hd hsound hm) hend hcap hs.2.2
    (by omega) (by omega) hroom hresults ((vs.drop m).map (fun v => minhex v 4 ++ [s.params.endMarker]) ++ ds)
  obtain ⟨t, hover, hret, hidle, hhost, hleft, hcalls, -⟩ :=
    hw.runDelays_end (c := capacity) (hstop.symm.imp_right fun h => by omega)
      ((vs.drop m).map (fun v => minhex v 4 ++ [s.params.endMarker]) ++ ds)
  have hexec := exec_scan_of_fits (c := capacity) hs hlen
  rw [hdeliveries, hrun, hover] at hexec
  exact ⟨t, m, hexec, hret, hidle, hle, hstop.imp_right fun h => Nat.le_antisymm hfull h, hroom, hhost, hleft, hcalls⟩

/-- Settles O53: the probe of every address is silent, and the last one leaves its destination. -/
theorem scanOfASilentBusFindsNothing : Obligations.ScanOfASilentBusFindsNothing := by
  intro s capacity n k rest hs hp hc hlen hk htx hle hds
  obtain ⟨w, hrun, hw⟩ := State.scan_silent (c := capacity) hp hk hs.2.2 hc (le_refl _) htx
    (List.replicate (n - (s.params.lastValidAddress + 1) * k) [])
  obtain ⟨t, hover, hret, hidle, hhost, hleft, hcalls, hdest⟩ := hw.runDelays_end (c := capacity) (.inr (Nat.lt_succ_self _))
    (List.replicate (n - (s.params.lastValidAddress + 1) * k) [])
  have hexec := exec_scan_of_fits (c := capacity) hs hlen
  rw [hds, ← Nat.add_sub_cancel' hle, List.replicate_add, hrun, hover] at hexec
  exact ⟨t, hexec, hret, by rw [hhost], by rw [hhost]; rfl, hidle, hcalls, hdest.trans (hw.dest _ rfl), hleft⟩

/-! ### A probe whose transport fails (R246) -/

/-- Each of the three calls of a probe's `Sending` may fail. -/
theorem State.sending_unsent {call : Nat} {b : Bool} (hx : s.seq.latch.expectation ≠ .none) (hcall : call < 3)
    (htx : s.env.txResults = List.replicate call true ++ false :: b :: rest) :
    ∃ dest ev, s.sending = s.unsent dest rest ev := by
  match call, hcall with
  | 0, _ => exact ⟨_, _, State.sending_no_destination htx⟩
  | 1, _ => exact ⟨_, _, State.sending_no_send htx⟩
  | 2, _ => exact ⟨_, _, State.sending_no_receiver hx htx⟩

/-- Settles O54: the probe whose call fails is given up, and the scan with it. -/
theorem scanAbortsOnTransportFailure : Obligations.ScanAbortsOnTransportFailure := by
  refine ⟨fun s capacity b rest hs hc hlen htx => ?_,
    fun s capacity call vs b rest ds hs hsound hm hd hcap hend hlen hvs hroom hcall htx hds => ?_⟩
  · have hw : s.Scans s.scanOpened 0 [] (false :: b :: rest) := State.scans_opened hs.2.2 htx
    have hexec := exec_scan_of_fits (c := capacity) hs hlen
    rw [hw.scanNext hc (Nat.zero_le _), State.sending_no_destination (s := s.scanOpened.probing capacity) htx,
      State.runDelays_unsent] at hexec
    exact ⟨_, hexec, rfl, rfl, rfl, rfl, rfl, rfl⟩
  · have hmono {j : Nat} (hj : j < vs.length) : (consistentNodes s.params vs j).length < capacity :=
      (consistentNodes_length_mono hj.le).trans_lt hroom
    have hresults : s.env.txResults = List.replicate (4 * vs.length) true ++ (List.replicate call true ++ false :: b :: rest) := by
      rw [htx, List.replicate_add, List.append_assoc]
    obtain ⟨w, hrun, hw⟩ := State.scan_values (c := capacity) (Ring.ready_of_sound hd hsound hm) hend hcap hs.2.2
      (le_refl _) (by omega) (fun _ hj => hmono hj) hresults ds
    obtain ⟨dest, ev, hunsent⟩ := State.sending_unsent (s := w.probing capacity) nofun hcall hw.results
    have hexec := exec_scan_of_fits (c := capacity) hs hlen
    rw [List.take_length] at hrun
    rw [hds, hrun, hw.scanNext hroom hvs, hunsent, State.runDelays_unsent] at hexec
    exact ⟨_, hexec, rfl, hw.host, rfl, rfl, rfl, rfl⟩

end Sys2Proof.Machine
end
